-- ==== Sys2Proof/Word.lean ====
section
/-! DEFINITION. The word types of the core and the two fixed-size byte frames. -/
namespace Sys2Proof

/-- A byte of a frame (00_scope.md R14). -/
abbrev Byte := BitVec 8

/-- A 16-bit Modbus register value, register field or CRC (`REG_WIDTH`, 00_scope.md R9). -/
abbrev Half := BitVec 16

/-- A 32-bit host register or time-base value (20_memory.md R71, 00_scope.md R24). -/
abbrev Word := BitVec 32

/-- Seven bytes, byte 0 first: a whole read response (30_encoding.md R114). -/
structure Frame7 where
  b0 : Byte
  b1 : Byte
  b2 : Byte
  b3 : Byte
  b4 : Byte
  b5 : Byte
  b6 : Byte
  deriving DecidableEq, Repr, Inhabited

/-- Eight bytes, byte 0 first: a request frame, a write response, and each of the two frame byte
buffers `TXBUF[0..7]` and `RXBUF[0..7]` (10_state.md R31, R32; 20_memory.md R70). -/
structure Frame8 where
  b0 : Byte
  b1 : Byte
  b2 : Byte
  b3 : Byte
  b4 : Byte
  b5 : Byte
  b6 : Byte
  b7 : Byte
  deriving DecidableEq, Repr, Inhabited

end Sys2Proof
end

