-- ==== Sys2Proof/Config.lean ====
section
/-! DEFINITION. The parameters of 00_scope.md R8, R9 and 42_byte_collector.md R171, the constants the
spec fixes, and the free values the spec leaves open. -/
namespace Sys2Proof

/-- `POLL_MODE`: the two readings of the collector's poll sleep (42_byte_collector.md R171). -/
inductive PollMode where
  | sleepEveryPoll
  | sleepWhenEmpty
  deriving DecidableEq, Repr, Inhabited

/-- `RX_OVERFLOW`: what the transport does with a byte that arrives at a full receive FIFO
(10_state.md R47 leaves the policy open; the three policies are the model's, log entry 7). -/
inductive RxOverflow where
  /-- The arriving byte is lost. -/
  | dropNewest
  /-- The byte at the head is lost and the arriving byte is appended. -/
  | dropOldest
  /-- Any non-empty part of the queue and the arriving byte that fits is kept, drawn freely. -/
  | anyLoss
  deriving DecidableEq, Repr, Inhabited

/-- What an 8-byte write echo needs in `SLEEP_EVERY_POLL` mode, where the spec says two things and 90_conflicts.md does
not choose (log entry 24). -/
inductive EchoArrival where
  /-- "only if a byte is in `RXQ` at every one of the 8 polls" (42_byte_collector.md R172, R176). -/
  | eachPoll
  /-- "only if all 8 bytes are in `RXQ` by the first poll" (70_reset_and_hazards.md R293, 43_register_access.md
  R203). -/
  | firstPoll
  deriving DecidableEq, Repr, Inhabited

/-- Every parameter a model takes as an argument, in one table (00_scope.md R5, R8, R9;
44_register_mux.md R220; 92_eei_decisions.md D32). Times are in milliseconds. -/
structure Config where
  /-- `SLAVE_ADDR` (93_implementation_defined.md I2). -/
  slaveAddr : Byte
  /-- `T_SETTLE`. -/
  tSettle : Nat
  /-- `T_DEADLINE`. -/
  tDeadline : Nat
  /-- `T_POLL`. -/
  tPoll : Nat
  /-- `T_ABC_APPLY`. -/
  tAbcApply : Nat
  /-- `T_CAL_WAIT`. -/
  tCalWait : Nat
  /-- `T_RESTART_SETTLE`. -/
  tRestartSettle : Nat
  /-- `TRANSPORT_HAS_RESTART`. -/
  transportHasRestart : Bool
  /-- `RX_FIFO_DEPTH`, `none` for unbounded. -/
  rxFifoDepth : Option Nat
  /-- `RX_OVERFLOW`. -/
  rxOverflow : RxOverflow
  /-- `POLL_MODE`. -/
  pollMode : PollMode
  /-- Which of two rules a write echo follows (log entry 24). -/
  echoArrival : EchoArrival
  /-- `ECHO_CHECK_REGISTER`. -/
  echoCheckRegister : Bool
  /-- `CLEAR_BEFORE_INIT`. -/
  clearBeforeInit : Bool
  /-- `CLEAR_BEFORE_SETABC`. -/
  clearBeforeSetabc : Bool
  /-- `CAL_ACK_READ_FN`. -/
  calAckReadFn : Byte
  /-- `CAL_CMD`. -/
  calCmd : Half
  /-- `CAL_ACK_MASK`. -/
  calAckMask : Half
  /-- Map entry calibration-ack. -/
  regCalAck : Byte
  /-- Map entry calibration-command. -/
  regCalCmd : Byte
  /-- Map entry CO2-input-register. -/
  regCo2 : Byte
  /-- Map entry firmware-version. -/
  regFw : Byte
  /-- Map entry device-ID-high. -/
  regIdHi : Byte
  /-- Map entry device-ID-low. -/
  regIdLo : Byte
  /-- Map entry ABC-period. -/
  regAbc : Byte
  deriving DecidableEq, Repr, Inhabited

/-- `TRANSPORT_HAS_RESTART` is OPEN (00_scope.md R9): no value of it can be proved. -/
opaque Config.openTransportHasRestart : Bool

/-- `T_RESTART_SETTLE` is OPEN (00_scope.md R8): no value of it can be proved. -/
opaque Config.openRestartSettle : Nat

/-- `RX_FIFO_DEPTH` is OPEN (00_scope.md R9): no value of it can be proved. -/
opaque Config.openRxFifoDepth : Option Nat

/-- `RX_OVERFLOW` is OPEN (00_scope.md R9): no value of it can be proved. -/
opaque Config.openRxOverflow : RxOverflow

/-- `POLL_MODE` is OPEN (42_byte_collector.md R171): no value of it can be proved. -/
opaque Config.openPollMode : PollMode

/-- What a write echo needs in `SLEEP_EVERY_POLL` mode is left open between two rules: no value of it can be proved
(log entry 24). -/
opaque Config.openEchoArrival : EchoArrival

/-- Free value: byte `i` of `RXBUF` after a timeout, "contents then unspecified" (10_state.md R32), for
the draw number `n`. -/
opaque Config.freeByte (n i : Nat) : Byte

/-- Free value: whether a restart keeps byte `i` of `RXQ` (93_implementation_defined.md I5: "the restart
may remove any subset of `RXQ`"), for the draw number `n`. -/
opaque Config.restartKeeps (n i : Nat) : Bool

/-- Free value: whether byte `i` of a full `RXQ` followed by the arriving byte survives the overflow
under `RxOverflow.anyLoss` (10_state.md R47), for the draw number `n`. -/
opaque Config.overflowKeeps (n i : Nat) : Bool

/-- The source's values of every parameter that has one (00_scope.md R8, R9; 44_register_mux.md R220);
the OPEN ones are the constants above. -/
def Config.source : Config where
  slaveAddr := 0xFE#8
  tSettle := 5
  tDeadline := 100
  tPoll := 15
  tAbcApply := 50
  tCalWait := 3000
  tRestartSettle := Config.openRestartSettle
  transportHasRestart := Config.openTransportHasRestart
  rxFifoDepth := Config.openRxFifoDepth
  rxOverflow := Config.openRxOverflow
  pollMode := Config.openPollMode
  echoArrival := Config.openEchoArrival
  echoCheckRegister := true
  clearBeforeInit := true
  clearBeforeSetabc := true
  calAckReadFn := 0x03#8
  calCmd := 0x7C06#16
  calAckMask := 0x0020#16
  regCalAck := 0x00#8
  regCalCmd := 0x01#8
  regCo2 := 0x03#8
  regFw := 0x1C#8
  regIdHi := 0x1D#8
  regIdLo := 0x1E#8
  regAbc := 0x1F#8

/-- The slave address byte that the request rows of opcode_table.json fix, the source's `SLAVE_ADDR`
(30_encoding.md R110; log entry 9). -/
def rowSlaveAddr : Byte := 0xFE#8

/-- `READ_COUNT`, "fixed by source" (00_scope.md R9). -/
def readCount : Half := 0x0001#16

/-- `READ_RSP_LEN`, "fixed by source" (00_scope.md R9). -/
def readRspLen : Nat := 7

/-- `WRITE_RSP_LEN`, "fixed by source" (00_scope.md R9). -/
def writeRspLen : Nat := 8

/-- `SENTINEL`, "fixed by source" (00_scope.md R9). -/
def sentinel : Half := 0xFFFF#16

end Sys2Proof
end

