-- ==== Sys2Proof/Syntax.lean ====
section
/-! DEFINITION. The instructions: one constructor per row of opcode_table.json, that is the eleven command
words (30_encoding.md R101) and the six wire frames (R111 to R115). -/
namespace Sys2Proof

/-- The three Modbus functions in scope (00_scope.md R2). -/
inductive FnCode where
  | readHolding
  | readInput
  | writeSingle
  deriving DecidableEq, Repr, Inhabited

/-- One constructor per row of opcode_table.json. A frame row carries every lettered field of its bit
string; `crc` is the pair `{d, c}` of the two CRC bytes. -/
inductive Instr where
  /-- `CLRX` (43_register_access.md R200). -/
  | clrx
  /-- `RHR addr` (R202). -/
  | rhr (addr : Byte)
  /-- `RIR addr` (R201). -/
  | rir (addr : Byte)
  /-- `WHR addr, value` (R203). -/
  | whr (addr : Byte) (value : Half)
  /-- `INIT` (44_register_mux.md R222). -/
  | init
  /-- `GETCO2` (R223). -/
  | getco2
  /-- `GETID` (R224). -/
  | getid
  /-- `GETFW` (R225). -/
  | getfw
  /-- `GETABC` (R226). -/
  | getabc
  /-- `SETABC hours` (R227). -/
  | setabc (hours : Half)
  /-- `BGCAL` (R228). -/
  | bgcal
  /-- `REQ_RIR`, the read-input-register request on the wire (30_encoding.md R111). -/
  | reqRir (addr : Byte) (crc : Half)
  /-- `REQ_RHR`, the read-holding-register request on the wire (R112). -/
  | reqRhr (addr : Byte) (crc : Half)
  /-- `REQ_WHR`, the write-single-holding-register request on the wire (R113). -/
  | reqWhr (addr : Byte) (value crc : Half)
  /-- `RSP_RIR`, the response to a read-input-register request (R114); bytes 0 and 1 are not checked. -/
  | rspRir (slave fn : Byte) (value crc : Half)
  /-- `RSP_RHR`, the response to a read-holding-register request (R114). -/
  | rspRhr (slave fn : Byte) (value crc : Half)
  /-- `RSP_WHR`, the response to a write request (R115). -/
  | rspWhr (slave fn addr : Byte) (value crc : Half)
  deriving DecidableEq, Repr

/-- Where an instruction stands, which decides how it is read: the core knows from the request it sent
which response it awaits (30_encoding.md R116). -/
inductive Place where
  /-- The command latch `CMDL` (10_state.md R36). -/
  | command
  /-- `TXBUF`, a frame handed to the transport (42_byte_collector.md R170). -/
  | request
  /-- `RXBUF`, the frame collected after a request of function `fn` (42_byte_collector.md R172). -/
  | response (fn : FnCode)
  deriving DecidableEq, Repr

/-- The place in which an instruction of this constructor stands. -/
def Instr.place : Instr → Place
  | .clrx => .command
  | .rhr _ => .command
  | .rir _ => .command
  | .whr _ _ => .command
  | .init => .command
  | .getco2 => .command
  | .getid => .command
  | .getfw => .command
  | .getabc => .command
  | .setabc _ => .command
  | .bgcal => .command
  | .reqRir _ _ => .request
  | .reqRhr _ _ => .request
  | .reqWhr _ _ _ => .request
  | .rspRir _ _ _ _ => .response .readInput
  | .rspRhr _ _ _ _ => .response .readHolding
  | .rspWhr _ _ _ _ _ => .response .writeSingle

/-- How many bits opcode_table.json gives the row. -/
def Instr.bits : Instr → Nat
  | .clrx => 32
  | .rhr _ => 32
  | .rir _ => 32
  | .whr _ _ => 32
  | .init => 32
  | .getco2 => 32
  | .getid => 32
  | .getfw => 32
  | .getabc => 32
  | .setabc _ => 32
  | .bgcal => 32
  | .reqRir _ _ => 64
  | .reqRhr _ _ => 64
  | .reqWhr _ _ _ => 64
  | .rspRir _ _ _ _ => 56
  | .rspRhr _ _ _ _ => 56
  | .rspWhr _ _ _ _ _ => 64

/-- An encoded instruction: a 32-bit command word (30_encoding.md R100) or a frame's bytes, byte 0 first
(00_scope.md R14). -/
inductive Code where
  | word (w : Word)
  | frame (bytes : List Byte)
  deriving DecidableEq, Repr

/-- How many bits an encoded instruction has. -/
def Code.bits : Code → Nat
  | .word _ => 32
  | .frame l => 8 * l.length

end Sys2Proof
end

