-- ==== Sys2Proof/Machine/Bytes.lean ====
section
/-! DEFINITION. Byte order and the layout of frames (20_memory.md R77; 30_encoding.md R102, R110 to R117). -/
namespace Sys2Proof

/-- `v[15:8]`. -/
def hiByte (v : Half) : Byte := v.extractLsb' 8 8

/-- `v[7:0]`. -/
def loByte (v : Half) : Byte := v.extractLsb' 0 8

/-- `hi × 256 + lo` (30_encoding.md R117). -/
def joinBytes (hi lo : Byte) : Half := hi ++ lo

/-- `hi × 65536 + lo` (20_memory.md R78). -/
def joinHalves (hi lo : Half) : Word := hi ++ lo

/-- The function code on the wire (00_scope.md R2). -/
def FnCode.code : FnCode → Byte
  | .readHolding => 0x03#8
  | .readInput => 0x04#8
  | .writeSingle => 0x06#8

/-- The function a code byte names, if one of the three in scope (30_encoding.md R118). -/
def fnOfCode (b : Byte) : Option FnCode :=
  if b = 0x03#8 then some .readHolding
  else if b = 0x04#8 then some .readInput
  else if b = 0x06#8 then some .writeSingle
  else none

/-- The response length the core expects after a request of this function (30_encoding.md R116). -/
def FnCode.rspLen : FnCode → Nat
  | .readHolding => readRspLen
  | .readInput => readRspLen
  | .writeSingle => writeRspLen

/-- The bytes of a seven-byte frame in index order. -/
def Frame7.toList (f : Frame7) : List Byte := [f.b0, f.b1, f.b2, f.b3, f.b4, f.b5, f.b6]

/-- The bytes of an eight-byte frame in index order. -/
def Frame8.toList (f : Frame8) : List Byte := [f.b0, f.b1, f.b2, f.b3, f.b4, f.b5, f.b6, f.b7]

/-- `f[0..6]`. -/
def Frame8.first7 (f : Frame8) : Frame7 := ⟨f.b0, f.b1, f.b2, f.b3, f.b4, f.b5, f.b6⟩

/-- A seven-byte frame laid at `RXBUF[0..6]`, byte 7 as it was. -/
def Frame8.setFirst7 (f : Frame8) (r : Frame7) : Frame8 :=
  ⟨r.b0, r.b1, r.b2, r.b3, r.b4, r.b5, r.b6, f.b7⟩

/-- `f[i] <- b`; the buffer has no index above 7 (20_memory.md R70). -/
def Frame8.set (f : Frame8) (i : Nat) (b : Byte) : Frame8 :=
  match i with
  | 0 => { f with b0 := b }
  | 1 => { f with b1 := b }
  | 2 => { f with b2 := b }
  | 3 => { f with b3 := b }
  | 4 => { f with b4 := b }
  | 5 => { f with b5 := b }
  | 6 => { f with b6 := b }
  | 7 => { f with b7 := b }
  | _ => f

/-- A request frame's bytes to the slave `slave` with the CRC bytes as given (30_encoding.md R110): low CRC
byte first. -/
def requestFrame (slave : Byte) (fn : FnCode) (addr : Byte) (v crc : Half) : Frame8 :=
  ⟨slave, fn.code, 0x00#8, addr, hiByte v, loByte v, loByte crc, hiByte crc⟩

/-- A read response's bytes (30_encoding.md R114). -/
def readResponseFrame (slave fn : Byte) (v crc : Half) : Frame7 :=
  ⟨slave, fn, 0x02#8, hiByte v, loByte v, loByte crc, hiByte crc⟩

/-- A write response's bytes (30_encoding.md R115). -/
def writeResponseFrame (slave fn addr : Byte) (v crc : Half) : Frame8 :=
  ⟨slave, fn, 0x00#8, addr, hiByte v, loByte v, loByte crc, hiByte crc⟩

/-- `keepFrom keeps i q`: the bytes of `q` whose index, counted from `i`, `keeps` keeps, in order. -/
def keepFrom (keeps : Nat → Bool) (i : Nat) : List Byte → List Byte
  | [] => []
  | b :: q => if keeps i then b :: keepFrom keeps (i + 1) q else keepFrom keeps (i + 1) q

end Sys2Proof
end

