-- ==== Sys2Proof/Machine/Operands.lean ====
section
/-! DEFINITION. The operand forms: the fields of the command word (30_encoding.md R100, R102, R119) and how an
operand reaches a result register (10_state.md R41). -/
namespace Sys2Proof

/-- `OPC = w[31:24]`. -/
def opcField (w : Word) : Byte := w.extractLsb' 24 8

/-- `ADDR = w[23:16]`. -/
def addrField (w : Word) : Byte := w.extractLsb' 16 8

/-- `VAL = w[15:0]`. -/
def valField (w : Word) : Half := w.extractLsb' 0 16

/-- `OPC << 24 | ADDR << 16 | VAL`, the command word of three fields (30_encoding.md R119). -/
def commandWord (opc addr : Byte) (val : Half) : Word := opc ++ addr ++ val

/-- `zext_32(v)` of a 16-bit value (00_scope.md R13). -/
def zext32 (v : Half) : Word := v.setWidth 32

/-- `zext_32(ok)` of a success bit: 1 or 0 (43_register_access.md R203). -/
def boolWord (ok : Bool) : Word := if ok then 1#32 else 0#32

end Sys2Proof
end

