-- ==== Sys2Proof/Machine/Crc.lean ====
section
/-! DEFINITION. The CRC-16/Modbus generator (40_crc.md R140). -/
namespace Sys2Proof

/-- One of the eight iterations: shift right, XOR with 0xA001 if the low bit was set. -/
def crcBit (acc : Half) : Half :=
  if acc.getLsbD 0 then (acc >>> 1) ^^^ 0xA001#16 else acc >>> 1

/-- `k` iterations of `crcBit`. -/
def crcBits : Nat → Half → Half
  | 0, acc => acc
  | k + 1, acc => crcBits k (crcBit acc)

/-- One byte: XOR into the low byte of the accumulator, then eight iterations. -/
def crcByte (acc : Half) (b : Byte) : Half := crcBits 8 (acc ^^^ b.setWidth 16)

/-- The accumulator after the bytes of `f`, from the value `acc`. -/
def crcFrom (acc : Half) (f : List Byte) : Half := f.foldl crcByte acc

/-- `CRC16(f, n)`: the CRC of the first `n` bytes of `f`. -/
def crc16 (f : List Byte) (n : Nat) : Half := crcFrom 0xFFFF#16 (f.take n)

end Sys2Proof
end

