-- ==== Sys2Proof/WellFormed.lean ====
section
/-! DEFINITION. Which instructions opcode_table.json admits: every command; a frame only with the CRC its
row demands (`c`, `d` of the row's source_fields; 30_encoding.md R110, R114, R115). -/
namespace Sys2Proof

/-- The check of each constructor. The operands' ranges (`addr` 0 to 255, `value` and `hours` 0 to 65535,
30_encoding.md R119) are the operands' types. -/
def Instr.wf : Instr → Bool
  | .clrx => true
  | .rhr _ => true
  | .rir _ => true
  | .whr _ _ => true
  | .init => true
  | .getco2 => true
  | .getid => true
  | .getfw => true
  | .getabc => true
  | .setabc _ => true
  | .bgcal => true
  | .reqRir a crc => crc == crc16 (requestFrame rowSlaveAddr .readInput a readCount crc).toList 6
  | .reqRhr a crc => crc == crc16 (requestFrame rowSlaveAddr .readHolding a readCount crc).toList 6
  | .reqWhr a v crc => crc == crc16 (requestFrame rowSlaveAddr .writeSingle a v crc).toList 6
  | .rspRir s f v crc => crc == crc16 (readResponseFrame s f v crc).toList 5
  | .rspRhr s f v crc => crc == crc16 (readResponseFrame s f v crc).toList 5
  | .rspWhr s f a v crc => crc == crc16 (writeResponseFrame s f a v crc).toList 6

/-- An instruction of the table. -/
abbrev Instr.WellFormed (i : Instr) : Prop := i.wf = true

end Sys2Proof
end

