-- ==== Sys2Proof/Decode.lean ====
section
/-! DEFINITION. Decoding, total on every word and every byte sequence, and the encoder
(30_encoding.md R100 to R120). -/
namespace Sys2Proof

/-- Why a word or a byte sequence is no instruction in the place where it stands. -/
inductive DecodeError where
  /-- An `OPC` outside 0x01, 0x03, 0x04, 0x06, 0x10 to 0x16 (R105). -/
  | unassignedOpcode
  /-- A non-zero field marked "must be 0" (R103). -/
  | reservedField
  /-- A frame of another length than its place holds (R110, R114, R115). -/
  | wrongLength
  /-- Byte 0 of a request is not 0xFE (R110). -/
  | wrongSlaveAddress
  /-- Byte 1 of a request is not 0x03, 0x04 or 0x06 (R118). -/
  | wrongFunction
  /-- Byte 2 of a request or of a write response is not 0x00 (R110, R115). -/
  | wrongRegisterHigh
  /-- The count of a read request is not 0x0001 (R118). -/
  | wrongCount
  /-- Byte 2 of a read response is not 0x02 (R114). -/
  | wrongByteCount
  /-- A command word where a frame stands, or a frame where a command word stands. -/
  | wrongPlace
  deriving DecidableEq, Repr

/-- The tests of `decode(w)` of R104 on the three fields, in its order; the last two lines name why a word
is `ILLEGAL`. -/
def decodeFields (opc addr : Byte) (val : Half) : Except DecodeError Instr :=
  if opc = 0x01#8 ∧ addr = 0 ∧ val = 0 then .ok .clrx
  else if opc = 0x03#8 ∧ val = 0 then .ok (.rhr addr)
  else if opc = 0x04#8 ∧ val = 0 then .ok (.rir addr)
  else if opc = 0x06#8 then .ok (.whr addr val)
  else if opc = 0x10#8 ∧ addr = 0 ∧ val = 0 then .ok .init
  else if opc = 0x11#8 ∧ addr = 0 ∧ val = 0 then .ok .getco2
  else if opc = 0x12#8 ∧ addr = 0 ∧ val = 0 then .ok .getid
  else if opc = 0x13#8 ∧ addr = 0 ∧ val = 0 then .ok .getfw
  else if opc = 0x14#8 ∧ addr = 0 ∧ val = 0 then .ok .getabc
  else if opc = 0x15#8 ∧ addr = 0 then .ok (.setabc val)
  else if opc = 0x16#8 ∧ addr = 0 ∧ val = 0 then .ok .bgcal
  else if opc ∈ [0x01#8, 0x03#8, 0x04#8, 0x10#8, 0x11#8, 0x12#8, 0x13#8, 0x14#8, 0x15#8, 0x16#8]
  then .error .reservedField
  else .error .unassignedOpcode

/-- `decode(w)` of R104. -/
def decodeCommand (w : Word) : Except DecodeError Instr :=
  decodeFields (opcField w) (addrField w) (valField w)

/-- The request in a frame handed to the transport (R110 to R113). -/
def decodeRequest : List Byte → Except DecodeError Instr
  | [b0, b1, b2, b3, b4, b5, b6, b7] =>
    if b0 ≠ rowSlaveAddr then .error .wrongSlaveAddress
    else if b2 ≠ 0x00#8 then .error .wrongRegisterHigh
    else match fnOfCode b1 with
      | none => .error .wrongFunction
      | some .writeSingle => .ok (.reqWhr b3 (joinBytes b4 b5) (joinBytes b7 b6))
      | some .readInput =>
        if joinBytes b4 b5 = readCount then .ok (.reqRir b3 (joinBytes b7 b6)) else .error .wrongCount
      | some .readHolding =>
        if joinBytes b4 b5 = readCount then .ok (.reqRhr b3 (joinBytes b7 b6)) else .error .wrongCount
  | _ => .error .wrongLength

/-- The response in the bytes collected after a request of function `fn` (R114 to R116). -/
def decodeResponse (fn : FnCode) (bytes : List Byte) : Except DecodeError Instr :=
  match fn, bytes with
  | .readInput, [b0, b1, b2, b3, b4, b5, b6] =>
    if b2 = 0x02#8 then .ok (.rspRir b0 b1 (joinBytes b3 b4) (joinBytes b6 b5)) else .error .wrongByteCount
  | .readHolding, [b0, b1, b2, b3, b4, b5, b6] =>
    if b2 = 0x02#8 then .ok (.rspRhr b0 b1 (joinBytes b3 b4) (joinBytes b6 b5)) else .error .wrongByteCount
  | .writeSingle, [b0, b1, b2, b3, b4, b5, b6, b7] =>
    if b2 = 0x00#8 then .ok (.rspWhr b0 b1 b3 (joinBytes b4 b5) (joinBytes b7 b6))
    else .error .wrongRegisterHigh
  | _, _ => .error .wrongLength

/-- The instruction that stands in a place, total on every word and every byte sequence. -/
def decode (p : Place) (c : Code) : Except DecodeError Instr :=
  match p, c with
  | .command, .word w => decodeCommand w
  | .request, .frame l => decodeRequest l
  | .response fn, .frame l => decodeResponse fn l
  | _, _ => .error .wrongPlace

/-- The words of an instruction: R119 for commands, the bit strings of R111 to R115 for frames. -/
def encode : Instr → Code
  | .clrx => .word (commandWord 0x01#8 0 0)
  | .rhr a => .word (commandWord 0x03#8 a 0)
  | .rir a => .word (commandWord 0x04#8 a 0)
  | .whr a v => .word (commandWord 0x06#8 a v)
  | .init => .word (commandWord 0x10#8 0 0)
  | .getco2 => .word (commandWord 0x11#8 0 0)
  | .getid => .word (commandWord 0x12#8 0 0)
  | .getfw => .word (commandWord 0x13#8 0 0)
  | .getabc => .word (commandWord 0x14#8 0 0)
  | .setabc h => .word (commandWord 0x15#8 0 h)
  | .bgcal => .word (commandWord 0x16#8 0 0)
  | .reqRir a crc => .frame (requestFrame rowSlaveAddr .readInput a readCount crc).toList
  | .reqRhr a crc => .frame (requestFrame rowSlaveAddr .readHolding a readCount crc).toList
  | .reqWhr a v crc => .frame (requestFrame rowSlaveAddr .writeSingle a v crc).toList
  | .rspRir s f v crc => .frame (readResponseFrame s f v crc).toList
  | .rspRhr s f v crc => .frame (readResponseFrame s f v crc).toList
  | .rspWhr s f a v crc => .frame (writeResponseFrame s f a v crc).toList

/-- Byte `k` of a frame numbered as opcode_table.json numbers it: bits `8k+7 .. 8k` of `w`. -/
def tableByte (w k : Nat) : Byte := BitVec.ofNat 8 (w / 256 ^ k)

/-- The first `n` bytes of `w`, byte 0 first. -/
def tableBytes (w : Nat) : Nat → List Byte
  | 0 => []
  | n + 1 => tableBytes w n ++ [tableByte w n]

/-- The place of a table word, which alone does not say it (log entry 14, DESIGN CHOICE): 32 bits are a
command; 56 bits are a response to a holding read if byte 1 is 0x03 and to an input read otherwise;
64 bits are a request where they match one and a write response otherwise. -/
def tablePlace (nbits w : Nat) : Option Place :=
  if nbits = 32 then some .command
  else if nbits = 56 then
    some (.response (if tableByte w 1 = 0x03#8 then .readHolding else .readInput))
  else if nbits = 64 then
    match decodeRequest (tableBytes w 8) with
    | .ok _ => some .request
    | .error _ => some (.response .writeSingle)
  else none

/-- The code of a table word in its place. -/
def tableCode (nbits w : Nat) : Code :=
  if nbits = 32 then .word (BitVec.ofNat 32 w) else .frame (tableBytes w (nbits / 8))

/-- The instruction the decoder reads from an instruction whose bits are `w`, numbered as
opcode_table.json numbers them. -/
def decodeTableWord (nbits w : Nat) : Option Instr :=
  match tablePlace nbits w with
  | none => none
  | some p =>
    match decode p (tableCode nbits w) with
    | .ok i => some i
    | .error _ => none

end Sys2Proof
end

