-- ==== Sys2Proof/Machine/State.lean ====
section
/-! DEFINITION. The machine's state: every register of 10_state.md, the environment state the core observes,
the inputs of the other agents, and the state after reset. -/
namespace Sys2Proof.Machine

/-- Why the machine stops. The spec has no core fault (60_exceptions.md R250, R266); both reasons are of
states no run from reset reaches, and both are safe: the model stops where the spec gives no effect. -/
inductive Fault where
  /-- Raised by a meaning whose instruction has no micro-step at `POS`: "`POS` is a position in a fixed
  rule" (10_state.md R36), so the spec gives this state no effect. Safe. -/
  | positionOutsideRule
  /-- Raised by `RxRead()` on an empty `RXQ`, which the core never calls (00_scope.md R16). Safe. -/
  | rxReadEmpty
  deriving DecidableEq, Repr

/-- What the model gives no meaning. All are safe: the model stops where the spec refuses the run. -/
inductive Refusal where
  /-- Raised by an arm of `exec` whose instruction has no meaning yet; no arm raises it. Safe. -/
  | notModelled (mnemonic : String)
  /-- Raised by a host write of `CMD` while `BUSY` = 1 (00_scope.md R12). Safe. -/
  | commandWhileBusy
  /-- Raised by a host access that is not 32 bits wide (20_memory.md R72). Safe. -/
  | hostAccessWidth
  /-- Raised by a host access whose offset is not a multiple of 4 (20_memory.md R73). Safe. -/
  | hostAccessMisaligned
  deriving DecidableEq, Repr

/-- The error kinds of `STATUS.ERR` (10_state.md R40); code 7 is reserved and never written. -/
inductive ErrKind where
  | none
  | timeout
  | malformed
  | crcMismatch
  | valueMismatch
  | notAcknowledged
  | illegalCommand
  deriving DecidableEq, Repr, Inhabited

/-- `STATUS` (10_state.md R39); its reserved bits read 0 and hold nothing. -/
structure Status where
  busy : Bool
  done : Bool
  ok : Bool
  err : ErrKind
  lastop : Byte
  deriving DecidableEq, Repr, Inhabited

/-- The sequencer's two states (10_state.md R36). -/
inductive Sequencer where
  | idle
  | exec
  deriving DecidableEq, Repr, Inhabited

/-- The positions inside `CLEAR()` (42_byte_collector.md R178). -/
inductive ClearPos where
  /-- `if TRANSPORT_HAS_RESTART`. -/
  | test
  /-- `Restart()`. -/
  | restart
  /-- The start sample of `Wait(T_RESTART_SETTLE)`. -/
  | settleBegin
  /-- The end of `Wait(T_RESTART_SETTLE)`. -/
  | settleEnd
  /-- `if RxAvail() = 0: return`. -/
  | avail
  /-- `RxRead()`, the byte discarded. -/
  | discard
  deriving DecidableEq, Repr, Inhabited

/-- The positions inside `RIR_OP`, `RHR_OP` and `WHR_OP` (43_register_access.md R201 to R203), with those of
`SEND` (42_byte_collector.md R170) and `COLLECT` (R172) in line. -/
inductive OpPos where
  /-- `BUILD_REQ`. -/
  | build
  /-- The start sample of `Wait(T_SETTLE)`. -/
  | settleBegin
  /-- The end of `Wait(T_SETTLE)`. -/
  | settleEnd
  /-- `Tx(TXBUF[0..7])`. -/
  | tx
  /-- `EXPLEN <- N; RXCNT <- 0; T0 <- Now()`. -/
  | collect
  /-- `took <- 0; if RxAvail() >= 1`. -/
  | avail
  /-- `RXBUF[RXCNT] <- RxRead(); RXCNT <- RXCNT + 1; took <- 1`. -/
  | take
  /-- `if RXCNT = N`, with 70_reset_and_hazards.md R293's demand on an echo, and `if POLL_MODE = SLEEP_WHEN_EMPTY and took = 1`. -/
  | full
  /-- `if (Now() - T0) mod 2^TIME_WIDTH > T_DEADLINE`. -/
  | deadline
  /-- The start sample of `Wait(T_POLL)`. -/
  | pollBegin
  /-- The end of `Wait(T_POLL)`. -/
  | pollEnd
  /-- `CHECK_READ` or `CHECK_WRITE`. -/
  | check
  deriving DecidableEq, Repr, Inhabited

/-- Which register operation of a command: its first to its fourth (44_register_mux.md R222 has four). -/
inductive Slot where
  | r1
  | r2
  | r3
  | r4
  deriving DecidableEq, Repr, Inhabited

/-- `POS`, the position in the pseudocode of the latched command (10_state.md R36). -/
inductive Pos where
  /-- The first step of the command's rule. -/
  | start
  /-- Inside the command's `CLEAR()`. -/
  | clear (p : ClearPos)
  /-- The step after `CLEAR()` has returned. -/
  | cleared
  /-- Inside the command's register operation `k`. -/
  | op (k : Slot) (p : OpPos)
  /-- The step after register operation `k` has returned. -/
  | after (k : Slot)
  /-- The start sample of BGCAL's `Wait(T_CAL_WAIT)`. -/
  | waitBegin
  /-- The end of SETABC's `Wait(T_ABC_APPLY)` or BGCAL's `Wait(T_CAL_WAIT)`. -/
  | waitEnd
  /-- The last `complete(...)` of INIT and SETABC. -/
  | finish
  deriving DecidableEq, Repr, Inhabited

/-- The tuple `(ok, err, value16)` a register operation returns (43_register_access.md R201 to R203); a write
returns no value, and `value` is then 0 and read by no rule. -/
structure Ret where
  ok : Bool
  err : ErrKind
  value : Half
  deriving DecidableEq, Repr, Inhabited

/-- A host access to the register space, its width in bytes (20_memory.md R71, R72). -/
inductive HostAccess where
  | read (off : Byte) (width : Nat)
  | write (off : Byte) (width : Nat) (v : Word)
  deriving DecidableEq, Repr

/-- One move of one agent (00_scope.md R10, R11): between any two micro-steps of the core the line may
append bytes, the clock may advance and the host may access the register space. -/
inductive Input where
  /-- The core takes its next micro-step. -/
  | core
  /-- The line appends a byte to `RXQ`. -/
  | rx (b : Byte)
  /-- The clock advances by `ms` milliseconds. -/
  | tick (ms : Nat)
  /-- The host accesses the register space. -/
  | host (a : HostAccess)
  /-- The reset input is applied (70_reset_and_hazards.md R280). -/
  | reset
  /-- No move itself: from here on the agents move freely for ever, from turn `turn` on; `State.moves` puts the
  moves of the turns in its place (00_scope.md R27; log entry 2). -/
  | free (turn : Nat)
  deriving DecidableEq, Repr

/-- Whether an entry is a move of an agent. -/
def Input.isMove : Input → Bool
  | .free _ => false
  | _ => true

/-- One turn of the free endless schedule: any moves, an advance of the clock, any moves, a micro-step of the core. -/
structure Turn where
  /-- The moves before the clock's advance. -/
  before : List Input
  /-- The clock advances by one millisecond more than this. -/
  ms : Nat
  /-- The moves between the clock's advance and the core's micro-step. -/
  between : List Input
  deriving DecidableEq, Repr, Inhabited

end Sys2Proof.Machine

/-- Free value: turn `n` of the agents' moves where they are under no law but the clock's fairness (00_scope.md R27:
"The model takes the bytes as a free input (an oracle draw) under no law"; log entry 2). -/
opaque Sys2Proof.Config.freeTurn (n : Nat) : Sys2Proof.Machine.Turn

namespace Sys2Proof.Machine

/-- The whole machine. -/
structure State where
  /-- The parameters (00_scope.md R8, R9); no step changes them. -/
  cfg : Config
  /-- `TXBUF[0..7]` (10_state.md R31). -/
  txbuf : Frame8
  /-- `RXBUF[0..7]` (R32). -/
  rxbuf : Frame8
  /-- `RXCNT` (R32). -/
  rxcnt : Nat
  /-- `EXPLEN` (R33). -/
  explen : Nat
  /-- `T0` (R34): the start sample of the collection, or of a wait outside one. -/
  t0 : Word
  /-- `t_w` (00_scope.md R16) of `Wait(T_POLL)`, which runs inside a collection whose sample stands in `T0`
  (log entry 4). -/
  tw : Word
  /-- `ACC` (R35). -/
  acc : Half
  /-- The sequencer (R36). -/
  seq : Sequencer
  /-- `CMDL` (R36). -/
  cmdl : Word
  /-- `POS` (R36). -/
  pos : Pos
  /-- `took`, local to `COLLECT`'s loop (42_byte_collector.md R172). -/
  took : Bool
  /-- What `RxAvail()` answered at the first poll of the collection, once it has been made; 70_reset_and_hazards.md R293
  compares it (log entry 24). -/
  firstAvail : Option Nat
  /-- The tuple bound by the command's first register operation. -/
  ret1 : Ret
  /-- The tuple bound by the command's second register operation. -/
  ret2 : Ret
  /-- The tuple bound by the command's third register operation. -/
  ret3 : Ret
  /-- The tuple bound by the command's fourth register operation. -/
  ret4 : Ret
  /-- `STATUS` (R39). -/
  status : Status
  /-- `RESULT` (R41). -/
  result : Word
  /-- `DEVICE_ID` (R42). -/
  deviceId : Word
  /-- `FW_VERSION[15:0]` (R43); bits [31:16] read 0. -/
  fwVersion : Half
  /-- `ABC_PERIOD[15:0]` (R44); bits [31:16] read 0. -/
  abcPeriod : Half
  /-- `RXQ` (R47), head first. -/
  rxq : List Byte
  /-- `TXLOG` (R48), oldest first. -/
  txlog : List Frame8
  /-- The clock read by `Now()` (R49). -/
  now : Word
  /-- The word the host's last `MemRead` returned (log entry 6). -/
  hostData : Word
  /-- The moves of the agents still to come, next first; an entry `free` stands for endless ones (log entry 2). -/
  inputs : List Input
  /-- The round of moves the agents go on with for ever once `inputs` is used up (log entry 2). -/
  repeating : List Input
  /-- How many free values have been drawn (log entry 5). -/
  draws : Nat
  deriving DecidableEq, Repr

/-- The machine right after reset (10_state.md R51, 70_reset_and_hazards.md R280). The values the spec gives
are `rxcnt`, `seq`, `cmdl`, `status`, `result` and the snapshot; the others are log entry 1's. -/
def State.reset : State where
  cfg := Config.source
  txbuf := ⟨0, 0, 0, 0, 0, 0, 0, 0⟩
  rxbuf := ⟨0, 0, 0, 0, 0, 0, 0, 0⟩
  rxcnt := 0
  explen := 0
  t0 := 0
  tw := 0
  acc := 0xFFFF#16
  seq := .idle
  cmdl := 0x00000000#32
  pos := .start
  took := false
  firstAvail := none
  ret1 := ⟨false, .none, 0⟩
  ret2 := ⟨false, .none, 0⟩
  ret3 := ⟨false, .none, 0⟩
  ret4 := ⟨false, .none, 0⟩
  status := ⟨false, false, false, .none, 0x00#8⟩
  result := 0x00000000#32
  deviceId := 0xFFFFFFFF#32
  fwVersion := 0xFFFF#16
  abcPeriod := 0xFFFF#16
  rxq := []
  txlog := []
  now := 0
  hostData := 0
  inputs := []
  repeating := []
  draws := 0

end Sys2Proof.Machine
end

