-- ==== Sys2Proof/Machine/Codec.lean ====
section
/-! DEFINITION. The frame builder and the two response checkers as functions of bytes
(41_frame_codec.md R150 to R156). -/
namespace Sys2Proof.Machine

/-- The CRC of bytes 0 to 5 of the request to `slave` of function `fn`, `addr` and `v`. -/
def requestCrc (slave : Byte) (fn : FnCode) (addr : Byte) (v : Half) : Half :=
  crc16 [slave, fn.code, 0x00#8, addr, hiByte v, loByte v] 6

/-- The frame `BUILD_REQ(fn, addr, v)` leaves in `TXBUF`, `SLAVE_ADDR` being `slave` (R150). -/
def builtFrame (slave : Byte) (fn : FnCode) (addr : Byte) (v : Half) : Frame8 :=
  requestFrame slave fn addr v (requestCrc slave fn addr v)

/-- `CHECK_READ(r)` (R152). -/
def checkRead (r : Frame7) : Ret :=
  if r.b2 ≠ 0x02#8 then ⟨false, .malformed, sentinel⟩
  else if crc16 r.toList 5 ≠ joinBytes r.b6 r.b5 then ⟨false, .crcMismatch, sentinel⟩
  else ⟨true, .none, joinBytes r.b3 r.b4⟩

/-- What `CHECK_READ(r)` leaves in `ACC`: the CRC is computed only after the byte-count test. -/
def checkReadAcc (acc : Half) (r : Frame7) : Half :=
  if r.b2 ≠ 0x02#8 then acc else crc16 r.toList 5

/-- The echo tests of `CHECK_WRITE` that come before the CRC test (R153). -/
def echoMismatch (checkRegister : Bool) (r t : Frame8) : Bool :=
  (checkRegister && (r.b2 != t.b2 || r.b3 != t.b3)) || (r.b4 != t.b4 || r.b5 != t.b5)

/-- `CHECK_WRITE(r, t)` (R153). -/
def checkWrite (checkRegister : Bool) (r t : Frame8) : Ret :=
  if echoMismatch checkRegister r t then ⟨false, .valueMismatch, 0⟩
  else if crc16 r.toList 6 ≠ joinBytes r.b7 r.b6 then ⟨false, .crcMismatch, 0⟩
  else ⟨true, .none, 0⟩

/-- What `CHECK_WRITE(r, t)` leaves in `ACC`. -/
def checkWriteAcc (checkRegister : Bool) (acc : Half) (r t : Frame8) : Half :=
  if echoMismatch checkRegister r t then acc else crc16 r.toList 6

/-- What a timed-out operation returns: the sentinel for a read (43_register_access.md R201), no value for a
write (R203). -/
def timeoutRet : FnCode → Ret
  | .readInput => ⟨false, .timeout, sentinel⟩
  | .readHolding => ⟨false, .timeout, sentinel⟩
  | .writeSingle => ⟨false, .timeout, 0⟩

end Sys2Proof.Machine
end

