-- ==== Sys2Proof/Machine/Flags.lean ====
section
/-! DEFINITION. Every computation of the `STATUS` bits, the core's only flags (10_state.md R36, R37, R39, R40,
R46), and the reduction of several outcomes to one (60_exceptions.md R257). -/
namespace Sys2Proof.Machine

/-- The code of an error kind in `STATUS.ERR` (10_state.md R40). -/
def ErrKind.code : ErrKind → BitVec 3
  | .none => 0#3
  | .timeout => 1#3
  | .malformed => 2#3
  | .crcMismatch => 3#3
  | .valueMismatch => 4#3
  | .notAcknowledged => 5#3
  | .illegalCommand => 6#3

/-- `STATUS` as the host reads it (10_state.md R39): `LASTOP` [15:8], `ERR` [6:4], `OK` [2], `DONE` [1],
`BUSY` [0], every other bit 0. -/
def Status.word (f : Status) : Word :=
  0#16 ++ f.lastop ++ 0#1 ++ f.err.code ++ 0#1 ++ BitVec.ofBool f.ok ++ BitVec.ofBool f.done
    ++ BitVec.ofBool f.busy

/-- The flags at acceptance of a command with opcode `opc` (10_state.md R36). -/
def Status.accepted (opc : Byte) : Status := ⟨true, false, false, .none, opc⟩

/-- The flags at completion (10_state.md R37); `LASTOP` stays. -/
def Status.completed (f : Status) (ok : Bool) (err : ErrKind) : Status :=
  { f with ok := ok, err := err, done := true, busy := false }

/-- The first error that is not `NONE`, else `NONE` (44_register_mux.md R222). -/
def firstErr : List ErrKind → ErrKind
  | [] => .none
  | e :: l => if e = .none then firstErr l else e

end Sys2Proof.Machine
end

