-- ==== Sys2Proof/Machine/Ops.lean ====
section
/-! DEFINITION. The named updates of the state that every meaning and every agent's move is built from, among
them completion, the core's one way to report a failure (60_exceptions.md R250), and reset. -/
namespace Sys2Proof.Machine

/-- What a core micro-step or an agent's move answers. -/
abbrev Result := Host.Outcome State Fault Refusal

namespace State

/-- `POS <- p`. -/
def goto (p : Pos) (s : State) : State := { s with pos := p }

/-- Acceptance of a command word (10_state.md R36). -/
def accept (w : Word) (s : State) : State :=
  { s with cmdl := w, status := .accepted (opcField w), seq := .exec, pos := .start }

/-- `complete(ok, err, result)` (10_state.md R37), one atomic step: every outcome of a command, the failures
among them, ends here. -/
def complete (ok : Bool) (err : ErrKind) (r : Word) (s : State) : State :=
  { s with result := r, status := s.status.completed ok err, seq := .idle }

/-- The reset input (70_reset_and_hazards.md R280): every core register to its reset value; the transport,
`RXQ`, `TXLOG`, the clock and the host are not touched. -/
def coreReset (s : State) : State :=
  { State.reset with
    cfg := s.cfg, rxq := s.rxq, txlog := s.txlog, now := s.now, hostData := s.hostData,
    inputs := s.inputs, repeating := s.repeating, draws := s.draws }

/-- The start of a `Wait(T)` outside a collection: `T0` holds its `Now()` sample (10_state.md R34). -/
def beginWait (s : State) : State := { s with t0 := s.now }

/-- The start of `Wait(T_POLL)`, inside a collection: `t_w <- Now()` (00_scope.md R16), and `T0` keeps the
collection's sample, which R172 compares with after the wait (log entry 4). -/
def beginPoll (s : State) : State := { s with tw := s.now }

/-- Whether a wait of `t` ms begun at `since` may end: `(Now() - t_w) mod 2^TIME_WIDTH >= T` (00_scope.md R16). -/
def waitOver (since : Word) (t : Nat) (s : State) : Bool := t ≤ (s.now - since).toNat

/-- `BUILD_REQ(fn, addr, v)` (41_frame_codec.md R150). -/
def buildReq (fn : FnCode) (addr : Byte) (v : Half) (s : State) : State :=
  { s with txbuf := builtFrame s.cfg.slaveAddr fn addr v, acc := requestCrc s.cfg.slaveAddr fn addr v }

/-- `Tx(f)`: the whole frame goes to the transport (00_scope.md R16; 10_state.md R48). -/
def tx (f : Frame8) (s : State) : State := { s with txlog := s.txlog ++ [f] }

/-- The start of `COLLECT(N)` (42_byte_collector.md R172). -/
def beginCollect (n : Nat) (s : State) : State := { s with explen := n, rxcnt := 0, t0 := s.now, firstAvail := none }

/-- `took <- 0` and `RxAvail()` (42_byte_collector.md R172), whose first answer in a collection is kept
(70_reset_and_hazards.md R293). -/
def readAvail (s : State) : State :=
  { s with took := false, firstAvail := some (s.firstAvail.getD s.rxq.length) }

/-- `RXBUF[RXCNT] <- b; RXCNT <- RXCNT + 1; took <- 1`, the byte `b` taken from `RXQ` leaving `q`
(42_byte_collector.md R172). -/
def takeByte (b : Byte) (q : List Byte) (s : State) : State :=
  { s with rxbuf := s.rxbuf.set s.rxcnt b, rxcnt := s.rxcnt + 1, took := true, rxq := q }

/-- Whether the deadline has passed: `(Now() - T0) mod 2^TIME_WIDTH > T_DEADLINE`
(42_byte_collector.md R174). -/
def deadlinePassed (s : State) : Bool := s.cfg.tDeadline < (s.now - s.t0).toNat

/-- Whether the collection has all 8 bytes of a write echo and still may not succeed: in `SLEEP_EVERY_POLL` mode, not all
of them were in `RXQ` by the first poll (70_reset_and_hazards.md R293, 43_register_access.md R203), where the machine
follows those rules and not the letter of 42_byte_collector.md R172 (log entry 24). -/
def echoLate (s : State) : Bool :=
  decide (s.rxcnt = s.explen) && decide (s.explen = writeRspLen) && decide (s.cfg.pollMode = .sleepEveryPoll) &&
    decide (s.cfg.echoArrival = .firstPoll) && s.firstAvail.any (· < writeRspLen)

/-- Eight freely drawn bytes: "`RXBUF` contents then unspecified" (10_state.md R32). -/
def freeFrame (n : Nat) : Frame8 :=
  ⟨Config.freeByte n 0, Config.freeByte n 1, Config.freeByte n 2, Config.freeByte n 3,
    Config.freeByte n 4, Config.freeByte n 5, Config.freeByte n 6, Config.freeByte n 7⟩

/-- The partial buffer is discarded on a timeout (10_state.md R32). -/
def discardPartial (s : State) : State :=
  { s with rxcnt := 0, rxbuf := freeFrame s.draws, draws := s.draws + 1 }

/-- The tuple register operation `k` returned. -/
def ret (s : State) : Slot → Ret
  | .r1 => s.ret1
  | .r2 => s.ret2
  | .r3 => s.ret3
  | .r4 => s.ret4

/-- The tuple register operation `k` returns is bound. -/
def bindRet (k : Slot) (r : Ret) (s : State) : State :=
  match k with
  | .r1 => { s with ret1 := r }
  | .r2 => { s with ret2 := r }
  | .r3 => { s with ret3 := r }
  | .r4 => { s with ret4 := r }

/-- `ACC <- a`. -/
def setAcc (a : Half) (s : State) : State := { s with acc := a }

/-- `Restart()`: the transport may lose any of the bytes of `RXQ` (93_implementation_defined.md I5). -/
def restart (s : State) : State :=
  { s with rxq := keepFrom (Config.restartKeeps s.draws) 0 s.rxq, draws := s.draws + 1 }

/-- `RXQ` after bytes have left its head. -/
def setRxq (q : List Byte) (s : State) : State := { s with rxq := q }

/-- `DEVICE_ID <- v`. -/
def setDeviceId (v : Word) (s : State) : State := { s with deviceId := v }

/-- `FW_VERSION <- zext_32(v)`. -/
def setFwVersion (v : Half) (s : State) : State := { s with fwVersion := v }

/-- `ABC_PERIOD <- zext_32(v)`. -/
def setAbcPeriod (v : Half) (s : State) : State := { s with abcPeriod := v }

/-- `RXQ` after the byte `b` arrives: appended if there is room, else as `RX_OVERFLOW` says
(10_state.md R47). -/
def queueAfter (s : State) (b : Byte) : List Byte :=
  match s.cfg.rxFifoDepth with
  | none => s.rxq ++ [b]
  | some d =>
    if s.rxq.length < d then s.rxq ++ [b]
    else match s.cfg.rxOverflow with
      | .dropNewest => s.rxq
      | .dropOldest => (s.rxq ++ [b]).drop 1
      | .anyLoss =>
        let q := keepFrom (Config.overflowKeeps s.draws) 0 (s.rxq ++ [b])
        if q = [] ∨ d < q.length then s.rxq else q

/-- The line appends a byte (00_scope.md R27). -/
def lineAppend (b : Byte) (s : State) : State :=
  { s with rxq := s.queueAfter b, draws := s.draws + 1 }

/-- The clock advances (00_scope.md R24). -/
def tick (ms : Nat) (s : State) : State := { s with now := s.now + BitVec.ofNat 32 ms }

/-- The word a host read returns goes to the host. -/
def answerHost (v : Word) (s : State) : State := { s with hostData := v }

/-- The moves of turn `n` of the free schedule: under no law for the line and the host, and with an advance of the
clock and a micro-step of the core in every turn (00_scope.md R27). -/
def turnMoves (n : Nat) : List Input :=
  (Config.freeTurn n).before.filter Input.isMove ++ .tick ((Config.freeTurn n).ms + 1) ::
    ((Config.freeTurn n).between.filter Input.isMove ++ [.core])

/-- Entries with the next turn of a free schedule written out, where one begins. -/
def writeTurn : List Input → List Input
  | .free n :: l => turnMoves n ++ .free (n + 1) :: l
  | l => l

/-- The entries to come: those of `inputs`, and once they are used up the round `repeating` (log entry 2). -/
def entries (s : State) : List Input :=
  match s.inputs with
  | [] => s.repeating
  | e :: l => e :: l

/-- The agents' moves to come, next first: the entries, and where a free schedule begins its next turn. -/
def moves (s : State) : List Input := writeTurn s.entries

/-- `inputs` after a move has been made. -/
def setInputs (l : List Input) (s : State) : State := { s with inputs := l }

end State

end Sys2Proof.Machine
end

