-- ==== Sys2Proof/Machine/Collector.lean ====
section
/-! DEFINITION. The micro-steps the commands share: the end of a wait, `CLEAR`, and the register operations
with `SEND` and `COLLECT` in line (42_byte_collector.md R170 to R180; 43_register_access.md R201 to R203). -/
namespace Sys2Proof.Machine

/-- The end of a `Wait(t)` begun at `since`: on to `p` once the wait is over; before that the core does nothing
(00_scope.md R16, R25). -/
def endWait (since : Word) (t : Nat) (p : Pos) (s : State) : Result :=
  .next (if s.waitOver since t then s.goto p else s)

/-- `CLEAR()` at position `p` (42_byte_collector.md R178). -/
def clearStep (p : ClearPos) (s : State) : Result :=
  match p with
  | .test => .next (s.goto (if s.cfg.transportHasRestart then .clear .restart else .clear .avail))
  | .restart => .next (s.restart.goto (.clear .settleBegin))
  | .settleBegin => .next (s.beginWait.goto (.clear .settleEnd))
  | .settleEnd => endWait s.t0 s.cfg.tRestartSettle (.clear .avail) s
  | .avail => .next (s.goto (if s.rxq.isEmpty then .cleared else .clear .discard))
  | .discard =>
    match s.rxq with
    | [] => .fault .rxReadEmpty
    | _ :: q => .next ((s.setRxq q).goto (.clear .avail))

/-- `Tx(f)` at the transmit position of a register operation (42_byte_collector.md R170). -/
def transmit (f : Frame8) (s : State) : Result :=
  match s.pos with
  | .op k .tx => .next ((s.tx f).goto (.op k .collect))
  | _ => .fault .positionOutsideRule

/-- `CHECK_READ(r)` at the check position of a read operation, its tuple returned
(43_register_access.md R201, R202). -/
def receiveRead (r : Frame7) (s : State) : Result :=
  match s.pos with
  | .op k .check => .next (((s.setAcc (checkReadAcc s.acc r)).bindRet k (checkRead r)).goto (.after k))
  | _ => .fault .positionOutsideRule

/-- `CHECK_WRITE(r, TXBUF)` at the check position of a write operation, its tuple returned
(43_register_access.md R203). -/
def receiveWrite (r : Frame8) (s : State) : Result :=
  match s.pos with
  | .op k .check =>
    .next (((s.setAcc (checkWriteAcc s.cfg.echoCheckRegister s.acc r s.txbuf)).bindRet k
      (checkWrite s.cfg.echoCheckRegister r s.txbuf)).goto (.after k))
  | _ => .fault .positionOutsideRule

/-- A register operation of a command: its function, register address, value or count, and place in the
command (44_register_mux.md R221). -/
structure OpCall where
  fn : FnCode
  addr : Byte
  value : Half
  slot : Slot
  deriving DecidableEq, Repr

/-- The check of the response to a call. -/
def checkStep (fn : FnCode) (s : State) : Result :=
  match fn with
  | .readInput => receiveRead s.rxbuf.first7 s
  | .readHolding => receiveRead s.rxbuf.first7 s
  | .writeSingle => receiveWrite s.rxbuf s

/-- The next position after the completion and poll-mode tests of `COLLECT`'s loop
(42_byte_collector.md R172). -/
def afterFull (k : Slot) (s : State) : Pos :=
  if s.rxcnt = s.explen then .op k .check
  else if s.cfg.pollMode = .sleepWhenEmpty ∧ s.took = true then .op k .avail
  else .op k .deadline

/-- `RXCNT <- 0; return (0, TIMEOUT)` of `COLLECT`, and the operation's own return (42_byte_collector.md R172;
43_register_access.md R201 to R203). -/
def timedOut (c : OpCall) (s : State) : State :=
  (s.discardPartial.bindRet c.slot (timeoutRet c.fn)).goto (.after c.slot)

/-- The register operation `c` at position `p`. Its collection takes a byte at each poll that finds one, whenever the
byte arrived (42_byte_collector.md R172, R173); an echo that 70_reset_and_hazards.md R293 does not let succeed times
out (log entry 24). -/
def opStep (c : OpCall) (p : OpPos) (s : State) : Result :=
  match p with
  | .build => .next ((s.buildReq c.fn c.addr c.value).goto (.op c.slot .settleBegin))
  | .settleBegin => .next (s.beginWait.goto (.op c.slot .settleEnd))
  | .settleEnd => endWait s.t0 s.cfg.tSettle (.op c.slot .tx) s
  | .tx => transmit s.txbuf s
  | .collect => .next ((s.beginCollect c.fn.rspLen).goto (.op c.slot .avail))
  | .avail => .next (s.readAvail.goto (if s.rxq.isEmpty then .op c.slot .full else .op c.slot .take))
  | .take =>
    match s.rxq with
    | [] => .fault .rxReadEmpty
    | b :: q => .next ((s.takeByte b q).goto (.op c.slot .full))
  | .full => .next (if s.echoLate then timedOut c s else s.goto (afterFull c.slot s))
  | .deadline =>
    .next (if s.deadlinePassed then timedOut c s else s.goto (.op c.slot .pollBegin))
  | .pollBegin => .next (s.beginPoll.goto (.op c.slot .pollEnd))
  | .pollEnd => endWait s.tw s.cfg.tPoll (.op c.slot .avail) s
  | .check => checkStep c.fn s

end Sys2Proof.Machine
end

