-- ==== Sys2Proof/Machine/Frames.lean ====
section
/-! DEFINITION. The meanings of the six wire frames: a request frame in `TXBUF` is handed to the transport
(42_byte_collector.md R170), a response frame in `RXBUF` is checked and its tuple returned
(41_frame_codec.md R152, R153). -/
namespace Sys2Proof.Machine

/-- `REQ_RIR` (30_encoding.md R111). -/
def execReqRir (addr : Byte) (crc : Half) (s : State) : Result :=
  transmit (requestFrame rowSlaveAddr .readInput addr readCount crc) s

/-- `REQ_RHR` (30_encoding.md R112). -/
def execReqRhr (addr : Byte) (crc : Half) (s : State) : Result :=
  transmit (requestFrame rowSlaveAddr .readHolding addr readCount crc) s

/-- `REQ_WHR` (30_encoding.md R113). -/
def execReqWhr (addr : Byte) (value crc : Half) (s : State) : Result :=
  transmit (requestFrame rowSlaveAddr .writeSingle addr value crc) s

/-- `RSP_RIR` (30_encoding.md R114). -/
def execRspRir (slave fn : Byte) (value crc : Half) (s : State) : Result :=
  receiveRead (readResponseFrame slave fn value crc) s

/-- `RSP_RHR` (30_encoding.md R114). -/
def execRspRhr (slave fn : Byte) (value crc : Half) (s : State) : Result :=
  receiveRead (readResponseFrame slave fn value crc) s

/-- `RSP_WHR` (30_encoding.md R115). -/
def execRspWhr (slave fn addr : Byte) (value crc : Half) (s : State) : Result :=
  receiveWrite (writeResponseFrame slave fn addr value crc) s

end Sys2Proof.Machine
end

