-- ==== Sys2Proof/Machine/Register.lean ====
section
/-! DEFINITION. The register access commands `CLRX`, `RIR`, `RHR`, `WHR` (43_register_access.md R200 to R204)
and the outcome of an illegal word (60_exceptions.md R256). Each meaning is the micro-step at `POS`. -/
namespace Sys2Proof.Machine

/-- `CLRX` (R200). -/
def execClrx (s : State) : Result :=
  match s.pos with
  | .start => clearStep .test s
  | .clear p => clearStep p s
  | .cleared => .next (s.complete true .none 0x00000000#32)
  | _ => .fault .positionOutsideRule

/-- `RIR_OP(addr)` in slot `k` (R201). -/
def rirCall (addr : Byte) (k : Slot) : OpCall := ⟨.readInput, addr, readCount, k⟩

/-- `RHR_OP(addr)` in slot `k` (R202). -/
def rhrCall (addr : Byte) (k : Slot) : OpCall := ⟨.readHolding, addr, readCount, k⟩

/-- `WHR_OP(addr, v)` in slot `k` (R203). -/
def whrCall (addr : Byte) (v : Half) (k : Slot) : OpCall := ⟨.writeSingle, addr, v, k⟩

/-- `RIR addr` (R201). -/
def execRir (addr : Byte) (s : State) : Result :=
  match s.pos with
  | .start => opStep (rirCall addr .r1) .build s
  | .op .r1 p => opStep (rirCall addr .r1) p s
  | .after .r1 => .next (s.complete s.ret1.ok s.ret1.err (zext32 s.ret1.value))
  | _ => .fault .positionOutsideRule

/-- `RHR addr` (R202). -/
def execRhr (addr : Byte) (s : State) : Result :=
  match s.pos with
  | .start => opStep (rhrCall addr .r1) .build s
  | .op .r1 p => opStep (rhrCall addr .r1) p s
  | .after .r1 => .next (s.complete s.ret1.ok s.ret1.err (zext32 s.ret1.value))
  | _ => .fault .positionOutsideRule

/-- `WHR addr, value` (R203). -/
def execWhr (addr : Byte) (value : Half) (s : State) : Result :=
  match s.pos with
  | .start => opStep (whrCall addr value .r1) .build s
  | .op .r1 p => opStep (whrCall addr value .r1) p s
  | .after .r1 => .next (s.complete s.ret1.ok s.ret1.err (boolWord s.ret1.ok))
  | _ => .fault .positionOutsideRule

/-- A word that decodes to `ILLEGAL`: `complete(0, ILLEGAL_COMMAND, RESULT)` (60_exceptions.md R256). -/
def execIllegal (s : State) : Result :=
  match s.pos with
  | .start => .next (s.complete false .illegalCommand s.result)
  | _ => .fault .positionOutsideRule

end Sys2Proof.Machine
end

