-- ==== Sys2Proof/Machine/Mux.lean ====
section
/-! DEFINITION. The register multiplexer's composite commands (44_register_mux.md R220 to R230). Each meaning
is the micro-step at `POS`. -/
namespace Sys2Proof.Machine

/-- The four reads of `INIT`, in order (R222). -/
def initCall (c : Config) : Slot → OpCall
  | .r1 => rirCall c.regIdHi .r1
  | .r2 => rirCall c.regIdLo .r2
  | .r3 => rirCall c.regFw .r3
  | .r4 => rhrCall c.regAbc .r4

/-- `ok1 and ok2 and ok3 and ok4` (R222). -/
def initOk (s : State) : Bool := s.ret1.ok && s.ret2.ok && s.ret3.ok && s.ret4.ok

/-- The first of `e1` to `e4` that is not `NONE` (R222). -/
def initErr (s : State) : ErrKind := firstErr [s.ret1.err, s.ret2.err, s.ret3.err, s.ret4.err]

/-- `INIT` (R222). -/
def execInit (s : State) : Result :=
  match s.pos with
  | .start => .next (s.goto (if s.cfg.clearBeforeInit then .clear .test else .op .r1 .build))
  | .clear p => clearStep p s
  | .cleared => opStep (initCall s.cfg .r1) .build s
  | .op k p => opStep (initCall s.cfg k) p s
  | .after .r1 => opStep (initCall s.cfg .r2) .build s
  | .after .r2 => .next ((s.setDeviceId (joinHalves s.ret1.value s.ret2.value)).goto (.op .r3 .build))
  | .after .r3 => .next ((s.setFwVersion s.ret3.value).goto (.op .r4 .build))
  | .after .r4 => .next ((s.setAbcPeriod s.ret4.value).goto .finish)
  | .finish => .next (s.complete (initOk s) (initErr s) 0x00000000#32)
  | _ => .fault .positionOutsideRule

/-- `GETCO2` (R223). -/
def execGetco2 (s : State) : Result :=
  match s.pos with
  | .start => clearStep .test s
  | .clear p => clearStep p s
  | .cleared => opStep (rirCall s.cfg.regCo2 .r1) .build s
  | .op .r1 p => opStep (rirCall s.cfg.regCo2 .r1) p s
  | .after .r1 => .next (s.complete s.ret1.ok s.ret1.err (zext32 s.ret1.value))
  | _ => .fault .positionOutsideRule

/-- `GETID` (R224). -/
def execGetid (s : State) : Result :=
  match s.pos with
  | .start => .next (s.complete true .none s.deviceId)
  | _ => .fault .positionOutsideRule

/-- `GETFW` (R225). -/
def execGetfw (s : State) : Result :=
  match s.pos with
  | .start => .next (s.complete true .none (zext32 s.fwVersion))
  | _ => .fault .positionOutsideRule

/-- `GETABC` (R226). -/
def execGetabc (s : State) : Result :=
  match s.pos with
  | .start => .next (s.complete true .none (zext32 s.abcPeriod))
  | _ => .fault .positionOutsideRule

/-- The two register operations of `SETABC hours`, in order (R227). -/
def setabcCall (c : Config) (hours : Half) : Slot → OpCall
  | .r1 => whrCall c.regAbc hours .r1
  | _ => rhrCall c.regAbc .r2

/-- The error `SETABC` reports: the write's, else the re-read's, else `VALUE_MISMATCH` where the re-read
differs from `hours` (R227). -/
def setabcErr (hours : Half) (w r : Ret) : ErrKind :=
  if w.ok = false then w.err
  else if r.ok = false then r.err
  else if r.value ≠ hours then .valueMismatch
  else .none

/-- `SETABC` succeeds only if the write and the re-read do and the re-read equals `hours` (R227). -/
def setabcOk (hours : Half) (w r : Ret) : Bool := w.ok && r.ok && (r.value == hours)

/-- `SETABC hours` (R227). -/
def execSetabc (hours : Half) (s : State) : Result :=
  match s.pos with
  | .start => .next (s.goto (if s.cfg.clearBeforeSetabc then .clear .test else .op .r1 .build))
  | .clear p => clearStep p s
  | .cleared => opStep (setabcCall s.cfg hours .r1) .build s
  | .op .r1 p => opStep (setabcCall s.cfg hours .r1) p s
  | .after .r1 => .next (s.beginWait.goto .waitEnd)
  | .waitEnd => endWait s.t0 s.cfg.tAbcApply (.op .r2 .build) s
  | .op .r2 p => opStep (setabcCall s.cfg hours .r2) p s
  | .after .r2 => .next ((s.setAbcPeriod s.ret2.value).goto .finish)
  | .finish =>
    .next (s.complete (setabcOk hours s.ret1 s.ret2) (setabcErr hours s.ret1 s.ret2)
      (zext32 s.ret2.value))
  | _ => .fault .positionOutsideRule

/-- The three register operations of `BGCAL`, in order (R228); the acknowledgment is read with
`CAL_ACK_READ_FN`. -/
def bgcalCall (c : Config) : Slot → OpCall
  | .r1 => whrCall c.regCalAck 0x0000#16 .r1
  | .r2 => whrCall c.regCalCmd c.calCmd .r2
  | _ => if c.calAckReadFn = 0x03#8 then rhrCall c.regCalAck .r3 else rirCall c.regCalAck .r3

/-- Whether the acknowledgment read `r` reports success: not the sentinel, and `CAL_ACK_MASK` set (R228). -/
def calAcknowledged (mask : Half) (r : Ret) : Bool := r.value != sentinel && (r.value &&& mask != 0)

/-- The error of an acknowledgment read that reports no success (R228). -/
def calErr (mask : Half) (r : Ret) : ErrKind :=
  if r.value = sentinel then (if r.ok = false then r.err else .notAcknowledged)
  else if r.value &&& mask ≠ 0 then .none
  else .notAcknowledged

/-- `BGCAL` (R228). -/
def execBgcal (s : State) : Result :=
  match s.pos with
  | .start => clearStep .test s
  | .clear p => clearStep p s
  | .cleared => opStep (bgcalCall s.cfg .r1) .build s
  | .op .r1 p => opStep (bgcalCall s.cfg .r1) p s
  | .after .r1 =>
    if s.ret1.ok = false then .next (s.complete false s.ret1.err 0x00000000#32)
    else .next (s.goto (.op .r2 .build))
  | .op .r2 p => opStep (bgcalCall s.cfg .r2) p s
  | .after .r2 =>
    if s.ret2.ok = false then .next (s.complete false s.ret2.err 0x00000000#32)
    else .next (s.goto .waitBegin)
  | .waitBegin => .next (s.beginWait.goto .waitEnd)
  | .waitEnd => endWait s.t0 s.cfg.tCalWait (.op .r3 .build) s
  | .op .r3 p => opStep (bgcalCall s.cfg .r3) p s
  | .after .r3 =>
    .next (s.complete (calAcknowledged s.cfg.calAckMask s.ret3) (calErr s.cfg.calAckMask s.ret3)
      (boolWord (calAcknowledged s.cfg.calAckMask s.ret3)))
  | _ => .fault .positionOutsideRule

/-- `MAJOR = FW_VERSION[15:8]` (R229). -/
def fwMajor (s : State) : Byte := hiByte s.fwVersion

/-- `MINOR = FW_VERSION[7:0]` (R229). -/
def fwMinor (s : State) : Byte := loByte s.fwVersion

end Sys2Proof.Machine
end

