-- ==== Sys2Proof/Machine/Dispatch.lean ====
section
/-! DEFINITION. One arm per instruction of the opcode table. -/
namespace Sys2Proof.Machine

def exec (i : Instr) (s : State) : Host.Outcome State Fault Refusal :=
  match i with
  | .clrx => Sys2Proof.Machine.execClrx s
  | .rhr addr => Sys2Proof.Machine.execRhr addr s
  | .rir addr => Sys2Proof.Machine.execRir addr s
  | .whr addr value => Sys2Proof.Machine.execWhr addr value s
  | .init => Sys2Proof.Machine.execInit s
  | .getco2 => Sys2Proof.Machine.execGetco2 s
  | .getid => Sys2Proof.Machine.execGetid s
  | .getfw => Sys2Proof.Machine.execGetfw s
  | .getabc => Sys2Proof.Machine.execGetabc s
  | .setabc hours => Sys2Proof.Machine.execSetabc hours s
  | .bgcal => Sys2Proof.Machine.execBgcal s
  -- the wire frames
  | .reqRir addr crc => Sys2Proof.Machine.execReqRir addr crc s
  | .reqRhr addr crc => Sys2Proof.Machine.execReqRhr addr crc s
  | .reqWhr addr value crc => Sys2Proof.Machine.execReqWhr addr value crc s
  | .rspRir slave fn value crc => Sys2Proof.Machine.execRspRir slave fn value crc s
  | .rspRhr slave fn value crc => Sys2Proof.Machine.execRspRhr slave fn value crc s
  | .rspWhr slave fn addr value crc => Sys2Proof.Machine.execRspWhr slave fn addr value crc s

end Sys2Proof.Machine
end

