-- ==== Sys2Proof/Machine/HostPort.lean ====
section
/-! DEFINITION. The host register space (20_memory.md R71 to R74; 10_state.md R38 to R45). -/
namespace Sys2Proof.Machine

/-- What a 32-bit read of offset `off` returns. -/
def readReg (off : Byte) (s : State) : Word :=
  if off = 0x00#8 then 0x00000000#32
  else if off = 0x04#8 then s.status.word
  else if off = 0x08#8 then s.result
  else if off = 0x0C#8 then s.deviceId
  else if off = 0x10#8 then zext32 s.fwVersion
  else if off = 0x14#8 then zext32 s.abcPeriod
  else 0x00000000#32

/-- The host's duties on any access: 32 bits wide (R72), at a multiple of 4 (R73). -/
def hostDuty (off : Byte) (width : Nat) : Option Refusal :=
  if width ≠ 4 then some .hostAccessWidth
  else if off.toNat % 4 ≠ 0 then some .hostAccessMisaligned
  else none

/-- `MemRead(off, 4)`: no side effect on the core (R74). -/
def hostRead (off : Byte) (width : Nat) (s : State) : Result :=
  match hostDuty off width with
  | some r => .refused r
  | none => .next (s.answerHost (readReg off s))

/-- `MemWrite(off, 4, v)`: a write of `CMD` while `BUSY` = 0 accepts the command (10_state.md R36), while
`BUSY` = 1 it is refused (00_scope.md R12); every other write is ignored (R74). -/
def hostWrite (off : Byte) (width : Nat) (v : Word) (s : State) : Result :=
  match hostDuty off width with
  | some r => .refused r
  | none =>
    if off = 0x00#8 then
      if s.status.busy then .refused .commandWhileBusy else .next (s.accept v)
    else .next s

/-- A host access. -/
def hostStep (a : HostAccess) (s : State) : Result :=
  match a with
  | .read off width => hostRead off width s
  | .write off width v => hostWrite off width v s

end Sys2Proof.Machine
end

