-- ==== Sys2Proof/Machine/Sequencer.lean ====
section
/-! DEFINITION. Fetching: which instruction stands where the core takes its next micro-step; the core's
micro-step; and the moves of the other agents (10_state.md R36; 00_scope.md R10, R11). -/
namespace Sys2Proof.Machine

/-- What stands in `CMDL` (30_encoding.md R104): a command, or `none` for `ILLEGAL`. -/
def fetchCommand (s : State) : Option Instr :=
  match decode .command (.word s.cmdl) with
  | .ok i => some i
  | .error _ => none

/-- The request frame in `TXBUF`, if it is one. -/
def fetchRequest (s : State) : Option Instr :=
  match decode .request (.frame s.txbuf.toList) with
  | .ok i => some i
  | .error _ => none

/-- The response frame in `RXBUF` to the request in `TXBUF`, if it is one: 7 bytes after a read request, 8
after a write request (30_encoding.md R116). -/
def fetchResponse (s : State) : Option Instr :=
  match fnOfCode s.txbuf.b1 with
  | none => none
  | some fn =>
    match decode (.response fn) (.frame (s.rxbuf.toList.take fn.rspLen)) with
    | .ok i => some i
    | .error _ => none

/-- The instruction of the core's next micro-step. At the transmit position it is the request frame in
`TXBUF`, at the check position the response frame in `RXBUF`; where the buffer holds none, and at every
other position, it is the latched command (log entry 3). -/
def fetch (s : State) : Option Instr :=
  match s.pos with
  | .op _ .tx => (fetchRequest s).orElse fun _ => fetchCommand s
  | .op _ .check => (fetchResponse s).orElse fun _ => fetchCommand s
  | _ => fetchCommand s

/-- The micro-step of a fetched instruction; `none` is `ILLEGAL` (30_encoding.md R104). -/
def runFetched (i : Option Instr) (s : State) : Result :=
  match i with
  | some j => exec j s
  | none => execIllegal s

/-- One micro-step of the core: none in `IDLE`; in `EXEC` that of the fetched instruction. -/
def coreStep (s : State) : Result :=
  match s.seq with
  | .idle => .next s
  | .exec => runFetched (fetch s) s

/-- One agent's move; an entry `free` is none, and `State.moves` leaves none to be made. -/
def agentStep (e : Input) (s : State) : Result :=
  match e with
  | .core => coreStep s
  | .rx b => .next (s.lineAppend b)
  | .tick ms => .next (s.tick ms)
  | .host a => hostStep a s
  | .reset => .next s.coreReset
  | .free _ => .next s

/-- The next move: the first of those to come; the core's where none will come (log entry 2). -/
def systemStep (s : State) : Result :=
  match s.moves with
  | [] => coreStep s
  | e :: l => agentStep e (s.setInputs l)

end Sys2Proof.Machine
end

