-- ==== Sys2Proof/Machine/Load.lean ====
section
/-! DEFINITION. Placing an instruction where the core fetches its next one. -/
namespace Sys2Proof.Machine

/-- The command under whose register operation a frame stands. -/
def hostCommand (fn : FnCode) (addr : Byte) (v : Half) : Word :=
  match fn with
  | .readInput => commandWord 0x04#8 addr 0
  | .readHolding => commandWord 0x03#8 addr 0
  | .writeSingle => commandWord 0x06#8 addr v

/-- The core about to hand the frame `f` to the transport. -/
def placeRequest (f : Frame8) (s : State) : State :=
  let fn := (fnOfCode f.b1).getD .writeSingle
  { s.accept (hostCommand fn f.b3 (joinBytes f.b4 f.b5)) with txbuf := f, pos := .op .r1 .tx }

/-- The core about to check `r`, the whole response to the request of function `fn`, `addr` and `v`. -/
def placeResponse (fn : FnCode) (addr : Byte) (v : Half) (r : Frame8) (s : State) : State :=
  { s.accept (hostCommand fn addr v) with
    txbuf := builtFrame s.cfg.slaveAddr fn addr v, rxbuf := r, rxcnt := fn.rspLen, explen := fn.rspLen,
    pos := .op .r1 .check }

/-- The eight bytes of a table word. -/
def tableFrame (w : Nat) : Frame8 :=
  ⟨tableByte w 0, tableByte w 1, tableByte w 2, tableByte w 3, tableByte w 4, tableByte w 5,
    tableByte w 6, tableByte w 7⟩

/-- A table word placed where its place says (`tablePlace`): a command as an accepted `CMD` write, a request
in `TXBUF`, a response in `RXBUF` under a request it answers. -/
def placeWord (nbits w : Nat) (s : State) : State :=
  match tablePlace nbits w with
  | none => s
  | some .command => s.accept (BitVec.ofNat 32 w)
  | some .request => placeRequest (tableFrame w) s
  | some (.response .writeSingle) =>
    placeResponse .writeSingle (tableByte w 3) (joinBytes (tableByte w 4) (tableByte w 5)) (tableFrame w) s
  | some (.response fn) => placeResponse fn 0x00#8 readCount (tableFrame w) s

/-- The core's move put before every other agent's. -/
def coreNext (s : State) : State := s.setInputs (.core :: s.inputs)

end Sys2Proof.Machine
end

