-- ==== Sys2Proof/Machine/Step.lean ====
section
/-! DEFINITION. The step of the whole machine, and the state in which a given instruction is the next. -/
namespace Sys2Proof.Machine

/-- One step: the next agent's move (`systemStep`). -/
def step (s : State) : Host.Outcome State Fault Refusal := systemStep s

/-- `s` with the instruction whose table bits are `w` placed where the very next step fetches it. -/
def State.withFetchWord (s : State) (nbits w : Nat) : State := coreNext (placeWord nbits w s)

end Sys2Proof.Machine
end

