-- ==== Sys2Proof/Machine/Schedule.lean ====
section
/-! DEFINITION. The ideal schedule of 00_scope.md R26 as lists of moves: every micro-step that is no wait
takes 0 ms, every wait lasts exactly its duration, and a reply is wholly in `RXQ` when its `Tx` returns.
No meaning uses it; the durations of 70_reset_and_hazards.md R300 are stated with it. And the lines that keep up with
the drain of `CLEAR()` (42_byte_collector.md R179). -/
namespace Sys2Proof.Machine

/-- "an 8-byte write echo succeeds only if all 8 bytes are in `RXQ` by the first poll" (70_reset_and_hazards.md R293), and
they were not; of a machine that follows that rule (log entry 24). -/
def EchoTooLate (s : State) : Prop :=
  s.explen = 8 ∧ s.cfg.pollMode = .sleepEveryPoll ∧ s.cfg.echoArrival = .firstPoll ∧ ∃ m, s.firstAvail = some m ∧ m < 8

/-- `n` micro-steps of the core. -/
def cores (n : Nat) : List Input := List.replicate n .core

/-- A `Wait(t)`: its start sample, `t` ms, its end. -/
def waitMoves (t : Nat) : List Input := [.core, .tick t, .core]

/-- `BUILD_REQ`, the settle wait and `Tx` (42_byte_collector.md R170). -/
def sendMoves (c : Config) : List Input := .core :: (waitMoves c.tSettle ++ [.core])

/-- The iterations of `COLLECT`'s loop that take `n` bytes already in `RXQ` (42_byte_collector.md R172). -/
def pollMoves (c : Config) : Nat → List Input
  | 0 => []
  | 1 => cores 3
  | n + 2 =>
    match c.pollMode with
    | .sleepWhenEmpty => cores 3 ++ pollMoves c (n + 1)
    | .sleepEveryPoll => cores 4 ++ waitMoves c.tPoll ++ pollMoves c (n + 1)

/-- A register operation whose reply is in `RXQ` when its `Tx` returns. -/
def opMoves (c : Config) (reply : List Byte) : List Input :=
  sendMoves c ++ reply.map .rx ++ cores 1 ++ pollMoves c reply.length ++ cores 1

/-- `n` iterations of `COLLECT`'s loop on an empty `RXQ` that wait, and the one whose deadline test
fails. -/
def silentPolls (c : Config) : Nat → List Input
  | 0 => cores 3
  | n + 1 => cores 3 ++ waitMoves c.tPoll ++ silentPolls c n

/-- A register operation with a silent line (70_reset_and_hazards.md R300). -/
def silentMoves (c : Config) : List Input := sendMoves c ++ cores 1 ++ silentPolls c 7

/-- `CLEAR()` of an empty `RXQ` without a restart. -/
def clearMoves : List Input := cores 2

/-- The timing parameters at the source's values (00_scope.md R8). -/
structure SourceTimes (c : Config) : Prop where
  settle : c.tSettle = 5
  deadline : c.tDeadline = 100
  poll : c.tPoll = 15
  abcApply : c.tAbcApply = 50
  calWait : c.tCalWait = 3000

/-- `a` ms in `SLEEP_EVERY_POLL` mode, `b` ms in `SLEEP_WHEN_EMPTY` mode ("A" and "B" of R300). -/
def modeTime (c : Config) (a b : Nat) : Nat :=
  match c.pollMode with
  | .sleepEveryPoll => a
  | .sleepWhenEmpty => b

/-- The FIFO holds at least `n` bytes. -/
def FifoRoom (c : Config) (n : Nat) : Prop := ∀ d, c.rxFifoDepth = some d → n ≤ d

/-- The valid read response carrying `v`, with any slave and function byte (30_encoding.md R114). -/
def readReply (slave fn : Byte) (v : Half) : List Byte :=
  (readResponseFrame slave fn v (crc16 [slave, fn, 0x02#8, hiByte v, loByte v] 5)).toList

/-- The exact echo of a write request to `slave` (41_frame_codec.md R153). -/
def echoReply (slave addr : Byte) (v : Half) : List Byte := (builtFrame slave .writeSingle addr v).toList

/-- A move of the line, the clock or the host that starts and ends no command: bytes, time, and every access the
host may make (20_memory.md R72, R73) but the write of `CMD`. -/
def sparesCore : Input → Bool
  | .core => false
  | .rx _ => true
  | .tick _ => true
  | .host (.read off width) => width == 4 && off.toNat % 4 == 0
  | .host (.write off width _) => width == 4 && off.toNat % 4 == 0 && off != 0x00#8
  | .reset => false
  | .free _ => false

/-- The line keeps up with the drain of `CLEAR()` at this step (42_byte_collector.md R179): the next move spares the
core, or it is the core's and finds a byte where it calls `RxAvail()`. -/
def LineKeepsUp (s : State) : Prop :=
  (∀ e ∈ s.moves.head?, e = .core ∨ sparesCore e = true) ∧
  ((∀ e ∈ s.moves.head?, e = .core) → s.pos = .clear .avail → s.rxq ≠ [])

/-- The moves of one iteration of the drain loop that are not the core's: before `RxAvail()` and before
`RxRead()`. -/
structure DrainRound where
  before : List Input
  between : List Input
  deriving DecidableEq, Repr

/-- An iteration in which the line appends a byte before `RxAvail()`; it may append more at any time, the clock may
advance and the host may access the registers. -/
structure DrainRound.Feeds (r : DrainRound) : Prop where
  spares : ∀ e ∈ r.before ++ r.between, sparesCore e = true
  byte : ∃ b, .rx b ∈ r.before

/-- The moves of a sequence of drain iterations. -/
def drainRounds (rs : List DrainRound) : List Input :=
  (rs.map fun r => r.before ++ .core :: (r.between ++ [.core])).flatten

/-! ## Endless schedules -/

/-- The milliseconds by which a move advances the clock. -/
def Input.ms : Input → Nat
  | .tick ms => ms
  | _ => 0

namespace State

/-- The next move; the core's where none will come (log entry 2). -/
def nextMove (s : State) : Input := s.moves.headD .core

/-- The next move taken off the schedule and not made. -/
def dropMove (s : State) : State := s.setInputs s.moves.tail

/-- The next `n` moves taken off the schedule and not made. -/
def dropMoves : Nat → State → State
  | 0, s => s
  | n + 1, s => dropMoves n s.dropMove

/-- The milliseconds that pass in the next `n` moves, whatever the core does. -/
def timeOver : Nat → State → Nat
  | 0, _ => 0
  | n + 1, s => s.nextMove.ms + timeOver n s.dropMove

end State

/-- The clock's fairness on the endless schedule of a state: "time advances without bound" (00_scope.md R27). -/
def ClockFair (s : State) : Prop := ∀ ms, ∃ n, ms ≤ s.timeOver n

/-- An endless schedule under which waits and collections end (00_scope.md R27, 42_byte_collector.md R177): the clock
is fair, the other moves are the core's and moves that spare it, and the core moves again and again, each time before
more than `gap` ms have passed (log entry 20). -/
structure FairSchedule (gap : Nat) (s : State) : Prop where
  clock : ClockFair s
  core : ∀ n, ∃ m, ((s.dropMoves n).dropMoves m).nextMove = .core ∧ (s.dropMoves n).timeOver m ≤ gap
  spares : ∀ n, (s.dropMoves n).nextMove = .core ∨ sparesCore (s.dropMoves n).nextMove = true

/-- No elapsed time the core compares comes to 2^32 ms where it is never held up for more than `gap` ms: "wrap-around
of the counter never changes a result while the elapsed time is below 2^32 ms" (00_scope.md R24). -/
structure NoWrap (c : Config) (gap : Nat) : Prop where
  waits : ∀ t ∈ [c.tSettle, c.tPoll, c.tAbcApply, c.tCalWait, c.tRestartSettle], t + gap < 2 ^ 32
  collection : c.tDeadline + c.tPoll + 32 * gap < 2 ^ 32

/-- The positions at which the core is in a wait. -/
def inWait : Pos → Bool
  | .clear .settleEnd => true
  | .op _ .settleEnd => true
  | .op _ .pollEnd => true
  | .waitEnd => true
  | _ => false

/-- The positions inside `COLLECT`'s loop (42_byte_collector.md R172). -/
def inCollectLoop : OpPos → Bool
  | .avail => true
  | .take => true
  | .full => true
  | .deadline => true
  | .pollBegin => true
  | .pollEnd => true
  | _ => false

end Sys2Proof.Machine
end

