-- ==== Sys2Proof/Safety.lean ====
section
/-! DEFINITION. What holds in every state a run from reset reaches, in the terms the claims use, and what a
safe step is. -/
namespace Sys2Proof.Machine

/-- The register operation `k` of a command, if its rule has one (43_register_access.md R201 to R203;
44_register_mux.md R222 to R228). -/
def commandCall (c : Config) (i : Instr) (k : Slot) : Option OpCall :=
  match i with
  | .clrx => none
  | .rhr a => if k = .r1 then some (rhrCall a .r1) else none
  | .rir a => if k = .r1 then some (rirCall a .r1) else none
  | .whr a v => if k = .r1 then some (whrCall a v .r1) else none
  | .init => some (initCall c k)
  | .getco2 => if k = .r1 then some (rirCall c.regCo2 .r1) else none
  | .getid => none
  | .getfw => none
  | .getabc => none
  | .setabc h => if k = .r1 ∨ k = .r2 then some (setabcCall c h k) else none
  | .bgcal => if k = .r4 then none else some (bgcalCall c k)
  | .reqRir _ _ => none
  | .reqRhr _ _ => none
  | .reqWhr _ _ _ => none
  | .rspRir _ _ _ _ => none
  | .rspRhr _ _ _ _ => none
  | .rspWhr _ _ _ _ _ => none

/-- The register operation `k` of the latched command, `none` being `ILLEGAL`. -/
def callOf (c : Config) (i : Option Instr) (k : Slot) : Option OpCall :=
  match i with
  | none => none
  | some j => commandCall c j k

/-- Whether a command's rule has a `CLEAR()` (42_byte_collector.md R180). -/
def commandClears : Instr → Bool
  | .clrx => true
  | .rhr _ => false
  | .rir _ => false
  | .whr _ _ => false
  | .init => true
  | .getco2 => true
  | .getid => false
  | .getfw => false
  | .getabc => false
  | .setabc _ => true
  | .bgcal => true
  | .reqRir _ _ => false
  | .reqRhr _ _ => false
  | .reqWhr _ _ _ => false
  | .rspRir _ _ _ _ => false
  | .rspRhr _ _ _ _ => false
  | .rspWhr _ _ _ _ _ => false

/-- Whether a command's rule has the sensor wait of SETABC or BGCAL (70_reset_and_hazards.md R295). -/
def commandWaits : Instr → Bool
  | .clrx => false
  | .rhr _ => false
  | .rir _ => false
  | .whr _ _ => false
  | .init => false
  | .getco2 => false
  | .getid => false
  | .getfw => false
  | .getabc => false
  | .setabc _ => true
  | .bgcal => true
  | .reqRir _ _ => false
  | .reqRhr _ _ => false
  | .reqWhr _ _ _ => false
  | .rspRir _ _ _ _ => false
  | .rspRhr _ _ _ _ => false
  | .rspWhr _ _ _ _ _ => false

/-- Whether a command's rule ends in a `complete` of its own after the snapshot (INIT and SETABC,
44_register_mux.md R222, R227). -/
def commandFinishes : Instr → Bool
  | .clrx => false
  | .rhr _ => false
  | .rir _ => false
  | .whr _ _ => false
  | .init => true
  | .getco2 => false
  | .getid => false
  | .getfw => false
  | .getabc => false
  | .setabc _ => true
  | .bgcal => false
  | .reqRir _ _ => false
  | .reqRhr _ _ => false
  | .reqWhr _ _ _ => false
  | .rspRir _ _ _ _ => false
  | .rspRhr _ _ _ _ => false
  | .rspWhr _ _ _ _ _ => false

/-- Whether a position is one of the latched command's rule, `none` being `ILLEGAL` (10_state.md R36). -/
def posInRule (c : Config) (i : Option Instr) : Pos → Bool
  | .start => true
  | .clear _ => i.any commandClears
  | .cleared => i.any commandClears
  | .op k _ => (callOf c i k).isSome
  | .after k => (callOf c i k).isSome
  | .waitBegin => i == some .bgcal
  | .waitEnd => i.any commandWaits
  | .finish => i.any commandFinishes

/-- The positions at which the core calls `RxRead()`. -/
def atRxRead : Pos → Bool
  | .clear .discard => true
  | .op _ .take => true
  | _ => false

/-- The positions of an instruction at which `T0` takes the present time: the start of a collection, and of a wait
outside one (10_state.md R34); `SETABC`'s own wait begins right after its write (44_register_mux.md R227). -/
def samplesT0 (i : Instr) : Pos → Bool
  | .op _ .collect => true
  | .op _ .settleBegin => true
  | .clear .settleBegin => true
  | .waitBegin => true
  | .after .r1 => match i with
    | .setabc _ => true
    | _ => false
  | _ => false

/-- The frames the core may send to `slave`: one of the three functions, and count 0x0001 in a read
(30_encoding.md R118). -/
def IsRequest (slave : Byte) (f : Frame8) : Prop :=
  ∃ a v, f = builtFrame slave .readInput a readCount ∨ f = builtFrame slave .readHolding a readCount ∨
    f = builtFrame slave .writeSingle a v

/-- What `RXCNT` and `EXPLEN` are at a position of a register operation of function `fn` (42_byte_collector.md R172); no
echo comes to the check that 70_reset_and_hazards.md R293 does not let succeed (log entry 24). -/
def CountAt (fn : FnCode) (s : State) : OpPos → Prop
  | .avail => s.explen = fn.rspLen ∧ s.rxcnt < s.explen
  | .take => s.explen = fn.rspLen ∧ s.rxcnt < s.explen
  | .full => s.explen = fn.rspLen ∧ s.rxcnt ≤ s.explen
  | .deadline => s.explen = fn.rspLen ∧ s.rxcnt < s.explen
  | .pollBegin => s.explen = fn.rspLen ∧ s.rxcnt < s.explen
  | .pollEnd => s.explen = fn.rspLen ∧ s.rxcnt < s.explen
  | .check => s.explen = fn.rspLen ∧ s.rxcnt = s.explen ∧ s.echoLate = false
  | _ => True

/-- The flags part: `BUSY` is the sequencer's `EXEC`; `BUSY` and `DONE` exclude each other; `OK` and `ERR`
are 0 while `BUSY`; `OK` implies `ERR` = 0; `LASTOP` is the latched opcode (10_state.md R39). -/
structure FlagsInv (s : State) : Prop where
  busy_exec : s.status.busy = true ↔ s.seq = .exec
  not_both : ¬(s.status.busy = true ∧ s.status.done = true)
  busy_quiet : s.status.busy = true → s.status.ok = false ∧ s.status.err = .none
  ok_noError : s.status.ok = true → s.status.err = .none
  lastop_opc : s.status.lastop = opcField s.cmdl

/-- The sequencer part: `POS` is a position of the latched command's rule, `RxRead()` finds a byte, the
counts fit the collection, and from the end of `BUILD_REQ` to the end of the operation `TXBUF` is the
request of the operation in progress. -/
structure ExecInv (s : State) : Prop where
  pos_rule : posInRule s.cfg (fetchCommand s) s.pos = true
  rx_nonempty : atRxRead s.pos = true → s.rxq ≠ []
  count : ∀ k p c, s.pos = .op k p → callOf s.cfg (fetchCommand s) k = some c → CountAt c.fn s p
  request : ∀ k p c, s.pos = .op k p → p ≠ .build → callOf s.cfg (fetchCommand s) k = some c →
    s.txbuf = builtFrame s.cfg.slaveAddr c.fn c.addr c.value

/-- The invariant of the machine: it holds at reset and every step keeps it. -/
structure StateInv (s : State) : Prop where
  flags : FlagsInv s
  exec : s.seq = .exec → ExecInv s
  rxcnt_le : s.rxcnt ≤ 8
  ret_ok : ∀ k, (s.ret k).ok = true → (s.ret k).err = .none
  fifo_fits : ∀ d, s.cfg.rxFifoDepth = some d → s.rxq.length ≤ d
  sent : ∀ f ∈ s.txlog, IsRequest s.cfg.slaveAddr f

/-- A step that goes on. -/
def GoesOn (r : Result) : Prop := ∃ t, r = .next t

/-- A host access the host may not make, which the model refuses (60_exceptions.md R266): not 32 bits wide,
not at a multiple of 4, or a `CMD` write while `BUSY` = 1. -/
def HostViolation (s : State) : HostAccess → Prop
  | .read off width => width ≠ 4 ∨ off.toNat % 4 ≠ 0
  | .write off width _ => width ≠ 4 ∨ off.toNat % 4 ≠ 0 ∨ (off = 0x00#8 ∧ s.status.busy = true)

end Sys2Proof.Machine
end

