-- ==== Sys2Proof/Certificates/Slice0/Obligations.lean ====
section
/-! DEFINITION. The statements about the model. A next state is written out as the record the rule gives, so
that each says what changes and that nothing else does. -/
open Sys2Proof Sys2Proof.Machine

/-! ## Encodings -/

/-- 30_encoding.md R101, R103, R105, R119 and R111 to R115: command words written out from the spec decode to the
commands they stand for, the illegal ones to their reason, and frames written out byte by byte to their rows. -/
def Obligations.WrittenOutCodesDecode : Prop :=
  decodeCommand 0x01000000#32 = .ok .clrx ∧
  decodeCommand 0x031F0000#32 = .ok (.rhr 0x1F#8) ∧
  decodeCommand 0x04FF0000#32 = .ok (.rir 0xFF#8) ∧
  decodeCommand 0x061F00B4#32 = .ok (.whr 0x1F#8 180#16) ∧
  decodeCommand 0x10000000#32 = .ok .init ∧
  decodeCommand 0x11000000#32 = .ok .getco2 ∧
  decodeCommand 0x12000000#32 = .ok .getid ∧
  decodeCommand 0x13000000#32 = .ok .getfw ∧
  decodeCommand 0x14000000#32 = .ok .getabc ∧
  decodeCommand 0x150000B4#32 = .ok (.setabc 180#16) ∧
  decodeCommand 0x16000000#32 = .ok .bgcal ∧
  decodeCommand 0x00000000#32 = .error .unassignedOpcode ∧
  decodeCommand 0x01010000#32 = .error .reservedField ∧
  decodeCommand 0x03000001#32 = .error .reservedField ∧
  decodeCommand 0x15010000#32 = .error .reservedField ∧
  decodeCommand 0x17000000#32 = .error .unassignedOpcode ∧
  decode .request (.frame [0xFE, 0x04, 0x00, 0x03, 0x00, 0x01, 0xD5, 0xC5]) =
    .ok (.reqRir 0x03#8 0xC5D5#16) ∧
  decode .request (.frame [0xFE, 0x03, 0x00, 0x1F, 0x00, 0x01, 0xA1, 0xC3]) =
    .ok (.reqRhr 0x1F#8 0xC3A1#16) ∧
  decode .request (.frame [0xFE, 0x06, 0x00, 0x01, 0x7C, 0x06, 0x6C, 0xC7]) =
    .ok (.reqWhr 0x01#8 0x7C06#16 0xC76C#16) ∧
  decode (.response .readInput) (.frame [0xFE, 0x04, 0x02, 0x01, 0xF4, 0xAD, 0x33]) =
    .ok (.rspRir 0xFE#8 0x04#8 500#16 0x33AD#16) ∧
  decode (.response .readHolding) (.frame [0xFE, 0x03, 0x02, 0x00, 0xB4, 0xAC, 0x27]) =
    .ok (.rspRhr 0xFE#8 0x03#8 180#16 0x27AC#16) ∧
  decode (.response .writeSingle) (.frame [0xFE, 0x06, 0x00, 0x1F, 0x00, 0xB4, 0xAC, 0x74]) =
    .ok (.rspWhr 0xFE#8 0x06#8 0x1F#8 180#16 0x74AC#16)

/-- Decoding what the encoder writes, in the place where it stands, gives the instruction back, with every
operand at every value (30_encoding.md R101, R102, R111 to R115). -/
def Obligations.EncodeThenDecode : Prop :=
  ∀ i : Instr, decode i.place (encode i) = .ok i

/-- Whatever decodes is what the encoder writes for the decoded instruction: each word and each byte sequence
has one meaning in its place (92_eei_decisions.md D4), and the decoder drops no bit. -/
def Obligations.DecodeThenEncode : Prop :=
  ∀ (p : Place) (c : Code) (i : Instr), decode p c = .ok i → i.place = p ∧ encode i = c

/-- 30_encoding.md R120 for the command rows of opcode_table.json: a word selects a row iff
`w & mask = match`, it then decodes to that row's command with the word's fields, and a word no row selects
is `ILLEGAL`. -/
def Obligations.TableRowsSelectCommands : Prop :=
  ∀ w : Word,
    (w &&& 0xFFFFFFFF#32 = 0x01000000#32 ↔ decodeCommand w = .ok .clrx) ∧
    (w &&& 0xFF00FFFF#32 = 0x03000000#32 ↔ decodeCommand w = .ok (.rhr (addrField w))) ∧
    (w &&& 0xFF00FFFF#32 = 0x04000000#32 ↔ decodeCommand w = .ok (.rir (addrField w))) ∧
    (w &&& 0xFF000000#32 = 0x06000000#32 ↔ decodeCommand w = .ok (.whr (addrField w) (valField w))) ∧
    (w &&& 0xFFFFFFFF#32 = 0x10000000#32 ↔ decodeCommand w = .ok .init) ∧
    (w &&& 0xFFFFFFFF#32 = 0x11000000#32 ↔ decodeCommand w = .ok .getco2) ∧
    (w &&& 0xFFFFFFFF#32 = 0x12000000#32 ↔ decodeCommand w = .ok .getid) ∧
    (w &&& 0xFFFFFFFF#32 = 0x13000000#32 ↔ decodeCommand w = .ok .getfw) ∧
    (w &&& 0xFFFFFFFF#32 = 0x14000000#32 ↔ decodeCommand w = .ok .getabc) ∧
    (w &&& 0xFFFF0000#32 = 0x15000000#32 ↔ decodeCommand w = .ok (.setabc (valField w))) ∧
    (w &&& 0xFFFFFFFF#32 = 0x16000000#32 ↔ decodeCommand w = .ok .bgcal) ∧
    ((∀ r ∈ [(0xFFFFFFFF#32, 0x01000000#32), (0xFF00FFFF#32, 0x03000000#32), (0xFF00FFFF#32, 0x04000000#32),
        (0xFF000000#32, 0x06000000#32), (0xFFFFFFFF#32, 0x10000000#32), (0xFFFFFFFF#32, 0x11000000#32),
        (0xFFFFFFFF#32, 0x12000000#32), (0xFFFFFFFF#32, 0x13000000#32), (0xFFFFFFFF#32, 0x14000000#32),
        (0xFFFF0000#32, 0x15000000#32), (0xFFFFFFFF#32, 0x16000000#32)], w &&& r.1 ≠ r.2) ↔
      ∃ e, decodeCommand w = .error e)

/-! ## The CRC and the frame codec -/

/-- 40_crc.md R140, R141 with the values of 95_test_vectors.md V2. -/
def Obligations.CrcVectors : Prop :=
  crc16 [] 0 = 0xFFFF#16 ∧ crc16 [0x00] 1 = 0x40BF#16 ∧ crc16 [0x01] 1 = 0x807E#16 ∧
  crc16 [0x80] 1 = 0xE0BE#16 ∧ crc16 [0xFF] 1 = 0x00FF#16 ∧ crc16 [0x00, 0x00] 2 = 0xB001#16 ∧
  crc16 [0xFF, 0xFF] 2 = 0x0000#16 ∧ crc16 [0xA0, 0x01] 2 = 0x70B8#16 ∧
  crc16 [0x31, 0x32, 0x33, 0x34, 0x35, 0x36, 0x37, 0x38, 0x39] 9 = 0x4B37#16 ∧
  crc16 [0xFE, 0x04, 0x00, 0x03, 0x00, 0x01] 6 = 0xC5D5#16 ∧
  crc16 [0xFE, 0x04, 0x02, 0x01, 0xF4] 5 = 0x33AD#16 ∧
  crc16 [0xFE, 0x06, 0x00, 0x1F, 0x00, 0xB4] 6 = 0x74AC#16

/-- 40_crc.md R143: the residue over any message and its own CRC, low byte first, is 0. -/
def Obligations.CrcResidueIsZero : Prop :=
  ∀ m : List Byte,
    crc16 (m ++ [loByte (crc16 m m.length), hiByte (crc16 m m.length)]) (m.length + 2) = 0x0000#16

/-- 40_crc.md R144: every single-bit change of the valid read response makes the recomputed CRC differ from
the received one; and in a message of any length a change of one byte, a single-bit change among them,
changes the CRC. -/
def Obligations.SingleBitErrorsDetected : Prop :=
  (∀ i < 7, ∀ j < 8,
    let r : List Byte := [0xFE, 0x04, 0x02, 0x01, 0xF4, 0xAD, 0x33]
    let q := r.set i (r.getD i 0 ^^^ (1#8 <<< j))
    crc16 q 5 ≠ joinBytes (q.getD 6 0) (q.getD 5 0)) ∧
  ∀ (m : List Byte) (i : Nat) (b : Byte), i < m.length → m.getD i 0 ≠ b →
    crc16 (m.set i b) m.length ≠ crc16 m m.length

/-- 41_frame_codec.md R151: the built frame carries the CRC of its first six bytes, low byte first; its
other bytes are those of R150. -/
def Obligations.BuiltFrameCarriesItsCrc : Prop :=
  ∀ (slave : Byte) (fn : FnCode) (a : Byte) (v : Half),
    let t := builtFrame slave fn a v
    (crc16 t.toList 6).toNat = t.b6.toNat + t.b7.toNat * 256 ∧
    t.b0 = slave ∧ t.b1 = fn.code ∧ t.b2 = 0x00#8 ∧ t.b3 = a ∧ t.b4.toNat * 256 + t.b5.toNat = v.toNat

/-- 41_frame_codec.md R152, R155, 30_encoding.md R117: what the read check answers on every seven bytes, the
byte count before the CRC. -/
def Obligations.ReadCheckOutcome : Prop :=
  ∀ r : Frame7,
    (r.b2 ≠ 0x02#8 → checkRead r = ⟨false, .malformed, 0xFFFF#16⟩) ∧
    (r.b2 = 0x02#8 → (crc16 r.toList 5).toNat ≠ r.b5.toNat + r.b6.toNat * 256 →
      checkRead r = ⟨false, .crcMismatch, 0xFFFF#16⟩) ∧
    (r.b2 = 0x02#8 → (crc16 r.toList 5).toNat = r.b5.toNat + r.b6.toNat * 256 →
      (checkRead r).ok = true ∧ (checkRead r).err = .none ∧
      (checkRead r).value.toNat = r.b3.toNat * 256 + r.b4.toNat)

/-- 41_frame_codec.md R153, R155, 30_encoding.md R117: what the write check answers on every eight bytes and
every request, the register and value before the CRC. -/
def Obligations.WriteCheckOutcome : Prop :=
  ∀ (e : Bool) (r t : Frame8),
    let registerDiffers := e = true ∧ (r.b2 ≠ t.b2 ∨ r.b3 ≠ t.b3)
    let valueDiffers := r.b4 ≠ t.b4 ∨ r.b5 ≠ t.b5
    (registerDiffers ∨ valueDiffers →
      (checkWrite e r t).ok = false ∧ (checkWrite e r t).err = .valueMismatch) ∧
    (¬registerDiffers → ¬valueDiffers → (crc16 r.toList 6).toNat ≠ r.b6.toNat + r.b7.toNat * 256 →
      (checkWrite e r t).ok = false ∧ (checkWrite e r t).err = .crcMismatch) ∧
    (¬registerDiffers → ¬valueDiffers → (crc16 r.toList 6).toNat = r.b6.toNat + r.b7.toNat * 256 →
      (checkWrite e r t).ok = true ∧ (checkWrite e r t).err = .none)

/-- 41_frame_codec.md R153: an exact echo of a built request always passes; the echo of another value, with a
valid CRC of its own, never does. -/
def Obligations.OnlyTheRightEchoPasses : Prop :=
  ∀ (e : Bool) (slave a : Byte) (v w : Half),
    (checkWrite e (builtFrame slave .writeSingle a w) (builtFrame slave .writeSingle a v)).ok = true ↔ w = v

/-! ## Registers, reset and the host interface -/

/-- 10_state.md R51: the reset value of every piece of state to which the spec gives one. -/
def Obligations.ResetRegisterValues : Prop :=
  State.reset.seq = .idle ∧ State.reset.cmdl = 0x00000000#32 ∧
  State.reset.status.word = 0x00000000#32 ∧ State.reset.result = 0x00000000#32 ∧
  readReg 0x0C#8 State.reset = 0xFFFFFFFF#32 ∧ readReg 0x10#8 State.reset = 0x0000FFFF#32 ∧
  readReg 0x14#8 State.reset = 0x0000FFFF#32 ∧ State.reset.rxcnt = 0

/-- 70_reset_and_hazards.md R280: the reset input, at any time, puts the core's registers to their reset values
and abandons the command without completion; it does not touch the transport's queue, the log of frames
sent or the clock. (`TXBUF`, `RXBUF` and the other registers the spec gives no value are log entry 1's.) -/
def Obligations.ResetInputEffect : Prop :=
  ∀ (s : State) (l : List Input), s.moves = .reset :: l → ∃ t, step s = .next t ∧
    t.seq = .idle ∧ t.cmdl = 0x00000000#32 ∧ t.status = ⟨false, false, false, .none, 0x00#8⟩ ∧
    t.result = 0x00000000#32 ∧ t.deviceId = 0xFFFFFFFF#32 ∧ t.fwVersion = 0xFFFF#16 ∧
    t.abcPeriod = 0xFFFF#16 ∧ t.rxcnt = 0 ∧ t.rxq = s.rxq ∧ t.txlog = s.txlog ∧ t.now = s.now ∧
    t.cfg = s.cfg ∧ t.inputs = l

/-- 20_memory.md R71, 10_state.md R38 to R45: what a 32-bit host read of each offset returns, in every state;
`FW_VERSION` and `ABC_PERIOD` read 0 in their high halves. -/
def Obligations.HostRegisterMap : Prop :=
  ∀ (s : State) (off : Byte),
    (off = 0x00#8 → readReg off s = 0x00000000#32) ∧
    (off = 0x04#8 → readReg off s = s.status.word) ∧
    (off = 0x08#8 → readReg off s = s.result) ∧
    (off = 0x0C#8 → readReg off s = s.deviceId) ∧
    (off = 0x10#8 → (readReg off s).toNat = s.fwVersion.toNat) ∧
    (off = 0x14#8 → (readReg off s).toNat = s.abcPeriod.toNat) ∧
    (0x18 ≤ off.toNat → readReg off s = 0x00000000#32)

/-- 44_register_mux.md R229: the firmware version's major and minor bytes, as parts of the register and of the word
the host reads. -/
def Obligations.FirmwareMajorAndMinor : Prop :=
  ∀ s : State, s.fwVersion.toNat = (fwMajor s).toNat * 256 + (fwMinor s).toNat ∧
    fwMajor s = (readReg 0x10#8 s).extractLsb' 8 8 ∧ fwMinor s = (readReg 0x10#8 s).extractLsb' 0 8

/-- 10_state.md R39, R40: the word `STATUS` reads as, every field at its place and every reserved bit 0, and the
code of every error kind. -/
def Obligations.StatusWordLayout : Prop :=
  (∀ f : Status, f.word.toNat =
    f.busy.toNat + 2 * f.done.toNat + 4 * f.ok.toNat + 16 * f.err.code.toNat + 256 * f.lastop.toNat) ∧
  ErrKind.none.code.toNat = 0 ∧ ErrKind.timeout.code.toNat = 1 ∧ ErrKind.malformed.code.toNat = 2 ∧
  ErrKind.crcMismatch.code.toNat = 3 ∧ ErrKind.valueMismatch.code.toNat = 4 ∧
  ErrKind.notAcknowledged.code.toNat = 5 ∧ ErrKind.illegalCommand.code.toNat = 6

/-- 20_memory.md R74: a host read has no side effect and is idempotent, a host write to a read-only or reserved
offset has no effect, and the write of `CMD` (while `BUSY` = 0) starts one command. -/
def Obligations.HostAccessEffects : Prop :=
  ∀ (s : State) (l : List Input) (off : Byte) (v : Word), off.toNat % 4 = 0 →
    (s.moves = .host (.read off 4) :: l →
      step s = .next { s with hostData := readReg off s, inputs := l }) ∧
    (s.moves = .host (.read off 4) :: .host (.read off 4) :: l →
      Host.Core.run Sys2Proof.core 2 s = .next { s with hostData := readReg off s, inputs := l }) ∧
    (s.moves = .host (.write off 4 v) :: l → off ≠ 0x00#8 → step s = .next { s with inputs := l }) ∧
    (s.moves = .host (.write off 4 v) :: l → off = 0x00#8 → s.status.busy = false →
      ∃ t, step s = .next t ∧ t.seq = .exec ∧ t.cmdl = v ∧ t.inputs = l)

/-- 10_state.md R36: a `CMD` write while `BUSY` = 0 accepts the command, and changes nothing else. -/
def Obligations.CommandAccepted : Prop :=
  ∀ (s : State) (l : List Input) (w : Word), s.moves = .host (.write 0x00#8 4 w) :: l →
    s.status.busy = false →
    step s = .next { s with
      cmdl := w, status := ⟨true, false, false, .none, opcField w⟩, seq := .exec, pos := .start,
      inputs := l }

/-- 20_memory.md R72, R73, 60_exceptions.md R266: the machine refuses a run exactly where the host breaks a
duty: an access not 32 bits wide, one not at a multiple of 4, a `CMD` write while `BUSY` = 1. -/
def Obligations.RefusedExactlyOnHostViolations : Prop :=
  ∀ s : State, (∃ r, step s = .refused r) ↔
    ∃ a l, s.moves = .host a :: l ∧ HostViolation s a

/-! ## The step -/

/-- A step of the core in `EXEC` runs the instruction that stands at its position: the latched command, at the
transmit position the request in `TXBUF`, at the check position the response in `RXBUF` (10_state.md R36). Where
`TXBUF` holds no request row (another `SLAVE_ADDR` than the table's) and where `RXBUF` holds no response row (a
byte count other than 0x02, a register high byte other than 0x00) it is the latched command there too. That the
frames are read as instructions is the model's choice (log entry 3). -/
def Obligations.StepRunsDecodedInstruction : Prop :=
  ∀ (s : State) (l : List Input), s.moves = .core :: l → s.seq = .exec →
    (∀ i, (∀ k, s.pos ≠ .op k .tx) → (∀ k, s.pos ≠ .op k .check) →
      decode .command (.word s.cmdl) = .ok i → step s = exec i { s with inputs := l }) ∧
    (∀ i k, s.pos = .op k .tx → decode .request (.frame s.txbuf.toList) = .ok i →
      step s = exec i { s with inputs := l }) ∧
    (∀ i k fn, s.pos = .op k .check → s.txbuf.b1 = fn.code →
      decode (.response fn) (.frame (s.rxbuf.toList.take fn.rspLen)) = .ok i →
      step s = exec i { s with inputs := l }) ∧
    (∀ i k, s.pos = .op k .tx → (∀ j, decode .request (.frame s.txbuf.toList) ≠ .ok j) →
      decode .command (.word s.cmdl) = .ok i → step s = exec i { s with inputs := l }) ∧
    (∀ i k, s.pos = .op k .check →
      (∀ fn j, s.txbuf.b1 = fn.code →
        decode (.response fn) (.frame (s.rxbuf.toList.take fn.rspLen)) ≠ .ok j) →
      decode .command (.word s.cmdl) = .ok i → step s = exec i { s with inputs := l })

/-- The frame arms and the command arms are one machine: in a state of the invariant, at the transmit or check
position, the frame that stands there and the latched command have the same micro-step. -/
def Obligations.FrameArmAgreesWithCommandArm : Prop :=
  ∀ (s : State) (i j : Instr), StateInv s → s.seq = .exec → fetchCommand s = some i → fetch s = some j →
    exec j s = exec i s

/-- In `IDLE` the core takes no micro-step (10_state.md R36). That the core's move is the next one where no
agent's move will come is the model's choice (log entry 2). -/
def Obligations.IdleCoreDoesNothing : Prop :=
  ∀ s : State, s.seq = .idle →
    (s.moves = [] → step s = .next s) ∧
    ∀ l, s.moves = .core :: l → step s = .next { s with inputs := l }

/-- 00_scope.md R24, R27, 10_state.md R47: the line's byte and the clock's advance change the receive FIFO and
the time base and no register of the core. -/
def Obligations.LineAndClockMoves : Prop :=
  ∀ (s : State) (l : List Input),
    (∀ ms, s.moves = .tick ms :: l →
      step s = .next { s with now := s.now + BitVec.ofNat 32 ms, inputs := l }) ∧
    (∀ b, s.moves = .rx b :: l → FifoRoom s.cfg (s.rxq.length + 1) →
      step s = .next { s with rxq := s.rxq ++ [b], draws := s.draws + 1, inputs := l }) ∧
    (∀ b, s.moves = .rx b :: l → ∃ q, step s = .next { s with rxq := q, draws := s.draws + 1, inputs := l })

/-! ## The micro-steps of the commands -/

/-- 44_register_mux.md R220 to R228, 43_register_access.md R200 to R203: the register operations of every command, with
the source's addresses; `BGCAL`'s acknowledgment read by either function, as `CAL_ACK_READ_FN` says; and no others:
`CLRX`, `GETID`, `GETFW` and `GETABC` have none, and at a position of an operation its command does not have the
core's micro-step is the fault of log entry 13, which no run reaches. -/
def Obligations.CommandOperations : Prop :=
  (∀ c a, commandCall c (.rir a) .r1 = some ⟨.readInput, a, 0x0001#16, .r1⟩) ∧
  (∀ c a, commandCall c (.rhr a) .r1 = some ⟨.readHolding, a, 0x0001#16, .r1⟩) ∧
  (∀ c a v, commandCall c (.whr a v) .r1 = some ⟨.writeSingle, a, v, .r1⟩) ∧
  commandCall Config.source .getco2 .r1 = some ⟨.readInput, 0x03#8, 0x0001#16, .r1⟩ ∧
  commandCall Config.source .init .r1 = some ⟨.readInput, 0x1D#8, 0x0001#16, .r1⟩ ∧
  commandCall Config.source .init .r2 = some ⟨.readInput, 0x1E#8, 0x0001#16, .r2⟩ ∧
  commandCall Config.source .init .r3 = some ⟨.readInput, 0x1C#8, 0x0001#16, .r3⟩ ∧
  commandCall Config.source .init .r4 = some ⟨.readHolding, 0x1F#8, 0x0001#16, .r4⟩ ∧
  (∀ h, commandCall Config.source (.setabc h) .r1 = some ⟨.writeSingle, 0x1F#8, h, .r1⟩) ∧
  (∀ h, commandCall Config.source (.setabc h) .r2 = some ⟨.readHolding, 0x1F#8, 0x0001#16, .r2⟩) ∧
  commandCall Config.source .bgcal .r1 = some ⟨.writeSingle, 0x00#8, 0x0000#16, .r1⟩ ∧
  commandCall Config.source .bgcal .r2 = some ⟨.writeSingle, 0x01#8, 0x7C06#16, .r2⟩ ∧
  commandCall Config.source .bgcal .r3 = some ⟨.readHolding, 0x00#8, 0x0001#16, .r3⟩ ∧
  (∀ c : Config, commandCall c .bgcal .r3 = some
    ⟨if c.calAckReadFn = 0x03#8 then .readHolding else .readInput, c.regCalAck, 0x0001#16, .r3⟩) ∧
  (∀ c k, commandCall c .clrx k = none ∧ commandCall c .getid k = none ∧ commandCall c .getfw k = none ∧
    commandCall c .getabc k = none) ∧
  (∀ c k a v, k ≠ .r1 → commandCall c (.rir a) k = none ∧ commandCall c (.rhr a) k = none ∧
    commandCall c (.whr a v) k = none ∧ commandCall c .getco2 k = none) ∧
  (∀ c h, commandCall c (.setabc h) .r3 = none ∧ commandCall c (.setabc h) .r4 = none ∧
    commandCall c .bgcal .r4 = none) ∧
  (∀ (i : Instr) (k : Slot) (p : OpPos) (s : State), i.place = .command → commandCall s.cfg i k = none →
    s.pos = .op k p → exec i s = .fault .positionOutsideRule)

/-- 41_frame_codec.md R150, 42_byte_collector.md R170, 00_scope.md R25, 10_state.md R34: the build, settle and
transmit micro-steps of every register operation of `RIR`, `RHR`, `WHR`, `INIT`, `GETCO2`, `SETABC` and `BGCAL`.
`T0` holds the settle wait's sample; the wait ends only once `T_SETTLE` ms have passed; before that the core
does nothing. -/
def Obligations.SendSteps : Prop :=
  ∀ (i : Instr) (k : Slot) (o : OpCall) (s : State), commandCall s.cfg i k = some o →
    (s.pos = .op k .build → exec i s = .next { s with
      txbuf := builtFrame s.cfg.slaveAddr o.fn o.addr o.value,
      acc := crc16 (builtFrame s.cfg.slaveAddr o.fn o.addr o.value).toList 6,
      pos := .op k .settleBegin }) ∧
    (s.pos = .op k .settleBegin → exec i s = .next { s with t0 := s.now, pos := .op k .settleEnd }) ∧
    (s.pos = .op k .settleEnd → s.cfg.tSettle ≤ (s.now - s.t0).toNat →
      exec i s = .next { s with pos := .op k .tx }) ∧
    (s.pos = .op k .settleEnd → (s.now - s.t0).toNat < s.cfg.tSettle → exec i s = .next s) ∧
    (s.pos = .op k .tx → exec i s = .next { s with txlog := s.txlog ++ [s.txbuf], pos := .op k .collect })

/-- 42_byte_collector.md R172, R174: the collector's micro-steps in every register operation. One byte at most
is taken a poll; the completion test comes before the deadline test; the deadline has passed only where
the elapsed time is strictly greater than `T_DEADLINE`; a timeout discards the partial buffer (whose
contents are then some eight bytes the rule does not name) and returns TIMEOUT. The model's own choices in it:
the poll wait's sample in `tw`, apart from `T0` (log entry 4), the updates joined in one micro-step (log
entry 10), the counter of free values that the discard advances (log entry 5), and, of a write echo in
`SLEEP_EVERY_POLL` mode, two rules held apart by a parameter (log entry 24): where the machine follows
70_reset_and_hazards.md R293 a complete echo not all in `RXQ` by the first poll times out, else it succeeds. -/
def Obligations.CollectSteps : Prop :=
  ∀ (i : Instr) (k : Slot) (o : OpCall) (s : State), commandCall s.cfg i k = some o →
    (s.pos = .op k .collect → exec i s = .next { s with
      explen := if o.fn = .writeSingle then 8 else 7, rxcnt := 0, t0 := s.now, firstAvail := none,
      pos := .op k .avail }) ∧
    (s.pos = .op k .avail → s.rxq = [] → exec i s = .next { s with
      took := false, firstAvail := some (s.firstAvail.getD 0), pos := .op k .full }) ∧
    (s.pos = .op k .avail → s.rxq ≠ [] → exec i s = .next { s with
      took := false, firstAvail := some (s.firstAvail.getD s.rxq.length), pos := .op k .take }) ∧
    (∀ b q, s.pos = .op k .take → s.rxq = b :: q → exec i s = .next { s with
      rxbuf := s.rxbuf.set s.rxcnt b, rxcnt := s.rxcnt + 1, took := true, rxq := q,
      pos := .op k .full }) ∧
    (s.pos = .op k .full → s.rxcnt = s.explen → ¬EchoTooLate s → exec i s = .next { s with pos := .op k .check }) ∧
    (s.pos = .op k .full → s.rxcnt = s.explen → EchoTooLate s →
      ∃ f v, (o.fn ≠ .writeSingle → v = 0xFFFF#16) ∧
        exec i s = .next (({ s with
          rxcnt := 0, rxbuf := f, draws := s.draws + 1, pos := .after k } : State).bindRet k ⟨false, .timeout, v⟩)) ∧
    (s.pos = .op k .full → s.rxcnt ≠ s.explen → s.cfg.pollMode = .sleepWhenEmpty → s.took = true →
      exec i s = .next { s with pos := .op k .avail }) ∧
    (s.pos = .op k .full → s.rxcnt ≠ s.explen → (s.cfg.pollMode = .sleepEveryPoll ∨ s.took = false) →
      exec i s = .next { s with pos := .op k .deadline }) ∧
    (s.pos = .op k .deadline → (s.now - s.t0).toNat ≤ s.cfg.tDeadline →
      exec i s = .next { s with pos := .op k .pollBegin }) ∧
    (s.pos = .op k .deadline → s.cfg.tDeadline < (s.now - s.t0).toNat →
      ∃ f v, (o.fn ≠ .writeSingle → v = 0xFFFF#16) ∧
        exec i s = .next (({ s with
          rxcnt := 0, rxbuf := f, draws := s.draws + 1, pos := .after k } : State).bindRet k ⟨false, .timeout, v⟩)) ∧
    (s.pos = .op k .pollBegin → exec i s = .next { s with tw := s.now, pos := .op k .pollEnd }) ∧
    (s.pos = .op k .pollEnd → s.cfg.tPoll ≤ (s.now - s.tw).toNat →
      exec i s = .next { s with pos := .op k .avail }) ∧
    (s.pos = .op k .pollEnd → (s.now - s.tw).toNat < s.cfg.tPoll → exec i s = .next s)

/-- 43_register_access.md R201 to R203, 41_frame_codec.md R152, R153: the check micro-step of every register
operation returns the read check of `RXBUF[0..6]` or the write check of `RXBUF` against `TXBUF`, and
changes nothing but the CRC accumulator. -/
def Obligations.CheckSteps : Prop :=
  ∀ (i : Instr) (k : Slot) (o : OpCall) (s : State), commandCall s.cfg i k = some o →
    s.pos = .op k .check → ∃ a, exec i s = .next (({ s with acc := a, pos := .after k } : State).bindRet k
      (if o.fn = .writeSingle then checkWrite s.cfg.echoCheckRegister s.rxbuf s.txbuf
        else checkRead s.rxbuf.first7))

/-- 42_byte_collector.md R178: the micro-steps of `CLEAR()` in `CLRX`, `GETCO2`, `INIT`, `SETABC` and `BGCAL`.
The model's own choices in it: a restart keeps some part of `RXQ`, in order (log entry 17), and advances the
counter of free values (log entry 5). `T0` holds the settle wait's sample (10_state.md R34). -/
def Obligations.ClearSteps : Prop :=
  ∀ (i : Instr) (s : State), commandClears i = true →
    (s.pos = .clear .test → s.cfg.transportHasRestart = true →
      exec i s = .next { s with pos := .clear .restart }) ∧
    (s.pos = .clear .test → s.cfg.transportHasRestart = false →
      exec i s = .next { s with pos := .clear .avail }) ∧
    (s.pos = .clear .restart → ∃ q, q.Sublist s.rxq ∧
      exec i s = .next { s with rxq := q, draws := s.draws + 1, pos := .clear .settleBegin }) ∧
    (s.pos = .clear .settleBegin → exec i s = .next { s with t0 := s.now, pos := .clear .settleEnd }) ∧
    (s.pos = .clear .settleEnd → s.cfg.tRestartSettle ≤ (s.now - s.t0).toNat →
      exec i s = .next { s with pos := .clear .avail }) ∧
    (s.pos = .clear .settleEnd → (s.now - s.t0).toNat < s.cfg.tRestartSettle → exec i s = .next s) ∧
    (s.pos = .clear .avail → s.rxq = [] → exec i s = .next { s with pos := .cleared }) ∧
    (s.pos = .clear .avail → s.rxq ≠ [] → exec i s = .next { s with pos := .clear .discard }) ∧
    (∀ b q, s.pos = .clear .discard → s.rxq = b :: q →
      exec i s = .next { s with rxq := q, pos := .clear .avail })

/-- 43_register_access.md R200 to R203, 44_register_mux.md R223: the first and the last micro-step of `CLRX`,
`RIR`, `RHR`, `WHR` and `GETCO2`; the last completes with the outcome and the value of the operation. -/
def Obligations.RegisterCommandSteps : Prop :=
  ∀ (s : State) (a : Byte) (v : Half),
    (s.pos = .cleared → exec .clrx s = .next { s with
      result := 0x00000000#32, status := ⟨false, true, true, .none, s.status.lastop⟩, seq := .idle }) ∧
    (s.pos = .after .r1 →
      exec (.rir a) s = .next { s with
        result := s.ret1.value.setWidth 32,
        status := ⟨false, true, s.ret1.ok, s.ret1.err, s.status.lastop⟩, seq := .idle } ∧
      exec (.rhr a) s = .next { s with
        result := s.ret1.value.setWidth 32,
        status := ⟨false, true, s.ret1.ok, s.ret1.err, s.status.lastop⟩, seq := .idle } ∧
      exec .getco2 s = .next { s with
        result := s.ret1.value.setWidth 32,
        status := ⟨false, true, s.ret1.ok, s.ret1.err, s.status.lastop⟩, seq := .idle } ∧
      exec (.whr a v) s = .next { s with
        result := if s.ret1.ok then 1#32 else 0#32,
        status := ⟨false, true, s.ret1.ok, s.ret1.err, s.status.lastop⟩, seq := .idle }) ∧
    (s.pos = .start →
      exec (.rir a) s = .next { s with
        txbuf := builtFrame s.cfg.slaveAddr .readInput a 1#16,
        acc := crc16 (builtFrame s.cfg.slaveAddr .readInput a 1#16).toList 6,
        pos := .op .r1 .settleBegin } ∧
      exec (.rhr a) s = .next { s with
        txbuf := builtFrame s.cfg.slaveAddr .readHolding a 1#16,
        acc := crc16 (builtFrame s.cfg.slaveAddr .readHolding a 1#16).toList 6,
        pos := .op .r1 .settleBegin } ∧
      exec (.whr a v) s = .next { s with
        txbuf := builtFrame s.cfg.slaveAddr .writeSingle a v,
        acc := crc16 (builtFrame s.cfg.slaveAddr .writeSingle a v).toList 6,
        pos := .op .r1 .settleBegin } ∧
      (s.cfg.transportHasRestart = false →
        exec .clrx s = .next { s with pos := .clear .avail } ∧
        exec .getco2 s = .next { s with pos := .clear .avail }) ∧
      (s.cfg.transportHasRestart = true →
        exec .clrx s = .next { s with pos := .clear .restart } ∧
        exec .getco2 s = .next { s with pos := .clear .restart })) ∧
    (s.pos = .cleared → exec .getco2 s = .next { s with
      txbuf := builtFrame s.cfg.slaveAddr .readInput s.cfg.regCo2 1#16,
      acc := crc16 (builtFrame s.cfg.slaveAddr .readInput s.cfg.regCo2 1#16).toList 6,
      pos := .op .r1 .settleBegin })

/-- 44_register_mux.md R224 to R226: the cached getters complete at once with the snapshot register. -/
def Obligations.CachedGetters : Prop :=
  ∀ s : State, s.pos = .start →
    exec .getid s = .next { s with
      result := s.deviceId, status := ⟨false, true, true, .none, s.status.lastop⟩, seq := .idle } ∧
    exec .getfw s = .next { s with
      result := s.fwVersion.setWidth 32, status := ⟨false, true, true, .none, s.status.lastop⟩,
      seq := .idle } ∧
    exec .getabc s = .next { s with
      result := s.abcPeriod.setWidth 32, status := ⟨false, true, true, .none, s.status.lastop⟩,
      seq := .idle }

/-- 44_register_mux.md R222: what `INIT` does outside its register operations: each snapshot register is
written right after its reads, sentinel included, and the outcome is that of all four reads. -/
def Obligations.InitSteps : Prop :=
  ∀ s : State,
    (s.pos = .start → s.cfg.clearBeforeInit = true → exec .init s = .next { s with pos := .clear .test }) ∧
    (s.pos = .start → s.cfg.clearBeforeInit = false →
      exec .init s = .next { s with pos := .op .r1 .build }) ∧
    (s.pos = .cleared → exec .init s = .next { s with
      txbuf := builtFrame s.cfg.slaveAddr .readInput s.cfg.regIdHi 1#16,
      acc := crc16 (builtFrame s.cfg.slaveAddr .readInput s.cfg.regIdHi 1#16).toList 6,
      pos := .op .r1 .settleBegin }) ∧
    (s.pos = .after .r1 → exec .init s = .next { s with
      txbuf := builtFrame s.cfg.slaveAddr .readInput s.cfg.regIdLo 1#16,
      acc := crc16 (builtFrame s.cfg.slaveAddr .readInput s.cfg.regIdLo 1#16).toList 6,
      pos := .op .r2 .settleBegin }) ∧
    (s.pos = .after .r2 → ∃ d : Word, d.toNat = s.ret1.value.toNat * 65536 + s.ret2.value.toNat ∧
      exec .init s = .next { s with deviceId := d, pos := .op .r3 .build }) ∧
    (s.pos = .after .r3 → exec .init s = .next { s with
      fwVersion := s.ret3.value, pos := .op .r4 .build }) ∧
    (s.pos = .after .r4 → exec .init s = .next { s with abcPeriod := s.ret4.value, pos := .finish }) ∧
    (s.pos = .finish → ∃ ok err, exec .init s = .next { s with
        result := 0x00000000#32, status := ⟨false, true, ok, err, s.status.lastop⟩, seq := .idle } ∧
      (ok = true ↔ s.ret1.ok = true ∧ s.ret2.ok = true ∧ s.ret3.ok = true ∧ s.ret4.ok = true) ∧
      (s.ret1.err ≠ .none → err = s.ret1.err) ∧
      (s.ret1.err = .none → s.ret2.err ≠ .none → err = s.ret2.err) ∧
      (s.ret1.err = .none → s.ret2.err = .none → s.ret3.err ≠ .none → err = s.ret3.err) ∧
      (s.ret1.err = .none → s.ret2.err = .none → s.ret3.err = .none → err = s.ret4.err))

/-- 44_register_mux.md R227: what `SETABC hours` does outside its register operations: the wait and the re-read
follow the write whatever its outcome, the re-read value is cached, sentinel included, and the outcome is
the write's failure, else the re-read's, else the comparison's. `T0` holds the wait's sample (10_state.md R34). -/
def Obligations.SetabcSteps : Prop :=
  ∀ (s : State) (h : Half),
    (s.pos = .start → s.cfg.clearBeforeSetabc = true →
      exec (.setabc h) s = .next { s with pos := .clear .test }) ∧
    (s.pos = .start → s.cfg.clearBeforeSetabc = false →
      exec (.setabc h) s = .next { s with pos := .op .r1 .build }) ∧
    (s.pos = .cleared → exec (.setabc h) s = .next { s with
      txbuf := builtFrame s.cfg.slaveAddr .writeSingle s.cfg.regAbc h,
      acc := crc16 (builtFrame s.cfg.slaveAddr .writeSingle s.cfg.regAbc h).toList 6,
      pos := .op .r1 .settleBegin }) ∧
    (s.pos = .after .r1 → exec (.setabc h) s = .next { s with t0 := s.now, pos := .waitEnd }) ∧
    (s.pos = .waitEnd → s.cfg.tAbcApply ≤ (s.now - s.t0).toNat →
      exec (.setabc h) s = .next { s with pos := .op .r2 .build }) ∧
    (s.pos = .waitEnd → (s.now - s.t0).toNat < s.cfg.tAbcApply → exec (.setabc h) s = .next s) ∧
    (s.pos = .after .r2 → exec (.setabc h) s = .next { s with
      abcPeriod := s.ret2.value, pos := .finish }) ∧
    (s.pos = .finish → ∃ ok err, exec (.setabc h) s = .next { s with
        result := s.ret2.value.setWidth 32, status := ⟨false, true, ok, err, s.status.lastop⟩,
        seq := .idle } ∧
      (s.ret1.ok = false → ok = false ∧ err = s.ret1.err) ∧
      (s.ret1.ok = true → s.ret2.ok = false → ok = false ∧ err = s.ret2.err) ∧
      (s.ret1.ok = true → s.ret2.ok = true → s.ret2.value ≠ h → ok = false ∧ err = .valueMismatch) ∧
      (s.ret1.ok = true → s.ret2.ok = true → s.ret2.value = h → ok = true ∧ err = .none))

/-- 44_register_mux.md R228: what `BGCAL` does outside its register operations: a failed write completes at once,
so no later frame is sent; the acknowledgment is read after the wait; the sentinel test comes before the bit
test. `T0` holds the wait's sample (10_state.md R34). -/
def Obligations.BgcalSteps : Prop :=
  ∀ s : State,
    (s.pos = .start → s.cfg.transportHasRestart = false →
      exec .bgcal s = .next { s with pos := .clear .avail }) ∧
    (s.pos = .start → s.cfg.transportHasRestart = true →
      exec .bgcal s = .next { s with pos := .clear .restart }) ∧
    (s.pos = .cleared → exec .bgcal s = .next { s with
      txbuf := builtFrame s.cfg.slaveAddr .writeSingle s.cfg.regCalAck 0#16,
      acc := crc16 (builtFrame s.cfg.slaveAddr .writeSingle s.cfg.regCalAck 0#16).toList 6,
      pos := .op .r1 .settleBegin }) ∧
    (s.pos = .after .r1 → s.ret1.ok = false → exec .bgcal s = .next { s with
      result := 0x00000000#32, status := ⟨false, true, false, s.ret1.err, s.status.lastop⟩,
      seq := .idle }) ∧
    (s.pos = .after .r1 → s.ret1.ok = true → exec .bgcal s = .next { s with pos := .op .r2 .build }) ∧
    (s.pos = .after .r2 → s.ret2.ok = false → exec .bgcal s = .next { s with
      result := 0x00000000#32, status := ⟨false, true, false, s.ret2.err, s.status.lastop⟩,
      seq := .idle }) ∧
    (s.pos = .after .r2 → s.ret2.ok = true → exec .bgcal s = .next { s with pos := .waitBegin }) ∧
    (s.pos = .waitBegin → exec .bgcal s = .next { s with t0 := s.now, pos := .waitEnd }) ∧
    (s.pos = .waitEnd → s.cfg.tCalWait ≤ (s.now - s.t0).toNat →
      exec .bgcal s = .next { s with pos := .op .r3 .build }) ∧
    (s.pos = .waitEnd → (s.now - s.t0).toNat < s.cfg.tCalWait → exec .bgcal s = .next s) ∧
    (s.pos = .after .r3 → ∃ ok err, exec .bgcal s = .next { s with
        result := if ok then 1#32 else 0#32, status := ⟨false, true, ok, err, s.status.lastop⟩,
        seq := .idle } ∧
      (s.ret3.value = 0xFFFF#16 → s.ret3.ok = false → ok = false ∧ err = s.ret3.err) ∧
      (s.ret3.value = 0xFFFF#16 → s.ret3.ok = true → ok = false ∧ err = .notAcknowledged) ∧
      (s.ret3.value ≠ 0xFFFF#16 → s.ret3.value &&& s.cfg.calAckMask ≠ 0 → ok = true ∧ err = .none) ∧
      (s.ret3.value ≠ 0xFFFF#16 → s.ret3.value &&& s.cfg.calAckMask = 0 →
        ok = false ∧ err = .notAcknowledged))

/-- 60_exceptions.md R256, 30_encoding.md R105: a word that decodes to `ILLEGAL` completes in its first
micro-step with ILLEGAL_COMMAND; nothing is sent and nothing but `STATUS` and the sequencer changes. -/
def Obligations.IllegalCommandCompletes : Prop :=
  ∀ (s : State) (l : List Input) (e : DecodeError), s.moves = .core :: l → s.seq = .exec →
    s.pos = .start → decodeCommand s.cmdl = .error e →
    step s = .next { s with
      status := ⟨false, true, false, .illegalCommand, s.status.lastop⟩, seq := .idle, inputs := l }

/-- 30_encoding.md R110 to R113, 42_byte_collector.md R170: a request frame at the transmit position is handed to
the transport whole, byte 0 first, and nothing else changes but the position. -/
def Obligations.RequestFramesAreSent : Prop :=
  ∀ (s : State) (k : Slot) (a : Byte) (v crc : Half), s.pos = .op k .tx →
    exec (.reqRir a crc) s = .next { s with
      txlog := s.txlog ++ [⟨0xFE#8, 0x04#8, 0x00#8, a, 0x00#8, 0x01#8, loByte crc, hiByte crc⟩],
      pos := .op k .collect } ∧
    exec (.reqRhr a crc) s = .next { s with
      txlog := s.txlog ++ [⟨0xFE#8, 0x03#8, 0x00#8, a, 0x00#8, 0x01#8, loByte crc, hiByte crc⟩],
      pos := .op k .collect } ∧
    exec (.reqWhr a v crc) s = .next { s with
      txlog := s.txlog ++ [⟨0xFE#8, 0x06#8, 0x00#8, a, hiByte v, loByte v, loByte crc, hiByte crc⟩],
      pos := .op k .collect }

/-- 30_encoding.md R114, 41_frame_codec.md R152, R154: a read response at the check position returns its value
where its CRC is right and the sentinel with CRC_MISMATCH where it is wrong, whatever its slave and
function bytes; `RIR` and `RHR` responses are checked alike. -/
def Obligations.ReadResponsesAreChecked : Prop :=
  ∀ (s : State) (k : Slot) (slave fn : Byte) (v crc : Half), s.pos = .op k .check →
    ∃ r : Ret, (crc = crc16 [slave, fn, 0x02#8, hiByte v, loByte v] 5 → r = ⟨true, .none, v⟩) ∧
      (crc ≠ crc16 [slave, fn, 0x02#8, hiByte v, loByte v] 5 → r = ⟨false, .crcMismatch, 0xFFFF#16⟩) ∧
      exec (.rspRir slave fn v crc) s = .next (({ s with
        acc := crc16 [slave, fn, 0x02#8, hiByte v, loByte v] 5, pos := .after k } : State).bindRet k r) ∧
      exec (.rspRhr slave fn v crc) s = .next (({ s with
        acc := crc16 [slave, fn, 0x02#8, hiByte v, loByte v] 5, pos := .after k } : State).bindRet k r)

/-- 30_encoding.md R115, 41_frame_codec.md R153, R154: a write response at the check position, to the request
of register `ta` and value `tv`, succeeds exactly where register (if compared), value and CRC are right,
whatever its slave and function bytes. -/
def Obligations.WriteResponsesAreChecked : Prop :=
  ∀ (s : State) (k : Slot) (slave fn a ta : Byte) (v tv crc : Half), s.pos = .op k .check →
    s.txbuf = builtFrame s.cfg.slaveAddr .writeSingle ta tv →
    ∃ (r : Ret) (c : Half), exec (.rspWhr slave fn a v crc) s =
        .next (({ s with acc := c, pos := .after k } : State).bindRet k r) ∧
      ((s.cfg.echoCheckRegister = true ∧ a ≠ ta ∨ v ≠ tv) → r.ok = false ∧ r.err = .valueMismatch) ∧
      (¬(s.cfg.echoCheckRegister = true ∧ a ≠ ta) → v = tv →
        crc ≠ crc16 [slave, fn, 0x00#8, a, hiByte v, loByte v] 6 → r.ok = false ∧ r.err = .crcMismatch) ∧
      (¬(s.cfg.echoCheckRegister = true ∧ a ≠ ta) → v = tv →
        crc = crc16 [slave, fn, 0x00#8, a, hiByte v, loByte v] 6 → r.ok = true ∧ r.err = .none)

/-- Every command goes on at every position of its rule (10_state.md R36, 60_exceptions.md R250): its arm
answers a next state, for every state in which a byte is there where the core takes one. -/
def Obligations.CommandsGoOnAtEveryPosition : Prop :=
  ∀ (i : Instr) (s : State), i.place = .command →
    (s.pos = .start ∨ (∃ p, s.pos = .clear p ∧ commandClears i = true) ∨
      (s.pos = .cleared ∧ commandClears i = true) ∨
      (∃ k p, s.pos = .op k p ∧ (commandCall s.cfg i k).isSome = true) ∨
      (∃ k, s.pos = .after k ∧ (commandCall s.cfg i k).isSome = true) ∨
      (s.pos = .waitBegin ∧ i = .bgcal) ∨ (s.pos = .waitEnd ∧ commandWaits i = true) ∨
      (s.pos = .finish ∧ commandFinishes i = true)) →
    (atRxRead s.pos = true → s.rxq ≠ []) →
    ∃ t, exec i s = .next t

/-! ## What no instruction touches -/

/-- The frame of every instruction, command or wire frame, at every position and in every state: the
parameters, the command latch, the clock, the host's data and the agents' moves to come never change; `RESULT` and
`STATUS` change only at completion and `LASTOP` never; `DEVICE_ID` and `FW_VERSION` change only in `INIT`
and `ABC_PERIOD` only in `INIT` and `SETABC`, each right after its read; `TXBUF` changes only to the request
of an operation of the command; `TXLOG` only at `Tx`, by the request in `TXBUF` or the request frame itself;
`RXBUF` and `RXCNT` only in the collector; `RXQ` only where a byte is taken or discarded or the transport is
restarted; `ACC` only where a CRC is computed; `EXPLEN` only at the start of a collection; `T0` only at the start
of a collection or of a wait outside one, to the present time; a bound tuple only where its operation ends
(10_state.md R31 to R37, R41 to R44, R47 to R49). The model's own choices in it: the poll wait's sample goes to
`tw`, apart from `T0` (log entry 4), a restart leaves a part of `RXQ` in order (log entry 17), and the answer of a
collection's first `RxAvail()` is kept for 70_reset_and_hazards.md R293 (log entry 24). -/
def Obligations.InstructionFrame : Prop :=
  ∀ (i : Instr) (s t : State), exec i s = .next t →
    t.cfg = s.cfg ∧ t.cmdl = s.cmdl ∧ t.now = s.now ∧ t.hostData = s.hostData ∧ t.inputs = s.inputs ∧
    t.repeating = s.repeating ∧
    t.status.lastop = s.status.lastop ∧
    ((t.seq = s.seq ∧ t.status = s.status ∧ t.result = s.result) ∨
      (t.seq = .idle ∧ t.status.busy = false ∧ t.status.done = true)) ∧
    (t.deviceId = s.deviceId ∨ (i = .init ∧ s.pos = .after .r2)) ∧
    (t.fwVersion = s.fwVersion ∨ (i = .init ∧ s.pos = .after .r3)) ∧
    (t.abcPeriod = s.abcPeriod ∨ (i = .init ∧ s.pos = .after .r4) ∨
      ((∃ h, i = .setabc h) ∧ s.pos = .after .r2)) ∧
    (t.txbuf = s.txbuf ∨ ∃ k o, commandCall s.cfg i k = some o ∧
      t.txbuf = builtFrame s.cfg.slaveAddr o.fn o.addr o.value ∧ t.pos = .op k .settleBegin) ∧
    (t.txlog = s.txlog ∨ ∃ k f, s.pos = .op k .tx ∧ t.txlog = s.txlog ++ [f] ∧
      (f = s.txbuf ∨ encode i = .frame f.toList)) ∧
    ((t.rxbuf = s.rxbuf ∧ t.rxcnt = s.rxcnt) ∨
      ∃ k, s.pos = .op k .collect ∨ s.pos = .op k .take ∨ s.pos = .op k .deadline ∨
        (s.pos = .op k .full ∧ EchoTooLate s)) ∧
    (t.rxq = s.rxq ∨ (∃ b, s.rxq = b :: t.rxq ∧ atRxRead s.pos = true) ∨
      (s.pos = .clear .restart ∧ t.rxq.Sublist s.rxq)) ∧
    (t.acc = s.acc ∨ ∃ k, t.pos = .op k .settleBegin ∨ s.pos = .op k .check) ∧
    (t.explen = s.explen ∨ ∃ k, s.pos = .op k .collect) ∧
    (t.t0 = s.t0 ∨ (t.t0 = s.now ∧ samplesT0 i s.pos = true)) ∧
    (t.tw = s.tw ∨ (t.tw = s.now ∧ ∃ k, s.pos = .op k .pollBegin)) ∧
    (t.took = s.took ∨ ∃ k, s.pos = .op k .avail ∨ s.pos = .op k .take) ∧
    (t.firstAvail = s.firstAvail ∨ ∃ k, s.pos = .op k .collect ∨ s.pos = .op k .avail) ∧
    (∀ j, t.ret j = s.ret j ∨ s.pos = .op j .check ∨ s.pos = .op j .deadline ∨
      (s.pos = .op j .full ∧ EchoTooLate s))

/-- 10_state.md R44: no step but `INIT`'s, `SETABC`'s and reset changes a snapshot register. -/
def Obligations.SnapshotWriters : Prop :=
  ∀ s t : State, step s = .next t →
    (t.deviceId = s.deviceId ∧ t.fwVersion = s.fwVersion ∧ t.abcPeriod = s.abcPeriod) ∨
    (∃ l, s.moves = .reset :: l) ∨
    (s.seq = .exec ∧ fetchCommand s = some .init) ∨
    (s.seq = .exec ∧ (∃ h, fetchCommand s = some (.setabc h)) ∧
      t.deviceId = s.deviceId ∧ t.fwVersion = s.fwVersion)

/-- 10_state.md R46: `STATUS` changes only at acceptance, completion and reset, and no move but the host's reads
it. With any other `STATUS` the step answers the same next state but for `STATUS`, which it either leaves as it
was in both runs, or sets to the same `BUSY`, `DONE`, `OK` and `ERR` in both (keeping `LASTOP`, or setting all
of it): no command's behaviour or outcome depends on an earlier outcome. -/
def Obligations.FlagsAreWrittenOnlyAndReadByTheHost : Prop :=
  (∀ s t : State, step s = .next t →
    t.status = s.status ∨
    (∃ w l, s.moves = .host (.write 0x00#8 4 w) :: l ∧ t.status = ⟨true, false, false, .none, opcField w⟩) ∨
    (s.seq = .exec ∧ t.seq = .idle ∧ t.status.busy = false ∧ t.status.done = true ∧
      t.status.lastop = s.status.lastop) ∨
    (∃ l, s.moves = .reset :: l ∧ t.status = ⟨false, false, false, .none, 0x00#8⟩)) ∧
  (∀ (s t : State) (f : Status), (∀ a l, s.moves ≠ .host a :: l) → step s = .next t →
    ∃ g, step { s with status := f } = .next { t with status := g } ∧
      ((t.status = s.status ∧ g = f) ∨
        (g = { t.status with lastop := f.lastop } ∧ t.status.lastop = s.status.lastop) ∨ g = t.status))

/-- 20_memory.md R84, 00_scope.md R12: the latched command does not change until the command completes (or reset
abandons it). -/
def Obligations.CommandStaysLatched : Prop :=
  ∀ s t : State, s.status.busy = true → step s = .next t →
    t.cmdl = s.cmdl ∨ ∃ l, s.moves = .reset :: l

/-- 20_memory.md R80, 60_exceptions.md R258: a frame sent stays sent, frames are sent one at a time, and only the
core at a transmit position sends one. -/
def Obligations.FramesSentStaySent : Prop :=
  ∀ s t : State, step s = .next t →
    t.txlog = s.txlog ∨
    ∃ f k, t.txlog = s.txlog ++ [f] ∧ s.seq = .exec ∧ s.pos = .op k .tx

/-- 42_byte_collector.md R170, 70_reset_and_hazards.md R290: the core comes to a transmit position only from the
end of a settle wait that has lasted at least `T_SETTLE`. -/
def Obligations.SettleWaitBeforeEveryFrame : Prop :=
  ∀ (s t : State) (k : Slot), step s = .next t → t.pos = .op k .tx → s.pos ≠ .op k .tx →
    s.pos = .op k .settleEnd ∧ s.cfg.tSettle ≤ (s.now - s.t0).toNat ∧ t.cfg = s.cfg

/-- 42_byte_collector.md R173: the collector counts bytes. In every micro-step of its loop that does not time out
the bytes taken so far, followed by those still in `RXQ`, are the same bytes in the same order. -/
def Obligations.CollectorTakesBytesInOrder : Prop :=
  ∀ (i : Instr) (k : Slot) (p : OpPos) (o : OpCall) (s t : State), commandCall s.cfg i k = some o →
    s.pos = .op k p → p ≠ .collect → (p = .deadline → (s.now - s.t0).toNat ≤ s.cfg.tDeadline) →
    (p = .full → s.rxcnt = s.explen → ¬EchoTooLate s) →
    s.rxcnt < 8 ∨ p ≠ .take → exec i s = .next t →
    t.rxbuf.toList.take t.rxcnt ++ t.rxq = s.rxbuf.toList.take s.rxcnt ++ s.rxq

/-! ## The whole machine -/

/-- The invariant holds at reset. -/
def Obligations.InvAtReset : Prop := StateInv State.reset

/-- Every step keeps the invariant: `BUSY` and the sequencer agree, `BUSY` and `DONE` never hold together,
`OK` = 1 implies `ERR` = 0, `LASTOP` is the latched opcode, `POS` is a position of the latched command's
rule, no echo that 70_reset_and_hazards.md R293 keeps from succeeding comes to the check, `RXCNT` never exceeds 8, `RXQ` never exceeds the FIFO's depth, `RxRead` finds a byte, and `TXBUF` is
the request in progress (10_state.md R31, R32, R36, R39, R47; 00_scope.md R16). -/
def Obligations.StepKeepsInv : Prop :=
  ∀ s t : State, StateInv s → step s = .next t → StateInv t

/-- 60_exceptions.md R266: "no core fault exists". In a state of the invariant no step faults, and a step that
is not refused goes on. -/
def Obligations.NoCoreFault : Prop :=
  ∀ s : State, StateInv s → (∃ t, step s = .next t) ∨
    ∃ r a l, step s = .refused r ∧ s.moves = .host a :: l ∧ HostViolation s a

/-- 30_encoding.md R118: from a state of the invariant, however long it runs and whatever the line, the clock and
the host do, every frame the machine has sent is a request of function 0x03, 0x04 or 0x06 with the slave
address (0xFE, the value of the parameter `SLAVE_ADDR`, 93_implementation_defined.md I2), register high byte
0x00, count 0x0001 in a read, and a right CRC. -/
def Obligations.OnlyRequestsAreEverSent : Prop :=
  Config.source.slaveAddr = 0xFE#8 ∧
  ∀ (n : Nat) (s t : State), StateInv s → Host.Core.run Sys2Proof.core n s = .next t → ∀ f ∈ t.txlog,
    f.b0 = s.cfg.slaveAddr ∧ f.b2 = 0x00#8 ∧ (f.b1 = 0x03#8 ∨ f.b1 = 0x04#8 ∨ f.b1 = 0x06#8) ∧
    (f.b1 ≠ 0x06#8 → f.b4 = 0x00#8 ∧ f.b5 = 0x01#8) ∧ crc16 f.toList 6 = joinBytes f.b7 f.b6

/-! ## Runs -/

/-- 42_byte_collector.md R178: while the line is silent `CLEAR` drains any number of bytes and returns with `RXQ`
empty, having changed nothing else. -/
def Obligations.ClearDrainsQuietLine : Prop :=
  ∀ (i : Instr) (s : State), s.seq = .exec → fetchCommand s = some i → commandClears i = true →
    s.pos = .clear .avail → s.moves = [] →
    Host.Core.run Sys2Proof.core (2 * s.rxq.length + 1) s = .next { s with rxq := [], pos := .cleared }

/-- 42_byte_collector.md R179: the drain loop has no bound, and the run is kept. First, for any moves of line, clock
and host: as long as the line keeps up (a byte is in `RXQ` at every `RxAvail()`, and no reset comes) the core is
still in the drain loop, after however many steps, with the command not complete. Then for schedules alone: after
any number of iterations in each of which the line appends a byte before `RxAvail()`, with whatever other bytes,
time and host accesses there are, the core is back at `RxAvail()`; and where such iterations repeat for ever (the
moves `repeating`), it is in the loop after every number of steps. (A FIFO that can hold no byte at all keeps no
byte of such a line.) That this endless schedule is a round of moves that repeats is the model's choice (log entry
2). -/
def Obligations.ClearHangsUnderEndlessBytes : Prop :=
  ∀ (i : Instr) (s : State), s.seq = .exec → fetchCommand s = some i → commandClears i = true →
    s.pos = .clear .avail →
    (∀ n, (∀ m < n, ∀ t, Host.Core.run Sys2Proof.core m s = .next t → LineKeepsUp t) →
      ∃ t, Host.Core.run Sys2Proof.core n s = .next t ∧ (t.pos = .clear .avail ∨ t.pos = .clear .discard) ∧
        t.seq = .exec ∧ t.status = s.status ∧ t.result = s.result ∧ t.txlog = s.txlog) ∧
    ∀ rs : List DrainRound, (∀ r ∈ rs, r.Feeds) → FifoRoom s.cfg 1 →
      (s.moves = drainRounds rs →
        ∃ t, Host.Core.run Sys2Proof.core s.moves.length s = .next t ∧ t.pos = .clear .avail ∧ t.seq = .exec ∧
          t.status = s.status ∧ t.result = s.result ∧ t.txlog = s.txlog ∧ t.inputs = []) ∧
      (s.inputs = [] → rs ≠ [] → s.repeating = drainRounds rs →
        ∀ n, ∃ t, Host.Core.run Sys2Proof.core n s = .next t ∧
          (t.pos = .clear .avail ∨ t.pos = .clear .discard) ∧ t.seq = .exec ∧ t.status = s.status ∧
          t.result = s.result ∧ t.txlog = s.txlog)

/-- 00_scope.md R27, 42_byte_collector.md R177: under a fair clock every wait and every collection ends. A schedule
that comes to a free one (turns of freely drawn moves, log entry 2), whatever moves come first, is clock-fair, and the
core moves in it again and again. And where a state's endless schedule is fair, with any bytes at any time from the
line (`FairSchedule`: that the core goes on moving and is not held up so long that the 32-bit time base comes round is
the model's reading of R24 and R27, log entry 20), the core leaves every wait it is in, with nothing sent, and comes
out of every collection with all its bytes, at the check, or with TIMEOUT, after the operation. -/
def Obligations.WaitsAndCollectionsEnd : Prop :=
  (∀ (s : State) (l r : List Input) (n : Nat), s.entries = l ++ .free n :: r → (∀ e ∈ l, e.isMove = true) →
    ClockFair s ∧ ∀ k, ∃ m, ((s.dropMoves k).dropMoves m).nextMove = .core) ∧
  ∀ (gap : Nat) (s : State), StateInv s → s.seq = .exec → FairSchedule gap s → NoWrap s.cfg gap →
    (inWait s.pos = true → ∃ n t, Host.Core.run Sys2Proof.core n s = .next t ∧ t.pos ≠ s.pos ∧ t.seq = .exec ∧
      t.cmdl = s.cmdl ∧ t.txlog = s.txlog) ∧
    (∀ k p, s.pos = .op k p → inCollectLoop p = true → ∃ n t, Host.Core.run Sys2Proof.core n s = .next t ∧
      ((t.pos = .op k .check ∧ t.rxcnt = t.explen) ∨
        (t.pos = .after k ∧ (t.ret k).ok = false ∧ (t.ret k).err = .timeout)))

/-- 43_register_access.md R200, 70_reset_and_hazards.md R300: `CLRX` on a silent line without a restart completes
in 0 ms with `RXQ` empty, whatever it held. -/
def Obligations.ClrxRun : Prop :=
  ∀ s : State, s.status.busy = false → s.cfg.transportHasRestart = false →
    s.moves = .host (.write 0x00#8 4 0x01000000#32) :: cores (2 * s.rxq.length + 3) →
    ∃ t, Host.Core.run Sys2Proof.core (2 * s.rxq.length + 4) s = .next t ∧
      t.status.word = 0x00000106#32 ∧ t.result = 0x00000000#32 ∧ t.rxq = [] ∧ t.txlog = s.txlog ∧
      t.now = s.now ∧ t.seq = .idle

/-- 43_register_access.md R201, R202, 70_reset_and_hazards.md R300: a register read under the ideal schedule whose
reply is valid, with any slave and function bytes, sends its one request and ends with the reply's value and
`OK` = 1, after 95 ms (`SLEEP_EVERY_POLL`) or 5 ms (`SLEEP_WHEN_EMPTY`). -/
def Obligations.IdealRegisterRead : Prop :=
  ∀ (s : State) (a slave fn : Byte) (v : Half) (holding : Bool), SourceTimes s.cfg → FifoRoom s.cfg 7 →
    s.rxq = [] → s.status.busy = false →
    s.moves = .host (.write 0x00#8 4 (commandWord (if holding then 0x03#8 else 0x04#8) a 0)) ::
      (opMoves s.cfg (readReply slave fn v) ++ cores 1) →
    ∃ t, Host.Core.run Sys2Proof.core s.moves.length s = .next t ∧
      t.result = v.setWidth 32 ∧
      t.status = ⟨false, true, true, .none, if holding then 0x03#8 else 0x04#8⟩ ∧ t.seq = .idle ∧
      t.txlog = s.txlog ++ [builtFrame s.cfg.slaveAddr (if holding then .readHolding else .readInput) a 0x0001#16] ∧
      t.rxq = [] ∧ t.now = s.now + BitVec.ofNat 32 (modeTime s.cfg 95 5) ∧
      t.deviceId = s.deviceId ∧ t.fwVersion = s.fwVersion ∧ t.abcPeriod = s.abcPeriod

/-- 43_register_access.md R203, 70_reset_and_hazards.md R300: a register write under the ideal schedule whose reply
is the exact echo ends with `RESULT` = 1, after 110 or 5 ms. -/
def Obligations.IdealRegisterWrite : Prop :=
  ∀ (s : State) (a : Byte) (v : Half), SourceTimes s.cfg → FifoRoom s.cfg 8 → s.rxq = [] →
    s.status.busy = false →
    s.moves = .host (.write 0x00#8 4 (commandWord 0x06#8 a v)) ::
      (opMoves s.cfg (echoReply s.cfg.slaveAddr a v) ++ cores 1) →
    ∃ t, Host.Core.run Sys2Proof.core s.moves.length s = .next t ∧
      t.result = 1#32 ∧ t.status = ⟨false, true, true, .none, 0x06#8⟩ ∧ t.seq = .idle ∧
      t.txlog = s.txlog ++ [builtFrame s.cfg.slaveAddr .writeSingle a v] ∧ t.rxq = [] ∧
      t.now = s.now + BitVec.ofNat 32 (modeTime s.cfg 110 5)

/-- 42_byte_collector.md R172, R176, 70_reset_and_hazards.md R300: a register read, of an input or a holding
register, on a silent line ends in either poll mode with TIMEOUT and the sentinel, after 110 ms. -/
def Obligations.SilentReadTimesOut : Prop :=
  ∀ (s : State) (a : Byte) (holding : Bool), SourceTimes s.cfg → s.rxq = [] → s.status.busy = false →
    s.moves = .host (.write 0x00#8 4 (commandWord (if holding then 0x03#8 else 0x04#8) a 0)) ::
      (silentMoves s.cfg ++ cores 1) →
    ∃ t, Host.Core.run Sys2Proof.core s.moves.length s = .next t ∧
      t.result = 0x0000FFFF#32 ∧
      t.status.word = (if holding then 0x00000312#32 else 0x00000412#32) ∧ t.seq = .idle ∧ t.rxcnt = 0 ∧
      t.txlog = s.txlog ++
        [builtFrame s.cfg.slaveAddr (if holding then .readHolding else .readInput) a 0x0001#16] ∧
      t.now = s.now + 110#32

/-- 44_register_mux.md R223, 70_reset_and_hazards.md R300: `GETCO2` under the ideal schedule gives the register's
value, unsigned, 0xFFFF among the values, with `OK` = 1, and leaves the snapshot alone. -/
def Obligations.IdealGetco2 : Prop :=
  ∀ (s : State) (slave fn : Byte) (v : Half), SourceTimes s.cfg → FifoRoom s.cfg 7 → s.rxq = [] →
    s.status.busy = false → s.cfg.transportHasRestart = false →
    s.moves = .host (.write 0x00#8 4 0x11000000#32) ::
      (clearMoves ++ opMoves s.cfg (readReply slave fn v) ++ cores 1) →
    ∃ t, Host.Core.run Sys2Proof.core s.moves.length s = .next t ∧
      t.result.toNat = v.toNat ∧ t.status = ⟨false, true, true, .none, 0x11#8⟩ ∧ t.seq = .idle ∧
      t.txlog = s.txlog ++ [builtFrame s.cfg.slaveAddr .readInput s.cfg.regCo2 0x0001#16] ∧
      t.now = s.now + BitVec.ofNat 32 (modeTime s.cfg 95 5) ∧
      t.deviceId = s.deviceId ∧ t.fwVersion = s.fwVersion ∧ t.abcPeriod = s.abcPeriod

/-- 44_register_mux.md R222, 70_reset_and_hazards.md R300: `INIT` under the ideal schedule reads the four named
registers in order and captures the snapshot, after 380 or 20 ms. -/
def Obligations.IdealInit : Prop :=
  ∀ (s : State) (hi lo fw abc : Half), SourceTimes s.cfg → FifoRoom s.cfg 7 → s.rxq = [] →
    s.status.busy = false → s.cfg.transportHasRestart = false → s.cfg.clearBeforeInit = true →
    s.moves = .host (.write 0x00#8 4 0x10000000#32) ::
      (cores 1 ++ clearMoves ++ opMoves s.cfg (readReply 0xFE#8 0x04#8 hi) ++
        opMoves s.cfg (readReply 0xFE#8 0x04#8 lo) ++ cores 1 ++
        opMoves s.cfg (readReply 0xFE#8 0x04#8 fw) ++ cores 1 ++
        opMoves s.cfg (readReply 0xFE#8 0x03#8 abc) ++ cores 2) →
    ∃ t, Host.Core.run Sys2Proof.core s.moves.length s = .next t ∧
      t.deviceId.toNat = hi.toNat * 65536 + lo.toNat ∧ t.fwVersion = fw ∧ t.abcPeriod = abc ∧
      t.result = 0x00000000#32 ∧ t.status = ⟨false, true, true, .none, 0x10#8⟩ ∧ t.seq = .idle ∧
      t.txlog = s.txlog ++ [builtFrame s.cfg.slaveAddr .readInput s.cfg.regIdHi 0x0001#16,
        builtFrame s.cfg.slaveAddr .readInput s.cfg.regIdLo 0x0001#16,
        builtFrame s.cfg.slaveAddr .readInput s.cfg.regFw 0x0001#16,
        builtFrame s.cfg.slaveAddr .readHolding s.cfg.regAbc 0x0001#16] ∧
      t.now = s.now + BitVec.ofNat 32 (modeTime s.cfg 380 20)

/-- 44_register_mux.md R227, 70_reset_and_hazards.md R300: `SETABC hours` under the ideal schedule, its write echoed
exactly: the re-read value `v` is cached and returned, and the command succeeds exactly where it equals
`hours`; after 255 or 60 ms. -/
def Obligations.IdealSetabc : Prop :=
  ∀ (s : State) (h v : Half), SourceTimes s.cfg → FifoRoom s.cfg 8 → s.rxq = [] →
    s.status.busy = false → s.cfg.transportHasRestart = false → s.cfg.clearBeforeSetabc = true →
    s.moves = .host (.write 0x00#8 4 (commandWord 0x15#8 0 h)) ::
      (cores 1 ++ clearMoves ++ opMoves s.cfg (echoReply s.cfg.slaveAddr s.cfg.regAbc h) ++
        waitMoves s.cfg.tAbcApply ++
        opMoves s.cfg (readReply 0xFE#8 0x03#8 v) ++ cores 2) →
    ∃ t, Host.Core.run Sys2Proof.core s.moves.length s = .next t ∧
      t.abcPeriod = v ∧ t.result = v.setWidth 32 ∧ t.seq = .idle ∧ t.deviceId = s.deviceId ∧
      t.fwVersion = s.fwVersion ∧
      (v = h → t.status = ⟨false, true, true, .none, 0x15#8⟩) ∧
      (v ≠ h → t.status = ⟨false, true, false, .valueMismatch, 0x15#8⟩) ∧
      t.txlog = s.txlog ++ [builtFrame s.cfg.slaveAddr .writeSingle s.cfg.regAbc h,
        builtFrame s.cfg.slaveAddr .readHolding s.cfg.regAbc 0x0001#16] ∧
      t.now = s.now + BitVec.ofNat 32 (modeTime s.cfg 255 60)

/-- 44_register_mux.md R228, 70_reset_and_hazards.md R300: `BGCAL` under the ideal schedule, both writes echoed
exactly and the acknowledgment register reading `v` after the wait: it succeeds exactly where `v` is not
0xFFFF and has bit 0x0020 set; after 3315 or 3015 ms. The acknowledgment is read with function 0x03 or 0x04, as
`CAL_ACK_READ_FN` says, and the reply's slave and function bytes may be any. -/
def Obligations.IdealBgcal : Prop :=
  ∀ (s : State) (slave fn : Byte) (v : Half), SourceTimes s.cfg → FifoRoom s.cfg 8 → s.rxq = [] →
    s.status.busy = false → s.cfg.transportHasRestart = false →
    s.cfg.calAckMask = 0x0020#16 →
    s.moves = .host (.write 0x00#8 4 0x16000000#32) ::
      (clearMoves ++ opMoves s.cfg (echoReply s.cfg.slaveAddr s.cfg.regCalAck 0x0000#16) ++ cores 1 ++
        opMoves s.cfg (echoReply s.cfg.slaveAddr s.cfg.regCalCmd s.cfg.calCmd) ++ cores 1 ++ waitMoves s.cfg.tCalWait ++
        opMoves s.cfg (readReply slave fn v) ++ cores 1) →
    ∃ t, Host.Core.run Sys2Proof.core s.moves.length s = .next t ∧ t.seq = .idle ∧
      (v ≠ 0xFFFF#16 → v &&& 0x0020#16 ≠ 0 →
        t.result = 1#32 ∧ t.status = ⟨false, true, true, .none, 0x16#8⟩) ∧
      (v = 0xFFFF#16 ∨ v &&& 0x0020#16 = 0 →
        t.result = 0#32 ∧ t.status = ⟨false, true, false, .notAcknowledged, 0x16#8⟩) ∧
      t.txlog = s.txlog ++ [builtFrame s.cfg.slaveAddr .writeSingle s.cfg.regCalAck 0x0000#16,
        builtFrame s.cfg.slaveAddr .writeSingle s.cfg.regCalCmd s.cfg.calCmd,
        builtFrame s.cfg.slaveAddr (if s.cfg.calAckReadFn = 0x03#8 then .readHolding else .readInput)
          s.cfg.regCalAck 0x0001#16] ∧
      t.now = s.now + BitVec.ofNat 32 (modeTime s.cfg 3315 3015)
end

