-- ==== Sys2Proof/Laws/Bytes.lean ====
section
/-! SUPPORT. Byte order: splitting a value and joining it again, and the fields of the command word. -/
namespace Sys2Proof

/-- The value of two fields side by side. -/
theorem toNat_append_mul {m n : Nat} (x : BitVec m) (y : BitVec n) :
    (x ++ y).toNat = x.toNat * 2 ^ n + y.toNat := by
  rw [BitVec.toNat_append, ← Nat.shiftLeft_add_eq_or_of_lt y.isLt, Nat.shiftLeft_eq]

theorem hiByte_toNat (v : Half) : (hiByte v).toNat = v.toNat / 256 := by
  have h := v.isLt
  simp only [hiByte, BitVec.extractLsb'_toNat, Nat.shiftRight_eq_div_pow]
  omega

theorem loByte_toNat (v : Half) : (loByte v).toNat = v.toNat % 256 := by
  simp [loByte]

/-- The reconstruction of 30_encoding.md R117: high-byte × 256 + low-byte. -/
theorem joinBytes_toNat (h l : Byte) : (joinBytes h l).toNat = h.toNat * 256 + l.toNat := by
  simp only [joinBytes, BitVec.toNat_append]
  rw [← Nat.shiftLeft_add_eq_or_of_lt l.isLt, Nat.shiftLeft_eq]

/-- The device ID of 20_memory.md R78: hi × 65536 + lo. -/
theorem joinHalves_toNat (h l : Half) : (joinHalves h l).toNat = h.toNat * 65536 + l.toNat := by
  simp only [joinHalves, BitVec.toNat_append]
  rw [← Nat.shiftLeft_add_eq_or_of_lt l.isLt, Nat.shiftLeft_eq]

@[simp] theorem joinBytes_hi_lo (v : Half) : joinBytes (hiByte v) (loByte v) = v := by
  apply BitVec.eq_of_toNat_eq
  rw [joinBytes_toNat, hiByte_toNat, loByte_toNat]
  omega

@[simp] theorem hiByte_joinBytes (h l : Byte) : hiByte (joinBytes h l) = h := by
  apply BitVec.eq_of_toNat_eq
  have := l.isLt
  rw [hiByte_toNat, joinBytes_toNat]
  omega

@[simp] theorem loByte_joinBytes (h l : Byte) : loByte (joinBytes h l) = l := by
  apply BitVec.eq_of_toNat_eq
  have := l.isLt
  rw [loByte_toNat, joinBytes_toNat]
  omega

theorem joinBytes_inj (h l h' l' : Byte) : joinBytes h l = joinBytes h' l' ↔ h = h' ∧ l = l' := by
  constructor
  · intro e
    exact ⟨by simpa using congrArg hiByte e, by simpa using congrArg loByte e⟩
  · rintro ⟨rfl, rfl⟩; rfl

theorem opcField_toNat (w : Word) : (opcField w).toNat = w.toNat / 16777216 := by
  have h := w.isLt
  simp only [opcField, BitVec.extractLsb'_toNat, Nat.shiftRight_eq_div_pow]
  omega

theorem addrField_toNat (w : Word) : (addrField w).toNat = w.toNat / 65536 % 256 := by
  simp only [addrField, BitVec.extractLsb'_toNat, Nat.shiftRight_eq_div_pow]

theorem valField_toNat (w : Word) : (valField w).toNat = w.toNat % 65536 := by
  simp [valField]

/-- The command word of 30_encoding.md R119. -/
theorem commandWord_toNat (o a : Byte) (v : Half) :
    (commandWord o a v).toNat = o.toNat * 16777216 + a.toNat * 65536 + v.toNat := by
  simp only [commandWord, BitVec.toNat_append]
  rw [← Nat.shiftLeft_add_eq_or_of_lt v.isLt, ← Nat.shiftLeft_add_eq_or_of_lt a.isLt, Nat.shiftLeft_eq,
    Nat.shiftLeft_eq]
  omega

@[simp] theorem opcField_commandWord (o a : Byte) (v : Half) : opcField (commandWord o a v) = o := by
  apply BitVec.eq_of_toNat_eq
  have := a.isLt
  have := v.isLt
  rw [opcField_toNat, commandWord_toNat]
  omega

@[simp] theorem addrField_commandWord (o a : Byte) (v : Half) : addrField (commandWord o a v) = a := by
  apply BitVec.eq_of_toNat_eq
  have := a.isLt
  have := v.isLt
  rw [addrField_toNat, commandWord_toNat]
  omega

@[simp] theorem valField_commandWord (o a : Byte) (v : Half) : valField (commandWord o a v) = v := by
  apply BitVec.eq_of_toNat_eq
  have := v.isLt
  rw [valField_toNat, commandWord_toNat]
  omega

@[simp] theorem commandWord_fields (w : Word) :
    commandWord (opcField w) (addrField w) (valField w) = w := by
  apply BitVec.eq_of_toNat_eq
  rw [commandWord_toNat, opcField_toNat, addrField_toNat, valField_toNat]
  omega

theorem commandWord_inj (o a : Byte) (v : Half) (o' a' : Byte) (v' : Half) :
    commandWord o a v = commandWord o' a' v' ↔ o = o' ∧ a = a' ∧ v = v' := by
  constructor
  · intro h
    exact ⟨by simpa using congrArg opcField h, by simpa using congrArg addrField h,
      by simpa using congrArg valField h⟩
  · rintro ⟨rfl, rfl, rfl⟩; rfl

/-- A mask of fields acts on the fields. -/
theorem commandWord_and (o a : Byte) (v : Half) (o' a' : Byte) (v' : Half) :
    commandWord o a v &&& commandWord o' a' v' = commandWord (o &&& o') (a &&& a') (v &&& v') := by
  simp only [commandWord]
  rw [BitVec.and_append, BitVec.and_append]

/-- The received CRC of 30_encoding.md R117: low byte + high byte × 256. -/
theorem eq_joinBytes_iff {x : Half} {h l : Byte} :
    x = joinBytes h l ↔ x.toNat = l.toNat + h.toNat * 256 := by
  rw [← BitVec.toNat_inj, joinBytes_toNat, Nat.add_comm]

@[simp] theorem fnOfCode_code (fn : FnCode) : fnOfCode fn.code = some fn := by cases fn <;> decide

theorem code_of_fnOfCode {b : Byte} {fn : FnCode} (h : fnOfCode b = some fn) : b = fn.code := by
  unfold fnOfCode at h
  split at h
  · cases h; assumption
  · split at h
    · cases h; assumption
    · split at h
      · cases h; assumption
      · cases h

@[simp] theorem Frame7.length_toList (f : Frame7) : f.toList.length = 7 := rfl

@[simp] theorem Frame8.length_toList (f : Frame8) : f.toList.length = 8 := rfl

@[simp] theorem Frame8.take7_toList (f : Frame8) : f.toList.take 7 = f.first7.toList := rfl

@[simp] theorem Frame8.take8_toList (f : Frame8) : f.toList.take 8 = f.toList := rfl

end Sys2Proof
end

