-- ==== Sys2Proof/Laws/Crc.lean ====
section
/-! SUPPORT. What the CRC generator does to its accumulator: it loses nothing, and a byte that clears the low
half of the accumulator only shifts it. -/
namespace Sys2Proof

theorem crcBit_of_even {a : Half} (h : a.getLsbD 0 = false) : crcBit a = a >>> 1 := by
  rw [crcBit, h]
  rfl

theorem crcBit_injective {a b : Half} (h : crcBit a = crcBit b) : a = b := by
  have hbit : ∀ c : Half, (crcBit c).getLsbD 15 = c.getLsbD 0 := by
    intro c
    unfold crcBit
    cases hc : c.getLsbD 0 <;> simp
  have h0 : a.getLsbD 0 = b.getLsbD 0 := by rw [← hbit a, ← hbit b, h]
  have hs : a >>> 1 = b >>> 1 := by
    unfold crcBit at h
    rw [h0] at h
    cases hb : b.getLsbD 0 <;> simp only [hb, Bool.false_eq_true, if_false, if_true] at h
    · exact h
    · simpa using h
  apply BitVec.eq_of_getLsbD_eq
  intro i hi
  cases i with
  | zero => exact h0
  | succ j =>
    have := congrArg (fun v => v.getLsbD j) hs
    simpa [Nat.add_comm] using this

theorem crcBits_injective (k : Nat) : ∀ {a b : Half}, crcBits k a = crcBits k b → a = b := by
  induction k with
  | zero => exact fun h => h
  | succ k ih => exact fun h => crcBit_injective (ih h)

/-- `k` iterations on an accumulator whose low `k` bits are 0 only shift it. -/
theorem crcBits_of_low_zero (k : Nat) :
    ∀ a : Half, (∀ i, i < k → a.getLsbD i = false) → crcBits k a = a >>> k := by
  induction k with
  | zero => intro a _; simp [crcBits]
  | succ k ih =>
    intro a h
    rw [crcBits, crcBit_of_even (h 0 (by omega)), ih]
    · rw [← BitVec.shiftRight_add, Nat.add_comm]
    · intro i hi
      have := h (i + 1) (by omega)
      simpa [Nat.add_comm] using this

theorem crcByte_injective_acc {a a' : Half} {b : Byte} (h : crcByte a b = crcByte a' b) : a = a' := by
  have := crcBits_injective 8 h
  simpa using this

theorem crcByte_injective_byte {a : Half} {b b' : Byte} (h : crcByte a b = crcByte a b') : b = b' := by
  have := crcBits_injective 8 h
  have := congrArg (BitVec.setWidth 8) this
  simpa using this

theorem crcFrom_append (a : Half) (l m : List Byte) : crcFrom a (l ++ m) = crcFrom (crcFrom a l) m := by
  simp [crcFrom]

theorem crcFrom_cons (a : Half) (b : Byte) (l : List Byte) :
    crcFrom a (b :: l) = crcFrom (crcByte a b) l := rfl

@[simp] theorem crcFrom_nil (a : Half) : crcFrom a [] = a := rfl

theorem crcFrom_injective (l : List Byte) : ∀ {a a' : Half}, crcFrom a l = crcFrom a' l → a = a' := by
  induction l with
  | nil => exact fun h => h
  | cons b l ih => exact fun h => crcByte_injective_acc (ih h)

/-- A byte equal to the accumulator's low byte shifts the high byte down. -/
theorem crcByte_loByte (c : Half) : crcByte c (loByte c) = (hiByte c).setWidth 16 := by
  unfold crcByte
  rw [crcBits_of_low_zero]
  · apply BitVec.eq_of_getLsbD_eq
    intro i hi
    by_cases h : i < 8
    · have h16 : ¬ 16 ≤ i := by omega
      simp [loByte, hiByte, h, show 8 + i < 16 by omega]
      omega
    · simp [loByte, hiByte, h, BitVec.getLsbD_of_ge c (8 + i) (by omega)]
  · intro i hi
    simp [loByte, hi, show i < 16 by omega]

theorem crcByte_setWidth (b : Byte) : crcByte (b.setWidth 16) b = 0#16 := by
  unfold crcByte
  simp
  decide

/-- The accumulator after its own two bytes, low byte first, is 0. -/
theorem crcFrom_own_bytes (c : Half) : crcFrom c [loByte c, hiByte c] = 0#16 := by
  rw [crcFrom_cons, crcByte_loByte, crcFrom_cons, crcByte_setWidth, crcFrom_nil]

@[simp] theorem crc16_six (b0 b1 b2 b3 b4 b5 : Byte) (l : List Byte) :
    crc16 (b0 :: b1 :: b2 :: b3 :: b4 :: b5 :: l) 6 = crc16 [b0, b1, b2, b3, b4, b5] 6 := rfl

@[simp] theorem crc16_five (b0 b1 b2 b3 b4 : Byte) (l : List Byte) :
    crc16 (b0 :: b1 :: b2 :: b3 :: b4 :: l) 5 = crc16 [b0, b1, b2, b3, b4] 5 := rfl

end Sys2Proof
end

