-- ==== Sys2Proof/Laws/Decode.lean ====
section
/-! SUPPORT. The decoder of each place against the encoder. -/
namespace Sys2Proof

theorem decodeRequest_requestFrame_write (a : Byte) (v crc : Half) :
    decodeRequest (requestFrame rowSlaveAddr .writeSingle a v crc).toList = .ok (.reqWhr a v crc) := by
  simp [decodeRequest, requestFrame, Frame8.toList]

theorem decodeRequest_requestFrame_input (a : Byte) (crc : Half) :
    decodeRequest (requestFrame rowSlaveAddr .readInput a readCount crc).toList = .ok (.reqRir a crc) := by
  simp [decodeRequest, requestFrame, Frame8.toList]

theorem decodeRequest_requestFrame_holding (a : Byte) (crc : Half) :
    decodeRequest (requestFrame rowSlaveAddr .readHolding a readCount crc).toList = .ok (.reqRhr a crc) := by
  simp [decodeRequest, requestFrame, Frame8.toList]

/-- What a decoded request frame was: one inversion for the three requests. -/
theorem decodeRequest_ok {f : Frame8} {i : Instr} (h : decodeRequest f.toList = .ok i) :
    (∃ a crc, i = .reqRir a crc ∧ f = requestFrame rowSlaveAddr .readInput a readCount crc) ∨
    (∃ a crc, i = .reqRhr a crc ∧ f = requestFrame rowSlaveAddr .readHolding a readCount crc) ∨
    (∃ a v crc, i = .reqWhr a v crc ∧ f = requestFrame rowSlaveAddr .writeSingle a v crc) := by
  obtain ⟨b0, b1, b2, b3, b4, b5, b6, b7⟩ := f
  simp only [Frame8.toList, decodeRequest] at h
  split at h
  · cases h
  · rename_i h0
    split at h
    · cases h
    · rename_i h2
      simp only [ne_eq, Decidable.not_not] at h0 h2
      subst h0 h2
      split at h
      · cases h
      · rename_i hf
        cases h
        exact .inr (.inr ⟨_, _, _, rfl, by simp [requestFrame, code_of_fnOfCode hf]⟩)
      · rename_i hf
        split at h
        · rename_i hc
          cases h
          refine .inl ⟨_, _, rfl, ?_⟩
          simp [requestFrame, code_of_fnOfCode hf, ← hc]
        · cases h
      · rename_i hf
        split at h
        · rename_i hc
          cases h
          refine .inr (.inl ⟨_, _, rfl, ?_⟩)
          simp [requestFrame, code_of_fnOfCode hf, ← hc]
        · cases h

theorem decodeResponse_input (s f : Byte) (v crc : Half) :
    decodeResponse .readInput (readResponseFrame s f v crc).toList = .ok (.rspRir s f v crc) := by
  simp [decodeResponse, readResponseFrame, Frame7.toList]

theorem decodeResponse_holding (s f : Byte) (v crc : Half) :
    decodeResponse .readHolding (readResponseFrame s f v crc).toList = .ok (.rspRhr s f v crc) := by
  simp [decodeResponse, readResponseFrame, Frame7.toList]

theorem decodeResponse_write (s f a : Byte) (v crc : Half) :
    decodeResponse .writeSingle (writeResponseFrame s f a v crc).toList = .ok (.rspWhr s f a v crc) := by
  simp [decodeResponse, writeResponseFrame, Frame8.toList]

theorem decodeResponse_input_ok {r : Frame7} {i : Instr} (h : decodeResponse .readInput r.toList = .ok i) :
    ∃ s f v crc, i = .rspRir s f v crc ∧ r = readResponseFrame s f v crc := by
  obtain ⟨b0, b1, b2, b3, b4, b5, b6⟩ := r
  simp only [Frame7.toList, decodeResponse] at h
  split at h
  · rename_i h2
    cases h
    exact ⟨_, _, _, _, rfl, by simp [readResponseFrame, h2]⟩
  · cases h

theorem decodeResponse_holding_ok {r : Frame7} {i : Instr} (h : decodeResponse .readHolding r.toList = .ok i) :
    ∃ s f v crc, i = .rspRhr s f v crc ∧ r = readResponseFrame s f v crc := by
  obtain ⟨b0, b1, b2, b3, b4, b5, b6⟩ := r
  simp only [Frame7.toList, decodeResponse] at h
  split at h
  · rename_i h2
    cases h
    exact ⟨_, _, _, _, rfl, by simp [readResponseFrame, h2]⟩
  · cases h

theorem decodeResponse_write_ok {r : Frame8} {i : Instr} (h : decodeResponse .writeSingle r.toList = .ok i) :
    ∃ s f a v crc, i = .rspWhr s f a v crc ∧ r = writeResponseFrame s f a v crc := by
  obtain ⟨b0, b1, b2, b3, b4, b5, b6, b7⟩ := r
  simp only [Frame8.toList, decodeResponse] at h
  split at h
  · rename_i h2
    cases h
    exact ⟨_, _, _, _, _, rfl, by simp [writeResponseFrame, h2]⟩
  · cases h

/-- The commands: no frame comes from `CMDL`. -/
def Instr.isCommand (i : Instr) : Bool := i.place == .command

/-- Decoded fields: the word they make is the decoded command's. -/
theorem decodeFields_ok {o a : Byte} {v : Half} {i : Instr} (h : decodeFields o a v = .ok i) :
    encode i = .word (commandWord o a v) ∧ i.isCommand = true := by
  unfold decodeFields at h
  by_cases c : o = 0x01#8 ∧ a = 0 ∧ v = 0
  · rw [if_pos c] at h; cases h; obtain ⟨rfl, rfl, rfl⟩ := c; exact ⟨rfl, rfl⟩
  rw [if_neg c] at h; clear c
  by_cases c : o = 0x03#8 ∧ v = 0
  · rw [if_pos c] at h; cases h; obtain ⟨rfl, rfl⟩ := c; exact ⟨rfl, rfl⟩
  rw [if_neg c] at h; clear c
  by_cases c : o = 0x04#8 ∧ v = 0
  · rw [if_pos c] at h; cases h; obtain ⟨rfl, rfl⟩ := c; exact ⟨rfl, rfl⟩
  rw [if_neg c] at h; clear c
  by_cases c : o = 0x06#8
  · rw [if_pos c] at h; cases h; obtain rfl := c; exact ⟨rfl, rfl⟩
  rw [if_neg c] at h; clear c
  by_cases c : o = 0x10#8 ∧ a = 0 ∧ v = 0
  · rw [if_pos c] at h; cases h; obtain ⟨rfl, rfl, rfl⟩ := c; exact ⟨rfl, rfl⟩
  rw [if_neg c] at h; clear c
  by_cases c : o = 0x11#8 ∧ a = 0 ∧ v = 0
  · rw [if_pos c] at h; cases h; obtain ⟨rfl, rfl, rfl⟩ := c; exact ⟨rfl, rfl⟩
  rw [if_neg c] at h; clear c
  by_cases c : o = 0x12#8 ∧ a = 0 ∧ v = 0
  · rw [if_pos c] at h; cases h; obtain ⟨rfl, rfl, rfl⟩ := c; exact ⟨rfl, rfl⟩
  rw [if_neg c] at h; clear c
  by_cases c : o = 0x13#8 ∧ a = 0 ∧ v = 0
  · rw [if_pos c] at h; cases h; obtain ⟨rfl, rfl, rfl⟩ := c; exact ⟨rfl, rfl⟩
  rw [if_neg c] at h; clear c
  by_cases c : o = 0x14#8 ∧ a = 0 ∧ v = 0
  · rw [if_pos c] at h; cases h; obtain ⟨rfl, rfl, rfl⟩ := c; exact ⟨rfl, rfl⟩
  rw [if_neg c] at h; clear c
  by_cases c : o = 0x15#8 ∧ a = 0
  · rw [if_pos c] at h; cases h; obtain ⟨rfl, rfl⟩ := c; exact ⟨rfl, rfl⟩
  rw [if_neg c] at h; clear c
  by_cases c : o = 0x16#8 ∧ a = 0 ∧ v = 0
  · rw [if_pos c] at h; cases h; obtain ⟨rfl, rfl, rfl⟩ := c; exact ⟨rfl, rfl⟩
  rw [if_neg c] at h; clear c
  split at h <;> cases h

/-- A decoded command word: its constructor, and the word it came from. -/
theorem decodeCommand_ok {w : Word} {i : Instr} (h : decodeCommand w = .ok i) :
    encode i = .word w ∧ i.isCommand = true := by
  have := decodeFields_ok h
  rwa [commandWord_fields] at this

/-- The command decoder on the word of three fields. -/
@[simp] theorem decodeCommand_commandWord (o a : Byte) (v : Half) :
    decodeCommand (commandWord o a v) = decodeFields o a v := by
  simp [decodeCommand]

end Sys2Proof
end

