-- ==== Sys2Proof/Laws/State.lean ====
section
/-! SUPPORT. One lemma per field per named update of the state, each true by unfolding. -/
namespace Sys2Proof.Machine.State

variable (s : State)

@[simp] theorem goto_cfg (p : Pos) : (s.goto p).cfg = s.cfg := rfl
@[simp] theorem goto_txbuf (p : Pos) : (s.goto p).txbuf = s.txbuf := rfl
@[simp] theorem goto_rxbuf (p : Pos) : (s.goto p).rxbuf = s.rxbuf := rfl
@[simp] theorem goto_rxcnt (p : Pos) : (s.goto p).rxcnt = s.rxcnt := rfl
@[simp] theorem goto_explen (p : Pos) : (s.goto p).explen = s.explen := rfl
@[simp] theorem goto_t0 (p : Pos) : (s.goto p).t0 = s.t0 := rfl
@[simp] theorem goto_tw (p : Pos) : (s.goto p).tw = s.tw := rfl
@[simp] theorem goto_acc (p : Pos) : (s.goto p).acc = s.acc := rfl
@[simp] theorem goto_seq (p : Pos) : (s.goto p).seq = s.seq := rfl
@[simp] theorem goto_cmdl (p : Pos) : (s.goto p).cmdl = s.cmdl := rfl
@[simp] theorem goto_pos (p : Pos) : (s.goto p).pos = p := rfl
@[simp] theorem goto_took (p : Pos) : (s.goto p).took = s.took := rfl
@[simp] theorem goto_firstAvail (p : Pos) : (s.goto p).firstAvail = s.firstAvail := rfl
@[simp] theorem goto_ret1 (p : Pos) : (s.goto p).ret1 = s.ret1 := rfl
@[simp] theorem goto_ret2 (p : Pos) : (s.goto p).ret2 = s.ret2 := rfl
@[simp] theorem goto_ret3 (p : Pos) : (s.goto p).ret3 = s.ret3 := rfl
@[simp] theorem goto_ret4 (p : Pos) : (s.goto p).ret4 = s.ret4 := rfl
@[simp] theorem goto_status (p : Pos) : (s.goto p).status = s.status := rfl
@[simp] theorem goto_result (p : Pos) : (s.goto p).result = s.result := rfl
@[simp] theorem goto_deviceId (p : Pos) : (s.goto p).deviceId = s.deviceId := rfl
@[simp] theorem goto_fwVersion (p : Pos) : (s.goto p).fwVersion = s.fwVersion := rfl
@[simp] theorem goto_abcPeriod (p : Pos) : (s.goto p).abcPeriod = s.abcPeriod := rfl
@[simp] theorem goto_rxq (p : Pos) : (s.goto p).rxq = s.rxq := rfl
@[simp] theorem goto_txlog (p : Pos) : (s.goto p).txlog = s.txlog := rfl
@[simp] theorem goto_now (p : Pos) : (s.goto p).now = s.now := rfl
@[simp] theorem goto_hostData (p : Pos) : (s.goto p).hostData = s.hostData := rfl
@[simp] theorem goto_inputs (p : Pos) : (s.goto p).inputs = s.inputs := rfl
@[simp] theorem goto_repeating (p : Pos) : (s.goto p).repeating = s.repeating := rfl
@[simp] theorem goto_draws (p : Pos) : (s.goto p).draws = s.draws := rfl

@[simp] theorem accept_cfg (w : Word) : (s.accept w).cfg = s.cfg := rfl
@[simp] theorem accept_txbuf (w : Word) : (s.accept w).txbuf = s.txbuf := rfl
@[simp] theorem accept_rxbuf (w : Word) : (s.accept w).rxbuf = s.rxbuf := rfl
@[simp] theorem accept_rxcnt (w : Word) : (s.accept w).rxcnt = s.rxcnt := rfl
@[simp] theorem accept_explen (w : Word) : (s.accept w).explen = s.explen := rfl
@[simp] theorem accept_t0 (w : Word) : (s.accept w).t0 = s.t0 := rfl
@[simp] theorem accept_tw (w : Word) : (s.accept w).tw = s.tw := rfl
@[simp] theorem accept_acc (w : Word) : (s.accept w).acc = s.acc := rfl
@[simp] theorem accept_seq (w : Word) : (s.accept w).seq = .exec := rfl
@[simp] theorem accept_cmdl (w : Word) : (s.accept w).cmdl = w := rfl
@[simp] theorem accept_pos (w : Word) : (s.accept w).pos = .start := rfl
@[simp] theorem accept_took (w : Word) : (s.accept w).took = s.took := rfl
@[simp] theorem accept_firstAvail (w : Word) : (s.accept w).firstAvail = s.firstAvail := rfl
@[simp] theorem accept_ret1 (w : Word) : (s.accept w).ret1 = s.ret1 := rfl
@[simp] theorem accept_ret2 (w : Word) : (s.accept w).ret2 = s.ret2 := rfl
@[simp] theorem accept_ret3 (w : Word) : (s.accept w).ret3 = s.ret3 := rfl
@[simp] theorem accept_ret4 (w : Word) : (s.accept w).ret4 = s.ret4 := rfl
@[simp] theorem accept_status (w : Word) : (s.accept w).status = .accepted (opcField w) := rfl
@[simp] theorem accept_result (w : Word) : (s.accept w).result = s.result := rfl
@[simp] theorem accept_deviceId (w : Word) : (s.accept w).deviceId = s.deviceId := rfl
@[simp] theorem accept_fwVersion (w : Word) : (s.accept w).fwVersion = s.fwVersion := rfl
@[simp] theorem accept_abcPeriod (w : Word) : (s.accept w).abcPeriod = s.abcPeriod := rfl
@[simp] theorem accept_rxq (w : Word) : (s.accept w).rxq = s.rxq := rfl
@[simp] theorem accept_txlog (w : Word) : (s.accept w).txlog = s.txlog := rfl
@[simp] theorem accept_now (w : Word) : (s.accept w).now = s.now := rfl
@[simp] theorem accept_hostData (w : Word) : (s.accept w).hostData = s.hostData := rfl
@[simp] theorem accept_inputs (w : Word) : (s.accept w).inputs = s.inputs := rfl
@[simp] theorem accept_repeating (w : Word) : (s.accept w).repeating = s.repeating := rfl
@[simp] theorem accept_draws (w : Word) : (s.accept w).draws = s.draws := rfl

@[simp] theorem complete_cfg (ok : Bool) (err : ErrKind) (r : Word) : (s.complete ok err r).cfg = s.cfg := rfl
@[simp] theorem complete_txbuf (ok : Bool) (err : ErrKind) (r : Word) : (s.complete ok err r).txbuf = s.txbuf := rfl
@[simp] theorem complete_rxbuf (ok : Bool) (err : ErrKind) (r : Word) : (s.complete ok err r).rxbuf = s.rxbuf := rfl
@[simp] theorem complete_rxcnt (ok : Bool) (err : ErrKind) (r : Word) : (s.complete ok err r).rxcnt = s.rxcnt := rfl
@[simp] theorem complete_explen (ok : Bool) (err : ErrKind) (r : Word) : (s.complete ok err r).explen = s.explen := rfl
@[simp] theorem complete_t0 (ok : Bool) (err : ErrKind) (r : Word) : (s.complete ok err r).t0 = s.t0 := rfl
@[simp] theorem complete_tw (ok : Bool) (err : ErrKind) (r : Word) : (s.complete ok err r).tw = s.tw := rfl
@[simp] theorem complete_acc (ok : Bool) (err : ErrKind) (r : Word) : (s.complete ok err r).acc = s.acc := rfl
@[simp] theorem complete_seq (ok : Bool) (err : ErrKind) (r : Word) : (s.complete ok err r).seq = .idle := rfl
@[simp] theorem complete_cmdl (ok : Bool) (err : ErrKind) (r : Word) : (s.complete ok err r).cmdl = s.cmdl := rfl
@[simp] theorem complete_pos (ok : Bool) (err : ErrKind) (r : Word) : (s.complete ok err r).pos = s.pos := rfl
@[simp] theorem complete_took (ok : Bool) (err : ErrKind) (r : Word) : (s.complete ok err r).took = s.took := rfl
@[simp] theorem complete_firstAvail (ok : Bool) (err : ErrKind) (r : Word) : (s.complete ok err r).firstAvail = s.firstAvail := rfl
@[simp] theorem complete_ret1 (ok : Bool) (err : ErrKind) (r : Word) : (s.complete ok err r).ret1 = s.ret1 := rfl
@[simp] theorem complete_ret2 (ok : Bool) (err : ErrKind) (r : Word) : (s.complete ok err r).ret2 = s.ret2 := rfl
@[simp] theorem complete_ret3 (ok : Bool) (err : ErrKind) (r : Word) : (s.complete ok err r).ret3 = s.ret3 := rfl
@[simp] theorem complete_ret4 (ok : Bool) (err : ErrKind) (r : Word) : (s.complete ok err r).ret4 = s.ret4 := rfl
@[simp] theorem complete_status (ok : Bool) (err : ErrKind) (r : Word) : (s.complete ok err r).status = s.status.completed ok err := rfl
@[simp] theorem complete_result (ok : Bool) (err : ErrKind) (r : Word) : (s.complete ok err r).result = r := rfl
@[simp] theorem complete_deviceId (ok : Bool) (err : ErrKind) (r : Word) : (s.complete ok err r).deviceId = s.deviceId := rfl
@[simp] theorem complete_fwVersion (ok : Bool) (err : ErrKind) (r : Word) : (s.complete ok err r).fwVersion = s.fwVersion := rfl
@[simp] theorem complete_abcPeriod (ok : Bool) (err : ErrKind) (r : Word) : (s.complete ok err r).abcPeriod = s.abcPeriod := rfl
@[simp] theorem complete_rxq (ok : Bool) (err : ErrKind) (r : Word) : (s.complete ok err r).rxq = s.rxq := rfl
@[simp] theorem complete_txlog (ok : Bool) (err : ErrKind) (r : Word) : (s.complete ok err r).txlog = s.txlog := rfl
@[simp] theorem complete_now (ok : Bool) (err : ErrKind) (r : Word) : (s.complete ok err r).now = s.now := rfl
@[simp] theorem complete_hostData (ok : Bool) (err : ErrKind) (r : Word) : (s.complete ok err r).hostData = s.hostData := rfl
@[simp] theorem complete_inputs (ok : Bool) (err : ErrKind) (r : Word) : (s.complete ok err r).inputs = s.inputs := rfl
@[simp] theorem complete_repeating (ok : Bool) (err : ErrKind) (r : Word) : (s.complete ok err r).repeating = s.repeating := rfl
@[simp] theorem complete_draws (ok : Bool) (err : ErrKind) (r : Word) : (s.complete ok err r).draws = s.draws := rfl

@[simp] theorem beginWait_cfg : s.beginWait.cfg = s.cfg := rfl
@[simp] theorem beginWait_txbuf : s.beginWait.txbuf = s.txbuf := rfl
@[simp] theorem beginWait_rxbuf : s.beginWait.rxbuf = s.rxbuf := rfl
@[simp] theorem beginWait_rxcnt : s.beginWait.rxcnt = s.rxcnt := rfl
@[simp] theorem beginWait_explen : s.beginWait.explen = s.explen := rfl
@[simp] theorem beginWait_t0 : s.beginWait.t0 = s.now := rfl
@[simp] theorem beginWait_tw : s.beginWait.tw = s.tw := rfl
@[simp] theorem beginWait_acc : s.beginWait.acc = s.acc := rfl
@[simp] theorem beginWait_seq : s.beginWait.seq = s.seq := rfl
@[simp] theorem beginWait_cmdl : s.beginWait.cmdl = s.cmdl := rfl
@[simp] theorem beginWait_pos : s.beginWait.pos = s.pos := rfl
@[simp] theorem beginWait_took : s.beginWait.took = s.took := rfl
@[simp] theorem beginWait_firstAvail : s.beginWait.firstAvail = s.firstAvail := rfl
@[simp] theorem beginWait_ret1 : s.beginWait.ret1 = s.ret1 := rfl
@[simp] theorem beginWait_ret2 : s.beginWait.ret2 = s.ret2 := rfl
@[simp] theorem beginWait_ret3 : s.beginWait.ret3 = s.ret3 := rfl
@[simp] theorem beginWait_ret4 : s.beginWait.ret4 = s.ret4 := rfl
@[simp] theorem beginWait_status : s.beginWait.status = s.status := rfl
@[simp] theorem beginWait_result : s.beginWait.result = s.result := rfl
@[simp] theorem beginWait_deviceId : s.beginWait.deviceId = s.deviceId := rfl
@[simp] theorem beginWait_fwVersion : s.beginWait.fwVersion = s.fwVersion := rfl
@[simp] theorem beginWait_abcPeriod : s.beginWait.abcPeriod = s.abcPeriod := rfl
@[simp] theorem beginWait_rxq : s.beginWait.rxq = s.rxq := rfl
@[simp] theorem beginWait_txlog : s.beginWait.txlog = s.txlog := rfl
@[simp] theorem beginWait_now : s.beginWait.now = s.now := rfl
@[simp] theorem beginWait_hostData : s.beginWait.hostData = s.hostData := rfl
@[simp] theorem beginWait_inputs : s.beginWait.inputs = s.inputs := rfl
@[simp] theorem beginWait_repeating : s.beginWait.repeating = s.repeating := rfl
@[simp] theorem beginWait_draws : s.beginWait.draws = s.draws := rfl

@[simp] theorem beginPoll_cfg : s.beginPoll.cfg = s.cfg := rfl
@[simp] theorem beginPoll_txbuf : s.beginPoll.txbuf = s.txbuf := rfl
@[simp] theorem beginPoll_rxbuf : s.beginPoll.rxbuf = s.rxbuf := rfl
@[simp] theorem beginPoll_rxcnt : s.beginPoll.rxcnt = s.rxcnt := rfl
@[simp] theorem beginPoll_explen : s.beginPoll.explen = s.explen := rfl
@[simp] theorem beginPoll_t0 : s.beginPoll.t0 = s.t0 := rfl
@[simp] theorem beginPoll_tw : s.beginPoll.tw = s.now := rfl
@[simp] theorem beginPoll_acc : s.beginPoll.acc = s.acc := rfl
@[simp] theorem beginPoll_seq : s.beginPoll.seq = s.seq := rfl
@[simp] theorem beginPoll_cmdl : s.beginPoll.cmdl = s.cmdl := rfl
@[simp] theorem beginPoll_pos : s.beginPoll.pos = s.pos := rfl
@[simp] theorem beginPoll_took : s.beginPoll.took = s.took := rfl
@[simp] theorem beginPoll_firstAvail : s.beginPoll.firstAvail = s.firstAvail := rfl
@[simp] theorem beginPoll_ret1 : s.beginPoll.ret1 = s.ret1 := rfl
@[simp] theorem beginPoll_ret2 : s.beginPoll.ret2 = s.ret2 := rfl
@[simp] theorem beginPoll_ret3 : s.beginPoll.ret3 = s.ret3 := rfl
@[simp] theorem beginPoll_ret4 : s.beginPoll.ret4 = s.ret4 := rfl
@[simp] theorem beginPoll_status : s.beginPoll.status = s.status := rfl
@[simp] theorem beginPoll_result : s.beginPoll.result = s.result := rfl
@[simp] theorem beginPoll_deviceId : s.beginPoll.deviceId = s.deviceId := rfl
@[simp] theorem beginPoll_fwVersion : s.beginPoll.fwVersion = s.fwVersion := rfl
@[simp] theorem beginPoll_abcPeriod : s.beginPoll.abcPeriod = s.abcPeriod := rfl
@[simp] theorem beginPoll_rxq : s.beginPoll.rxq = s.rxq := rfl
@[simp] theorem beginPoll_txlog : s.beginPoll.txlog = s.txlog := rfl
@[simp] theorem beginPoll_now : s.beginPoll.now = s.now := rfl
@[simp] theorem beginPoll_hostData : s.beginPoll.hostData = s.hostData := rfl
@[simp] theorem beginPoll_inputs : s.beginPoll.inputs = s.inputs := rfl
@[simp] theorem beginPoll_repeating : s.beginPoll.repeating = s.repeating := rfl
@[simp] theorem beginPoll_draws : s.beginPoll.draws = s.draws := rfl

@[simp] theorem buildReq_cfg (fn : FnCode) (a : Byte) (v : Half) : (s.buildReq fn a v).cfg = s.cfg := rfl
@[simp] theorem buildReq_txbuf (fn : FnCode) (a : Byte) (v : Half) : (s.buildReq fn a v).txbuf = builtFrame s.cfg.slaveAddr fn a v := rfl
@[simp] theorem buildReq_rxbuf (fn : FnCode) (a : Byte) (v : Half) : (s.buildReq fn a v).rxbuf = s.rxbuf := rfl
@[simp] theorem buildReq_rxcnt (fn : FnCode) (a : Byte) (v : Half) : (s.buildReq fn a v).rxcnt = s.rxcnt := rfl
@[simp] theorem buildReq_explen (fn : FnCode) (a : Byte) (v : Half) : (s.buildReq fn a v).explen = s.explen := rfl
@[simp] theorem buildReq_t0 (fn : FnCode) (a : Byte) (v : Half) : (s.buildReq fn a v).t0 = s.t0 := rfl
@[simp] theorem buildReq_tw (fn : FnCode) (a : Byte) (v : Half) : (s.buildReq fn a v).tw = s.tw := rfl
@[simp] theorem buildReq_acc (fn : FnCode) (a : Byte) (v : Half) : (s.buildReq fn a v).acc = requestCrc s.cfg.slaveAddr fn a v := rfl
@[simp] theorem buildReq_seq (fn : FnCode) (a : Byte) (v : Half) : (s.buildReq fn a v).seq = s.seq := rfl
@[simp] theorem buildReq_cmdl (fn : FnCode) (a : Byte) (v : Half) : (s.buildReq fn a v).cmdl = s.cmdl := rfl
@[simp] theorem buildReq_pos (fn : FnCode) (a : Byte) (v : Half) : (s.buildReq fn a v).pos = s.pos := rfl
@[simp] theorem buildReq_took (fn : FnCode) (a : Byte) (v : Half) : (s.buildReq fn a v).took = s.took := rfl
@[simp] theorem buildReq_firstAvail (fn : FnCode) (a : Byte) (v : Half) : (s.buildReq fn a v).firstAvail = s.firstAvail := rfl
@[simp] theorem buildReq_ret1 (fn : FnCode) (a : Byte) (v : Half) : (s.buildReq fn a v).ret1 = s.ret1 := rfl
@[simp] theorem buildReq_ret2 (fn : FnCode) (a : Byte) (v : Half) : (s.buildReq fn a v).ret2 = s.ret2 := rfl
@[simp] theorem buildReq_ret3 (fn : FnCode) (a : Byte) (v : Half) : (s.buildReq fn a v).ret3 = s.ret3 := rfl
@[simp] theorem buildReq_ret4 (fn : FnCode) (a : Byte) (v : Half) : (s.buildReq fn a v).ret4 = s.ret4 := rfl
@[simp] theorem buildReq_status (fn : FnCode) (a : Byte) (v : Half) : (s.buildReq fn a v).status = s.status := rfl
@[simp] theorem buildReq_result (fn : FnCode) (a : Byte) (v : Half) : (s.buildReq fn a v).result = s.result := rfl
@[simp] theorem buildReq_deviceId (fn : FnCode) (a : Byte) (v : Half) : (s.buildReq fn a v).deviceId = s.deviceId := rfl
@[simp] theorem buildReq_fwVersion (fn : FnCode) (a : Byte) (v : Half) : (s.buildReq fn a v).fwVersion = s.fwVersion := rfl
@[simp] theorem buildReq_abcPeriod (fn : FnCode) (a : Byte) (v : Half) : (s.buildReq fn a v).abcPeriod = s.abcPeriod := rfl
@[simp] theorem buildReq_rxq (fn : FnCode) (a : Byte) (v : Half) : (s.buildReq fn a v).rxq = s.rxq := rfl
@[simp] theorem buildReq_txlog (fn : FnCode) (a : Byte) (v : Half) : (s.buildReq fn a v).txlog = s.txlog := rfl
@[simp] theorem buildReq_now (fn : FnCode) (a : Byte) (v : Half) : (s.buildReq fn a v).now = s.now := rfl
@[simp] theorem buildReq_hostData (fn : FnCode) (a : Byte) (v : Half) : (s.buildReq fn a v).hostData = s.hostData := rfl
@[simp] theorem buildReq_inputs (fn : FnCode) (a : Byte) (v : Half) : (s.buildReq fn a v).inputs = s.inputs := rfl
@[simp] theorem buildReq_repeating (fn : FnCode) (a : Byte) (v : Half) : (s.buildReq fn a v).repeating = s.repeating := rfl
@[simp] theorem buildReq_draws (fn : FnCode) (a : Byte) (v : Half) : (s.buildReq fn a v).draws = s.draws := rfl

@[simp] theorem tx_cfg (f : Frame8) : (s.tx f).cfg = s.cfg := rfl
@[simp] theorem tx_txbuf (f : Frame8) : (s.tx f).txbuf = s.txbuf := rfl
@[simp] theorem tx_rxbuf (f : Frame8) : (s.tx f).rxbuf = s.rxbuf := rfl
@[simp] theorem tx_rxcnt (f : Frame8) : (s.tx f).rxcnt = s.rxcnt := rfl
@[simp] theorem tx_explen (f : Frame8) : (s.tx f).explen = s.explen := rfl
@[simp] theorem tx_t0 (f : Frame8) : (s.tx f).t0 = s.t0 := rfl
@[simp] theorem tx_tw (f : Frame8) : (s.tx f).tw = s.tw := rfl
@[simp] theorem tx_acc (f : Frame8) : (s.tx f).acc = s.acc := rfl
@[simp] theorem tx_seq (f : Frame8) : (s.tx f).seq = s.seq := rfl
@[simp] theorem tx_cmdl (f : Frame8) : (s.tx f).cmdl = s.cmdl := rfl
@[simp] theorem tx_pos (f : Frame8) : (s.tx f).pos = s.pos := rfl
@[simp] theorem tx_took (f : Frame8) : (s.tx f).took = s.took := rfl
@[simp] theorem tx_firstAvail (f : Frame8) : (s.tx f).firstAvail = s.firstAvail := rfl
@[simp] theorem tx_ret1 (f : Frame8) : (s.tx f).ret1 = s.ret1 := rfl
@[simp] theorem tx_ret2 (f : Frame8) : (s.tx f).ret2 = s.ret2 := rfl
@[simp] theorem tx_ret3 (f : Frame8) : (s.tx f).ret3 = s.ret3 := rfl
@[simp] theorem tx_ret4 (f : Frame8) : (s.tx f).ret4 = s.ret4 := rfl
@[simp] theorem tx_status (f : Frame8) : (s.tx f).status = s.status := rfl
@[simp] theorem tx_result (f : Frame8) : (s.tx f).result = s.result := rfl
@[simp] theorem tx_deviceId (f : Frame8) : (s.tx f).deviceId = s.deviceId := rfl
@[simp] theorem tx_fwVersion (f : Frame8) : (s.tx f).fwVersion = s.fwVersion := rfl
@[simp] theorem tx_abcPeriod (f : Frame8) : (s.tx f).abcPeriod = s.abcPeriod := rfl
@[simp] theorem tx_rxq (f : Frame8) : (s.tx f).rxq = s.rxq := rfl
@[simp] theorem tx_txlog (f : Frame8) : (s.tx f).txlog = s.txlog ++ [f] := rfl
@[simp] theorem tx_now (f : Frame8) : (s.tx f).now = s.now := rfl
@[simp] theorem tx_hostData (f : Frame8) : (s.tx f).hostData = s.hostData := rfl
@[simp] theorem tx_inputs (f : Frame8) : (s.tx f).inputs = s.inputs := rfl
@[simp] theorem tx_repeating (f : Frame8) : (s.tx f).repeating = s.repeating := rfl
@[simp] theorem tx_draws (f : Frame8) : (s.tx f).draws = s.draws := rfl

@[simp] theorem beginCollect_cfg (n : Nat) : (s.beginCollect n).cfg = s.cfg := rfl
@[simp] theorem beginCollect_txbuf (n : Nat) : (s.beginCollect n).txbuf = s.txbuf := rfl
@[simp] theorem beginCollect_rxbuf (n : Nat) : (s.beginCollect n).rxbuf = s.rxbuf := rfl
@[simp] theorem beginCollect_rxcnt (n : Nat) : (s.beginCollect n).rxcnt = 0 := rfl
@[simp] theorem beginCollect_explen (n : Nat) : (s.beginCollect n).explen = n := rfl
@[simp] theorem beginCollect_t0 (n : Nat) : (s.beginCollect n).t0 = s.now := rfl
@[simp] theorem beginCollect_tw (n : Nat) : (s.beginCollect n).tw = s.tw := rfl
@[simp] theorem beginCollect_acc (n : Nat) : (s.beginCollect n).acc = s.acc := rfl
@[simp] theorem beginCollect_seq (n : Nat) : (s.beginCollect n).seq = s.seq := rfl
@[simp] theorem beginCollect_cmdl (n : Nat) : (s.beginCollect n).cmdl = s.cmdl := rfl
@[simp] theorem beginCollect_pos (n : Nat) : (s.beginCollect n).pos = s.pos := rfl
@[simp] theorem beginCollect_took (n : Nat) : (s.beginCollect n).took = s.took := rfl
@[simp] theorem beginCollect_firstAvail (n : Nat) : (s.beginCollect n).firstAvail = none := rfl
@[simp] theorem beginCollect_ret1 (n : Nat) : (s.beginCollect n).ret1 = s.ret1 := rfl
@[simp] theorem beginCollect_ret2 (n : Nat) : (s.beginCollect n).ret2 = s.ret2 := rfl
@[simp] theorem beginCollect_ret3 (n : Nat) : (s.beginCollect n).ret3 = s.ret3 := rfl
@[simp] theorem beginCollect_ret4 (n : Nat) : (s.beginCollect n).ret4 = s.ret4 := rfl
@[simp] theorem beginCollect_status (n : Nat) : (s.beginCollect n).status = s.status := rfl
@[simp] theorem beginCollect_result (n : Nat) : (s.beginCollect n).result = s.result := rfl
@[simp] theorem beginCollect_deviceId (n : Nat) : (s.beginCollect n).deviceId = s.deviceId := rfl
@[simp] theorem beginCollect_fwVersion (n : Nat) : (s.beginCollect n).fwVersion = s.fwVersion := rfl
@[simp] theorem beginCollect_abcPeriod (n : Nat) : (s.beginCollect n).abcPeriod = s.abcPeriod := rfl
@[simp] theorem beginCollect_rxq (n : Nat) : (s.beginCollect n).rxq = s.rxq := rfl
@[simp] theorem beginCollect_txlog (n : Nat) : (s.beginCollect n).txlog = s.txlog := rfl
@[simp] theorem beginCollect_now (n : Nat) : (s.beginCollect n).now = s.now := rfl
@[simp] theorem beginCollect_hostData (n : Nat) : (s.beginCollect n).hostData = s.hostData := rfl
@[simp] theorem beginCollect_inputs (n : Nat) : (s.beginCollect n).inputs = s.inputs := rfl
@[simp] theorem beginCollect_repeating (n : Nat) : (s.beginCollect n).repeating = s.repeating := rfl
@[simp] theorem beginCollect_draws (n : Nat) : (s.beginCollect n).draws = s.draws := rfl

@[simp] theorem readAvail_cfg : s.readAvail.cfg = s.cfg := rfl
@[simp] theorem readAvail_txbuf : s.readAvail.txbuf = s.txbuf := rfl
@[simp] theorem readAvail_rxbuf : s.readAvail.rxbuf = s.rxbuf := rfl
@[simp] theorem readAvail_rxcnt : s.readAvail.rxcnt = s.rxcnt := rfl
@[simp] theorem readAvail_explen : s.readAvail.explen = s.explen := rfl
@[simp] theorem readAvail_t0 : s.readAvail.t0 = s.t0 := rfl
@[simp] theorem readAvail_tw : s.readAvail.tw = s.tw := rfl
@[simp] theorem readAvail_acc : s.readAvail.acc = s.acc := rfl
@[simp] theorem readAvail_seq : s.readAvail.seq = s.seq := rfl
@[simp] theorem readAvail_cmdl : s.readAvail.cmdl = s.cmdl := rfl
@[simp] theorem readAvail_pos : s.readAvail.pos = s.pos := rfl
@[simp] theorem readAvail_took : s.readAvail.took = false := rfl
@[simp] theorem readAvail_firstAvail : s.readAvail.firstAvail = some (s.firstAvail.getD s.rxq.length) := rfl
@[simp] theorem readAvail_ret1 : s.readAvail.ret1 = s.ret1 := rfl
@[simp] theorem readAvail_ret2 : s.readAvail.ret2 = s.ret2 := rfl
@[simp] theorem readAvail_ret3 : s.readAvail.ret3 = s.ret3 := rfl
@[simp] theorem readAvail_ret4 : s.readAvail.ret4 = s.ret4 := rfl
@[simp] theorem readAvail_status : s.readAvail.status = s.status := rfl
@[simp] theorem readAvail_result : s.readAvail.result = s.result := rfl
@[simp] theorem readAvail_deviceId : s.readAvail.deviceId = s.deviceId := rfl
@[simp] theorem readAvail_fwVersion : s.readAvail.fwVersion = s.fwVersion := rfl
@[simp] theorem readAvail_abcPeriod : s.readAvail.abcPeriod = s.abcPeriod := rfl
@[simp] theorem readAvail_rxq : s.readAvail.rxq = s.rxq := rfl
@[simp] theorem readAvail_txlog : s.readAvail.txlog = s.txlog := rfl
@[simp] theorem readAvail_now : s.readAvail.now = s.now := rfl
@[simp] theorem readAvail_hostData : s.readAvail.hostData = s.hostData := rfl
@[simp] theorem readAvail_inputs : s.readAvail.inputs = s.inputs := rfl
@[simp] theorem readAvail_repeating : s.readAvail.repeating = s.repeating := rfl
@[simp] theorem readAvail_draws : s.readAvail.draws = s.draws := rfl

@[simp] theorem takeByte_cfg (b : Byte) (q : List Byte) : (s.takeByte b q).cfg = s.cfg := rfl
@[simp] theorem takeByte_txbuf (b : Byte) (q : List Byte) : (s.takeByte b q).txbuf = s.txbuf := rfl
@[simp] theorem takeByte_rxbuf (b : Byte) (q : List Byte) : (s.takeByte b q).rxbuf = s.rxbuf.set s.rxcnt b := rfl
@[simp] theorem takeByte_rxcnt (b : Byte) (q : List Byte) : (s.takeByte b q).rxcnt = s.rxcnt + 1 := rfl
@[simp] theorem takeByte_explen (b : Byte) (q : List Byte) : (s.takeByte b q).explen = s.explen := rfl
@[simp] theorem takeByte_t0 (b : Byte) (q : List Byte) : (s.takeByte b q).t0 = s.t0 := rfl
@[simp] theorem takeByte_tw (b : Byte) (q : List Byte) : (s.takeByte b q).tw = s.tw := rfl
@[simp] theorem takeByte_acc (b : Byte) (q : List Byte) : (s.takeByte b q).acc = s.acc := rfl
@[simp] theorem takeByte_seq (b : Byte) (q : List Byte) : (s.takeByte b q).seq = s.seq := rfl
@[simp] theorem takeByte_cmdl (b : Byte) (q : List Byte) : (s.takeByte b q).cmdl = s.cmdl := rfl
@[simp] theorem takeByte_pos (b : Byte) (q : List Byte) : (s.takeByte b q).pos = s.pos := rfl
@[simp] theorem takeByte_took (b : Byte) (q : List Byte) : (s.takeByte b q).took = true := rfl
@[simp] theorem takeByte_firstAvail (b : Byte) (q : List Byte) : (s.takeByte b q).firstAvail = s.firstAvail := rfl
@[simp] theorem takeByte_ret1 (b : Byte) (q : List Byte) : (s.takeByte b q).ret1 = s.ret1 := rfl
@[simp] theorem takeByte_ret2 (b : Byte) (q : List Byte) : (s.takeByte b q).ret2 = s.ret2 := rfl
@[simp] theorem takeByte_ret3 (b : Byte) (q : List Byte) : (s.takeByte b q).ret3 = s.ret3 := rfl
@[simp] theorem takeByte_ret4 (b : Byte) (q : List Byte) : (s.takeByte b q).ret4 = s.ret4 := rfl
@[simp] theorem takeByte_status (b : Byte) (q : List Byte) : (s.takeByte b q).status = s.status := rfl
@[simp] theorem takeByte_result (b : Byte) (q : List Byte) : (s.takeByte b q).result = s.result := rfl
@[simp] theorem takeByte_deviceId (b : Byte) (q : List Byte) : (s.takeByte b q).deviceId = s.deviceId := rfl
@[simp] theorem takeByte_fwVersion (b : Byte) (q : List Byte) : (s.takeByte b q).fwVersion = s.fwVersion := rfl
@[simp] theorem takeByte_abcPeriod (b : Byte) (q : List Byte) : (s.takeByte b q).abcPeriod = s.abcPeriod := rfl
@[simp] theorem takeByte_rxq (b : Byte) (q : List Byte) : (s.takeByte b q).rxq = q := rfl
@[simp] theorem takeByte_txlog (b : Byte) (q : List Byte) : (s.takeByte b q).txlog = s.txlog := rfl
@[simp] theorem takeByte_now (b : Byte) (q : List Byte) : (s.takeByte b q).now = s.now := rfl
@[simp] theorem takeByte_hostData (b : Byte) (q : List Byte) : (s.takeByte b q).hostData = s.hostData := rfl
@[simp] theorem takeByte_inputs (b : Byte) (q : List Byte) : (s.takeByte b q).inputs = s.inputs := rfl
@[simp] theorem takeByte_repeating (b : Byte) (q : List Byte) : (s.takeByte b q).repeating = s.repeating := rfl
@[simp] theorem takeByte_draws (b : Byte) (q : List Byte) : (s.takeByte b q).draws = s.draws := rfl

@[simp] theorem discardPartial_cfg : s.discardPartial.cfg = s.cfg := rfl
@[simp] theorem discardPartial_txbuf : s.discardPartial.txbuf = s.txbuf := rfl
@[simp] theorem discardPartial_rxbuf : s.discardPartial.rxbuf = freeFrame s.draws := rfl
@[simp] theorem discardPartial_rxcnt : s.discardPartial.rxcnt = 0 := rfl
@[simp] theorem discardPartial_explen : s.discardPartial.explen = s.explen := rfl
@[simp] theorem discardPartial_t0 : s.discardPartial.t0 = s.t0 := rfl
@[simp] theorem discardPartial_tw : s.discardPartial.tw = s.tw := rfl
@[simp] theorem discardPartial_acc : s.discardPartial.acc = s.acc := rfl
@[simp] theorem discardPartial_seq : s.discardPartial.seq = s.seq := rfl
@[simp] theorem discardPartial_cmdl : s.discardPartial.cmdl = s.cmdl := rfl
@[simp] theorem discardPartial_pos : s.discardPartial.pos = s.pos := rfl
@[simp] theorem discardPartial_took : s.discardPartial.took = s.took := rfl
@[simp] theorem discardPartial_firstAvail : s.discardPartial.firstAvail = s.firstAvail := rfl
@[simp] theorem discardPartial_ret1 : s.discardPartial.ret1 = s.ret1 := rfl
@[simp] theorem discardPartial_ret2 : s.discardPartial.ret2 = s.ret2 := rfl
@[simp] theorem discardPartial_ret3 : s.discardPartial.ret3 = s.ret3 := rfl
@[simp] theorem discardPartial_ret4 : s.discardPartial.ret4 = s.ret4 := rfl
@[simp] theorem discardPartial_status : s.discardPartial.status = s.status := rfl
@[simp] theorem discardPartial_result : s.discardPartial.result = s.result := rfl
@[simp] theorem discardPartial_deviceId : s.discardPartial.deviceId = s.deviceId := rfl
@[simp] theorem discardPartial_fwVersion : s.discardPartial.fwVersion = s.fwVersion := rfl
@[simp] theorem discardPartial_abcPeriod : s.discardPartial.abcPeriod = s.abcPeriod := rfl
@[simp] theorem discardPartial_rxq : s.discardPartial.rxq = s.rxq := rfl
@[simp] theorem discardPartial_txlog : s.discardPartial.txlog = s.txlog := rfl
@[simp] theorem discardPartial_now : s.discardPartial.now = s.now := rfl
@[simp] theorem discardPartial_hostData : s.discardPartial.hostData = s.hostData := rfl
@[simp] theorem discardPartial_inputs : s.discardPartial.inputs = s.inputs := rfl
@[simp] theorem discardPartial_repeating : s.discardPartial.repeating = s.repeating := rfl
@[simp] theorem discardPartial_draws : s.discardPartial.draws = s.draws + 1 := rfl

@[simp] theorem setAcc_cfg (a : Half) : (s.setAcc a).cfg = s.cfg := rfl
@[simp] theorem setAcc_txbuf (a : Half) : (s.setAcc a).txbuf = s.txbuf := rfl
@[simp] theorem setAcc_rxbuf (a : Half) : (s.setAcc a).rxbuf = s.rxbuf := rfl
@[simp] theorem setAcc_rxcnt (a : Half) : (s.setAcc a).rxcnt = s.rxcnt := rfl
@[simp] theorem setAcc_explen (a : Half) : (s.setAcc a).explen = s.explen := rfl
@[simp] theorem setAcc_t0 (a : Half) : (s.setAcc a).t0 = s.t0 := rfl
@[simp] theorem setAcc_tw (a : Half) : (s.setAcc a).tw = s.tw := rfl
@[simp] theorem setAcc_acc (a : Half) : (s.setAcc a).acc = a := rfl
@[simp] theorem setAcc_seq (a : Half) : (s.setAcc a).seq = s.seq := rfl
@[simp] theorem setAcc_cmdl (a : Half) : (s.setAcc a).cmdl = s.cmdl := rfl
@[simp] theorem setAcc_pos (a : Half) : (s.setAcc a).pos = s.pos := rfl
@[simp] theorem setAcc_took (a : Half) : (s.setAcc a).took = s.took := rfl
@[simp] theorem setAcc_firstAvail (a : Half) : (s.setAcc a).firstAvail = s.firstAvail := rfl
@[simp] theorem setAcc_ret1 (a : Half) : (s.setAcc a).ret1 = s.ret1 := rfl
@[simp] theorem setAcc_ret2 (a : Half) : (s.setAcc a).ret2 = s.ret2 := rfl
@[simp] theorem setAcc_ret3 (a : Half) : (s.setAcc a).ret3 = s.ret3 := rfl
@[simp] theorem setAcc_ret4 (a : Half) : (s.setAcc a).ret4 = s.ret4 := rfl
@[simp] theorem setAcc_status (a : Half) : (s.setAcc a).status = s.status := rfl
@[simp] theorem setAcc_result (a : Half) : (s.setAcc a).result = s.result := rfl
@[simp] theorem setAcc_deviceId (a : Half) : (s.setAcc a).deviceId = s.deviceId := rfl
@[simp] theorem setAcc_fwVersion (a : Half) : (s.setAcc a).fwVersion = s.fwVersion := rfl
@[simp] theorem setAcc_abcPeriod (a : Half) : (s.setAcc a).abcPeriod = s.abcPeriod := rfl
@[simp] theorem setAcc_rxq (a : Half) : (s.setAcc a).rxq = s.rxq := rfl
@[simp] theorem setAcc_txlog (a : Half) : (s.setAcc a).txlog = s.txlog := rfl
@[simp] theorem setAcc_now (a : Half) : (s.setAcc a).now = s.now := rfl
@[simp] theorem setAcc_hostData (a : Half) : (s.setAcc a).hostData = s.hostData := rfl
@[simp] theorem setAcc_inputs (a : Half) : (s.setAcc a).inputs = s.inputs := rfl
@[simp] theorem setAcc_repeating (a : Half) : (s.setAcc a).repeating = s.repeating := rfl
@[simp] theorem setAcc_draws (a : Half) : (s.setAcc a).draws = s.draws := rfl

@[simp] theorem restart_cfg : s.restart.cfg = s.cfg := rfl
@[simp] theorem restart_txbuf : s.restart.txbuf = s.txbuf := rfl
@[simp] theorem restart_rxbuf : s.restart.rxbuf = s.rxbuf := rfl
@[simp] theorem restart_rxcnt : s.restart.rxcnt = s.rxcnt := rfl
@[simp] theorem restart_explen : s.restart.explen = s.explen := rfl
@[simp] theorem restart_t0 : s.restart.t0 = s.t0 := rfl
@[simp] theorem restart_tw : s.restart.tw = s.tw := rfl
@[simp] theorem restart_acc : s.restart.acc = s.acc := rfl
@[simp] theorem restart_seq : s.restart.seq = s.seq := rfl
@[simp] theorem restart_cmdl : s.restart.cmdl = s.cmdl := rfl
@[simp] theorem restart_pos : s.restart.pos = s.pos := rfl
@[simp] theorem restart_took : s.restart.took = s.took := rfl
@[simp] theorem restart_firstAvail : s.restart.firstAvail = s.firstAvail := rfl
@[simp] theorem restart_ret1 : s.restart.ret1 = s.ret1 := rfl
@[simp] theorem restart_ret2 : s.restart.ret2 = s.ret2 := rfl
@[simp] theorem restart_ret3 : s.restart.ret3 = s.ret3 := rfl
@[simp] theorem restart_ret4 : s.restart.ret4 = s.ret4 := rfl
@[simp] theorem restart_status : s.restart.status = s.status := rfl
@[simp] theorem restart_result : s.restart.result = s.result := rfl
@[simp] theorem restart_deviceId : s.restart.deviceId = s.deviceId := rfl
@[simp] theorem restart_fwVersion : s.restart.fwVersion = s.fwVersion := rfl
@[simp] theorem restart_abcPeriod : s.restart.abcPeriod = s.abcPeriod := rfl
@[simp] theorem restart_rxq : s.restart.rxq = keepFrom (Config.restartKeeps s.draws) 0 s.rxq := rfl
@[simp] theorem restart_txlog : s.restart.txlog = s.txlog := rfl
@[simp] theorem restart_now : s.restart.now = s.now := rfl
@[simp] theorem restart_hostData : s.restart.hostData = s.hostData := rfl
@[simp] theorem restart_inputs : s.restart.inputs = s.inputs := rfl
@[simp] theorem restart_repeating : s.restart.repeating = s.repeating := rfl
@[simp] theorem restart_draws : s.restart.draws = s.draws + 1 := rfl

@[simp] theorem setRxq_cfg (q : List Byte) : (s.setRxq q).cfg = s.cfg := rfl
@[simp] theorem setRxq_txbuf (q : List Byte) : (s.setRxq q).txbuf = s.txbuf := rfl
@[simp] theorem setRxq_rxbuf (q : List Byte) : (s.setRxq q).rxbuf = s.rxbuf := rfl
@[simp] theorem setRxq_rxcnt (q : List Byte) : (s.setRxq q).rxcnt = s.rxcnt := rfl
@[simp] theorem setRxq_explen (q : List Byte) : (s.setRxq q).explen = s.explen := rfl
@[simp] theorem setRxq_t0 (q : List Byte) : (s.setRxq q).t0 = s.t0 := rfl
@[simp] theorem setRxq_tw (q : List Byte) : (s.setRxq q).tw = s.tw := rfl
@[simp] theorem setRxq_acc (q : List Byte) : (s.setRxq q).acc = s.acc := rfl
@[simp] theorem setRxq_seq (q : List Byte) : (s.setRxq q).seq = s.seq := rfl
@[simp] theorem setRxq_cmdl (q : List Byte) : (s.setRxq q).cmdl = s.cmdl := rfl
@[simp] theorem setRxq_pos (q : List Byte) : (s.setRxq q).pos = s.pos := rfl
@[simp] theorem setRxq_took (q : List Byte) : (s.setRxq q).took = s.took := rfl
@[simp] theorem setRxq_firstAvail (q : List Byte) : (s.setRxq q).firstAvail = s.firstAvail := rfl
@[simp] theorem setRxq_ret1 (q : List Byte) : (s.setRxq q).ret1 = s.ret1 := rfl
@[simp] theorem setRxq_ret2 (q : List Byte) : (s.setRxq q).ret2 = s.ret2 := rfl
@[simp] theorem setRxq_ret3 (q : List Byte) : (s.setRxq q).ret3 = s.ret3 := rfl
@[simp] theorem setRxq_ret4 (q : List Byte) : (s.setRxq q).ret4 = s.ret4 := rfl
@[simp] theorem setRxq_status (q : List Byte) : (s.setRxq q).status = s.status := rfl
@[simp] theorem setRxq_result (q : List Byte) : (s.setRxq q).result = s.result := rfl
@[simp] theorem setRxq_deviceId (q : List Byte) : (s.setRxq q).deviceId = s.deviceId := rfl
@[simp] theorem setRxq_fwVersion (q : List Byte) : (s.setRxq q).fwVersion = s.fwVersion := rfl
@[simp] theorem setRxq_abcPeriod (q : List Byte) : (s.setRxq q).abcPeriod = s.abcPeriod := rfl
@[simp] theorem setRxq_rxq (q : List Byte) : (s.setRxq q).rxq = q := rfl
@[simp] theorem setRxq_txlog (q : List Byte) : (s.setRxq q).txlog = s.txlog := rfl
@[simp] theorem setRxq_now (q : List Byte) : (s.setRxq q).now = s.now := rfl
@[simp] theorem setRxq_hostData (q : List Byte) : (s.setRxq q).hostData = s.hostData := rfl
@[simp] theorem setRxq_inputs (q : List Byte) : (s.setRxq q).inputs = s.inputs := rfl
@[simp] theorem setRxq_repeating (q : List Byte) : (s.setRxq q).repeating = s.repeating := rfl
@[simp] theorem setRxq_draws (q : List Byte) : (s.setRxq q).draws = s.draws := rfl

@[simp] theorem setDeviceId_cfg (v : Word) : (s.setDeviceId v).cfg = s.cfg := rfl
@[simp] theorem setDeviceId_txbuf (v : Word) : (s.setDeviceId v).txbuf = s.txbuf := rfl
@[simp] theorem setDeviceId_rxbuf (v : Word) : (s.setDeviceId v).rxbuf = s.rxbuf := rfl
@[simp] theorem setDeviceId_rxcnt (v : Word) : (s.setDeviceId v).rxcnt = s.rxcnt := rfl
@[simp] theorem setDeviceId_explen (v : Word) : (s.setDeviceId v).explen = s.explen := rfl
@[simp] theorem setDeviceId_t0 (v : Word) : (s.setDeviceId v).t0 = s.t0 := rfl
@[simp] theorem setDeviceId_tw (v : Word) : (s.setDeviceId v).tw = s.tw := rfl
@[simp] theorem setDeviceId_acc (v : Word) : (s.setDeviceId v).acc = s.acc := rfl
@[simp] theorem setDeviceId_seq (v : Word) : (s.setDeviceId v).seq = s.seq := rfl
@[simp] theorem setDeviceId_cmdl (v : Word) : (s.setDeviceId v).cmdl = s.cmdl := rfl
@[simp] theorem setDeviceId_pos (v : Word) : (s.setDeviceId v).pos = s.pos := rfl
@[simp] theorem setDeviceId_took (v : Word) : (s.setDeviceId v).took = s.took := rfl
@[simp] theorem setDeviceId_firstAvail (v : Word) : (s.setDeviceId v).firstAvail = s.firstAvail := rfl
@[simp] theorem setDeviceId_ret1 (v : Word) : (s.setDeviceId v).ret1 = s.ret1 := rfl
@[simp] theorem setDeviceId_ret2 (v : Word) : (s.setDeviceId v).ret2 = s.ret2 := rfl
@[simp] theorem setDeviceId_ret3 (v : Word) : (s.setDeviceId v).ret3 = s.ret3 := rfl
@[simp] theorem setDeviceId_ret4 (v : Word) : (s.setDeviceId v).ret4 = s.ret4 := rfl
@[simp] theorem setDeviceId_status (v : Word) : (s.setDeviceId v).status = s.status := rfl
@[simp] theorem setDeviceId_result (v : Word) : (s.setDeviceId v).result = s.result := rfl
@[simp] theorem setDeviceId_deviceId (v : Word) : (s.setDeviceId v).deviceId = v := rfl
@[simp] theorem setDeviceId_fwVersion (v : Word) : (s.setDeviceId v).fwVersion = s.fwVersion := rfl
@[simp] theorem setDeviceId_abcPeriod (v : Word) : (s.setDeviceId v).abcPeriod = s.abcPeriod := rfl
@[simp] theorem setDeviceId_rxq (v : Word) : (s.setDeviceId v).rxq = s.rxq := rfl
@[simp] theorem setDeviceId_txlog (v : Word) : (s.setDeviceId v).txlog = s.txlog := rfl
@[simp] theorem setDeviceId_now (v : Word) : (s.setDeviceId v).now = s.now := rfl
@[simp] theorem setDeviceId_hostData (v : Word) : (s.setDeviceId v).hostData = s.hostData := rfl
@[simp] theorem setDeviceId_inputs (v : Word) : (s.setDeviceId v).inputs = s.inputs := rfl
@[simp] theorem setDeviceId_repeating (v : Word) : (s.setDeviceId v).repeating = s.repeating := rfl
@[simp] theorem setDeviceId_draws (v : Word) : (s.setDeviceId v).draws = s.draws := rfl

@[simp] theorem setFwVersion_cfg (v : Half) : (s.setFwVersion v).cfg = s.cfg := rfl
@[simp] theorem setFwVersion_txbuf (v : Half) : (s.setFwVersion v).txbuf = s.txbuf := rfl
@[simp] theorem setFwVersion_rxbuf (v : Half) : (s.setFwVersion v).rxbuf = s.rxbuf := rfl
@[simp] theorem setFwVersion_rxcnt (v : Half) : (s.setFwVersion v).rxcnt = s.rxcnt := rfl
@[simp] theorem setFwVersion_explen (v : Half) : (s.setFwVersion v).explen = s.explen := rfl
@[simp] theorem setFwVersion_t0 (v : Half) : (s.setFwVersion v).t0 = s.t0 := rfl
@[simp] theorem setFwVersion_tw (v : Half) : (s.setFwVersion v).tw = s.tw := rfl
@[simp] theorem setFwVersion_acc (v : Half) : (s.setFwVersion v).acc = s.acc := rfl
@[simp] theorem setFwVersion_seq (v : Half) : (s.setFwVersion v).seq = s.seq := rfl
@[simp] theorem setFwVersion_cmdl (v : Half) : (s.setFwVersion v).cmdl = s.cmdl := rfl
@[simp] theorem setFwVersion_pos (v : Half) : (s.setFwVersion v).pos = s.pos := rfl
@[simp] theorem setFwVersion_took (v : Half) : (s.setFwVersion v).took = s.took := rfl
@[simp] theorem setFwVersion_firstAvail (v : Half) : (s.setFwVersion v).firstAvail = s.firstAvail := rfl
@[simp] theorem setFwVersion_ret1 (v : Half) : (s.setFwVersion v).ret1 = s.ret1 := rfl
@[simp] theorem setFwVersion_ret2 (v : Half) : (s.setFwVersion v).ret2 = s.ret2 := rfl
@[simp] theorem setFwVersion_ret3 (v : Half) : (s.setFwVersion v).ret3 = s.ret3 := rfl
@[simp] theorem setFwVersion_ret4 (v : Half) : (s.setFwVersion v).ret4 = s.ret4 := rfl
@[simp] theorem setFwVersion_status (v : Half) : (s.setFwVersion v).status = s.status := rfl
@[simp] theorem setFwVersion_result (v : Half) : (s.setFwVersion v).result = s.result := rfl
@[simp] theorem setFwVersion_deviceId (v : Half) : (s.setFwVersion v).deviceId = s.deviceId := rfl
@[simp] theorem setFwVersion_fwVersion (v : Half) : (s.setFwVersion v).fwVersion = v := rfl
@[simp] theorem setFwVersion_abcPeriod (v : Half) : (s.setFwVersion v).abcPeriod = s.abcPeriod := rfl
@[simp] theorem setFwVersion_rxq (v : Half) : (s.setFwVersion v).rxq = s.rxq := rfl
@[simp] theorem setFwVersion_txlog (v : Half) : (s.setFwVersion v).txlog = s.txlog := rfl
@[simp] theorem setFwVersion_now (v : Half) : (s.setFwVersion v).now = s.now := rfl
@[simp] theorem setFwVersion_hostData (v : Half) : (s.setFwVersion v).hostData = s.hostData := rfl
@[simp] theorem setFwVersion_inputs (v : Half) : (s.setFwVersion v).inputs = s.inputs := rfl
@[simp] theorem setFwVersion_repeating (v : Half) : (s.setFwVersion v).repeating = s.repeating := rfl
@[simp] theorem setFwVersion_draws (v : Half) : (s.setFwVersion v).draws = s.draws := rfl

@[simp] theorem setAbcPeriod_cfg (v : Half) : (s.setAbcPeriod v).cfg = s.cfg := rfl
@[simp] theorem setAbcPeriod_txbuf (v : Half) : (s.setAbcPeriod v).txbuf = s.txbuf := rfl
@[simp] theorem setAbcPeriod_rxbuf (v : Half) : (s.setAbcPeriod v).rxbuf = s.rxbuf := rfl
@[simp] theorem setAbcPeriod_rxcnt (v : Half) : (s.setAbcPeriod v).rxcnt = s.rxcnt := rfl
@[simp] theorem setAbcPeriod_explen (v : Half) : (s.setAbcPeriod v).explen = s.explen := rfl
@[simp] theorem setAbcPeriod_t0 (v : Half) : (s.setAbcPeriod v).t0 = s.t0 := rfl
@[simp] theorem setAbcPeriod_tw (v : Half) : (s.setAbcPeriod v).tw = s.tw := rfl
@[simp] theorem setAbcPeriod_acc (v : Half) : (s.setAbcPeriod v).acc = s.acc := rfl
@[simp] theorem setAbcPeriod_seq (v : Half) : (s.setAbcPeriod v).seq = s.seq := rfl
@[simp] theorem setAbcPeriod_cmdl (v : Half) : (s.setAbcPeriod v).cmdl = s.cmdl := rfl
@[simp] theorem setAbcPeriod_pos (v : Half) : (s.setAbcPeriod v).pos = s.pos := rfl
@[simp] theorem setAbcPeriod_took (v : Half) : (s.setAbcPeriod v).took = s.took := rfl
@[simp] theorem setAbcPeriod_firstAvail (v : Half) : (s.setAbcPeriod v).firstAvail = s.firstAvail := rfl
@[simp] theorem setAbcPeriod_ret1 (v : Half) : (s.setAbcPeriod v).ret1 = s.ret1 := rfl
@[simp] theorem setAbcPeriod_ret2 (v : Half) : (s.setAbcPeriod v).ret2 = s.ret2 := rfl
@[simp] theorem setAbcPeriod_ret3 (v : Half) : (s.setAbcPeriod v).ret3 = s.ret3 := rfl
@[simp] theorem setAbcPeriod_ret4 (v : Half) : (s.setAbcPeriod v).ret4 = s.ret4 := rfl
@[simp] theorem setAbcPeriod_status (v : Half) : (s.setAbcPeriod v).status = s.status := rfl
@[simp] theorem setAbcPeriod_result (v : Half) : (s.setAbcPeriod v).result = s.result := rfl
@[simp] theorem setAbcPeriod_deviceId (v : Half) : (s.setAbcPeriod v).deviceId = s.deviceId := rfl
@[simp] theorem setAbcPeriod_fwVersion (v : Half) : (s.setAbcPeriod v).fwVersion = s.fwVersion := rfl
@[simp] theorem setAbcPeriod_abcPeriod (v : Half) : (s.setAbcPeriod v).abcPeriod = v := rfl
@[simp] theorem setAbcPeriod_rxq (v : Half) : (s.setAbcPeriod v).rxq = s.rxq := rfl
@[simp] theorem setAbcPeriod_txlog (v : Half) : (s.setAbcPeriod v).txlog = s.txlog := rfl
@[simp] theorem setAbcPeriod_now (v : Half) : (s.setAbcPeriod v).now = s.now := rfl
@[simp] theorem setAbcPeriod_hostData (v : Half) : (s.setAbcPeriod v).hostData = s.hostData := rfl
@[simp] theorem setAbcPeriod_inputs (v : Half) : (s.setAbcPeriod v).inputs = s.inputs := rfl
@[simp] theorem setAbcPeriod_repeating (v : Half) : (s.setAbcPeriod v).repeating = s.repeating := rfl
@[simp] theorem setAbcPeriod_draws (v : Half) : (s.setAbcPeriod v).draws = s.draws := rfl

@[simp] theorem lineAppend_cfg (b : Byte) : (s.lineAppend b).cfg = s.cfg := rfl
@[simp] theorem lineAppend_txbuf (b : Byte) : (s.lineAppend b).txbuf = s.txbuf := rfl
@[simp] theorem lineAppend_rxbuf (b : Byte) : (s.lineAppend b).rxbuf = s.rxbuf := rfl
@[simp] theorem lineAppend_rxcnt (b : Byte) : (s.lineAppend b).rxcnt = s.rxcnt := rfl
@[simp] theorem lineAppend_explen (b : Byte) : (s.lineAppend b).explen = s.explen := rfl
@[simp] theorem lineAppend_t0 (b : Byte) : (s.lineAppend b).t0 = s.t0 := rfl
@[simp] theorem lineAppend_tw (b : Byte) : (s.lineAppend b).tw = s.tw := rfl
@[simp] theorem lineAppend_acc (b : Byte) : (s.lineAppend b).acc = s.acc := rfl
@[simp] theorem lineAppend_seq (b : Byte) : (s.lineAppend b).seq = s.seq := rfl
@[simp] theorem lineAppend_cmdl (b : Byte) : (s.lineAppend b).cmdl = s.cmdl := rfl
@[simp] theorem lineAppend_pos (b : Byte) : (s.lineAppend b).pos = s.pos := rfl
@[simp] theorem lineAppend_took (b : Byte) : (s.lineAppend b).took = s.took := rfl
@[simp] theorem lineAppend_firstAvail (b : Byte) : (s.lineAppend b).firstAvail = s.firstAvail := rfl
@[simp] theorem lineAppend_ret1 (b : Byte) : (s.lineAppend b).ret1 = s.ret1 := rfl
@[simp] theorem lineAppend_ret2 (b : Byte) : (s.lineAppend b).ret2 = s.ret2 := rfl
@[simp] theorem lineAppend_ret3 (b : Byte) : (s.lineAppend b).ret3 = s.ret3 := rfl
@[simp] theorem lineAppend_ret4 (b : Byte) : (s.lineAppend b).ret4 = s.ret4 := rfl
@[simp] theorem lineAppend_status (b : Byte) : (s.lineAppend b).status = s.status := rfl
@[simp] theorem lineAppend_result (b : Byte) : (s.lineAppend b).result = s.result := rfl
@[simp] theorem lineAppend_deviceId (b : Byte) : (s.lineAppend b).deviceId = s.deviceId := rfl
@[simp] theorem lineAppend_fwVersion (b : Byte) : (s.lineAppend b).fwVersion = s.fwVersion := rfl
@[simp] theorem lineAppend_abcPeriod (b : Byte) : (s.lineAppend b).abcPeriod = s.abcPeriod := rfl
@[simp] theorem lineAppend_rxq (b : Byte) : (s.lineAppend b).rxq = s.queueAfter b := rfl
@[simp] theorem lineAppend_txlog (b : Byte) : (s.lineAppend b).txlog = s.txlog := rfl
@[simp] theorem lineAppend_now (b : Byte) : (s.lineAppend b).now = s.now := rfl
@[simp] theorem lineAppend_hostData (b : Byte) : (s.lineAppend b).hostData = s.hostData := rfl
@[simp] theorem lineAppend_inputs (b : Byte) : (s.lineAppend b).inputs = s.inputs := rfl
@[simp] theorem lineAppend_repeating (b : Byte) : (s.lineAppend b).repeating = s.repeating := rfl
@[simp] theorem lineAppend_draws (b : Byte) : (s.lineAppend b).draws = s.draws + 1 := rfl

@[simp] theorem tick_cfg (ms : Nat) : (s.tick ms).cfg = s.cfg := rfl
@[simp] theorem tick_txbuf (ms : Nat) : (s.tick ms).txbuf = s.txbuf := rfl
@[simp] theorem tick_rxbuf (ms : Nat) : (s.tick ms).rxbuf = s.rxbuf := rfl
@[simp] theorem tick_rxcnt (ms : Nat) : (s.tick ms).rxcnt = s.rxcnt := rfl
@[simp] theorem tick_explen (ms : Nat) : (s.tick ms).explen = s.explen := rfl
@[simp] theorem tick_t0 (ms : Nat) : (s.tick ms).t0 = s.t0 := rfl
@[simp] theorem tick_tw (ms : Nat) : (s.tick ms).tw = s.tw := rfl
@[simp] theorem tick_acc (ms : Nat) : (s.tick ms).acc = s.acc := rfl
@[simp] theorem tick_seq (ms : Nat) : (s.tick ms).seq = s.seq := rfl
@[simp] theorem tick_cmdl (ms : Nat) : (s.tick ms).cmdl = s.cmdl := rfl
@[simp] theorem tick_pos (ms : Nat) : (s.tick ms).pos = s.pos := rfl
@[simp] theorem tick_took (ms : Nat) : (s.tick ms).took = s.took := rfl
@[simp] theorem tick_firstAvail (ms : Nat) : (s.tick ms).firstAvail = s.firstAvail := rfl
@[simp] theorem tick_ret1 (ms : Nat) : (s.tick ms).ret1 = s.ret1 := rfl
@[simp] theorem tick_ret2 (ms : Nat) : (s.tick ms).ret2 = s.ret2 := rfl
@[simp] theorem tick_ret3 (ms : Nat) : (s.tick ms).ret3 = s.ret3 := rfl
@[simp] theorem tick_ret4 (ms : Nat) : (s.tick ms).ret4 = s.ret4 := rfl
@[simp] theorem tick_status (ms : Nat) : (s.tick ms).status = s.status := rfl
@[simp] theorem tick_result (ms : Nat) : (s.tick ms).result = s.result := rfl
@[simp] theorem tick_deviceId (ms : Nat) : (s.tick ms).deviceId = s.deviceId := rfl
@[simp] theorem tick_fwVersion (ms : Nat) : (s.tick ms).fwVersion = s.fwVersion := rfl
@[simp] theorem tick_abcPeriod (ms : Nat) : (s.tick ms).abcPeriod = s.abcPeriod := rfl
@[simp] theorem tick_rxq (ms : Nat) : (s.tick ms).rxq = s.rxq := rfl
@[simp] theorem tick_txlog (ms : Nat) : (s.tick ms).txlog = s.txlog := rfl
@[simp] theorem tick_now (ms : Nat) : (s.tick ms).now = s.now + BitVec.ofNat 32 ms := rfl
@[simp] theorem tick_hostData (ms : Nat) : (s.tick ms).hostData = s.hostData := rfl
@[simp] theorem tick_inputs (ms : Nat) : (s.tick ms).inputs = s.inputs := rfl
@[simp] theorem tick_repeating (ms : Nat) : (s.tick ms).repeating = s.repeating := rfl
@[simp] theorem tick_draws (ms : Nat) : (s.tick ms).draws = s.draws := rfl

@[simp] theorem answerHost_cfg (v : Word) : (s.answerHost v).cfg = s.cfg := rfl
@[simp] theorem answerHost_txbuf (v : Word) : (s.answerHost v).txbuf = s.txbuf := rfl
@[simp] theorem answerHost_rxbuf (v : Word) : (s.answerHost v).rxbuf = s.rxbuf := rfl
@[simp] theorem answerHost_rxcnt (v : Word) : (s.answerHost v).rxcnt = s.rxcnt := rfl
@[simp] theorem answerHost_explen (v : Word) : (s.answerHost v).explen = s.explen := rfl
@[simp] theorem answerHost_t0 (v : Word) : (s.answerHost v).t0 = s.t0 := rfl
@[simp] theorem answerHost_tw (v : Word) : (s.answerHost v).tw = s.tw := rfl
@[simp] theorem answerHost_acc (v : Word) : (s.answerHost v).acc = s.acc := rfl
@[simp] theorem answerHost_seq (v : Word) : (s.answerHost v).seq = s.seq := rfl
@[simp] theorem answerHost_cmdl (v : Word) : (s.answerHost v).cmdl = s.cmdl := rfl
@[simp] theorem answerHost_pos (v : Word) : (s.answerHost v).pos = s.pos := rfl
@[simp] theorem answerHost_took (v : Word) : (s.answerHost v).took = s.took := rfl
@[simp] theorem answerHost_firstAvail (v : Word) : (s.answerHost v).firstAvail = s.firstAvail := rfl
@[simp] theorem answerHost_ret1 (v : Word) : (s.answerHost v).ret1 = s.ret1 := rfl
@[simp] theorem answerHost_ret2 (v : Word) : (s.answerHost v).ret2 = s.ret2 := rfl
@[simp] theorem answerHost_ret3 (v : Word) : (s.answerHost v).ret3 = s.ret3 := rfl
@[simp] theorem answerHost_ret4 (v : Word) : (s.answerHost v).ret4 = s.ret4 := rfl
@[simp] theorem answerHost_status (v : Word) : (s.answerHost v).status = s.status := rfl
@[simp] theorem answerHost_result (v : Word) : (s.answerHost v).result = s.result := rfl
@[simp] theorem answerHost_deviceId (v : Word) : (s.answerHost v).deviceId = s.deviceId := rfl
@[simp] theorem answerHost_fwVersion (v : Word) : (s.answerHost v).fwVersion = s.fwVersion := rfl
@[simp] theorem answerHost_abcPeriod (v : Word) : (s.answerHost v).abcPeriod = s.abcPeriod := rfl
@[simp] theorem answerHost_rxq (v : Word) : (s.answerHost v).rxq = s.rxq := rfl
@[simp] theorem answerHost_txlog (v : Word) : (s.answerHost v).txlog = s.txlog := rfl
@[simp] theorem answerHost_now (v : Word) : (s.answerHost v).now = s.now := rfl
@[simp] theorem answerHost_hostData (v : Word) : (s.answerHost v).hostData = v := rfl
@[simp] theorem answerHost_inputs (v : Word) : (s.answerHost v).inputs = s.inputs := rfl
@[simp] theorem answerHost_repeating (v : Word) : (s.answerHost v).repeating = s.repeating := rfl
@[simp] theorem answerHost_draws (v : Word) : (s.answerHost v).draws = s.draws := rfl

@[simp] theorem setInputs_cfg (l : List Input) : (s.setInputs l).cfg = s.cfg := rfl
@[simp] theorem setInputs_txbuf (l : List Input) : (s.setInputs l).txbuf = s.txbuf := rfl
@[simp] theorem setInputs_rxbuf (l : List Input) : (s.setInputs l).rxbuf = s.rxbuf := rfl
@[simp] theorem setInputs_rxcnt (l : List Input) : (s.setInputs l).rxcnt = s.rxcnt := rfl
@[simp] theorem setInputs_explen (l : List Input) : (s.setInputs l).explen = s.explen := rfl
@[simp] theorem setInputs_t0 (l : List Input) : (s.setInputs l).t0 = s.t0 := rfl
@[simp] theorem setInputs_tw (l : List Input) : (s.setInputs l).tw = s.tw := rfl
@[simp] theorem setInputs_acc (l : List Input) : (s.setInputs l).acc = s.acc := rfl
@[simp] theorem setInputs_seq (l : List Input) : (s.setInputs l).seq = s.seq := rfl
@[simp] theorem setInputs_cmdl (l : List Input) : (s.setInputs l).cmdl = s.cmdl := rfl
@[simp] theorem setInputs_pos (l : List Input) : (s.setInputs l).pos = s.pos := rfl
@[simp] theorem setInputs_took (l : List Input) : (s.setInputs l).took = s.took := rfl
@[simp] theorem setInputs_firstAvail (l : List Input) : (s.setInputs l).firstAvail = s.firstAvail := rfl
@[simp] theorem setInputs_ret1 (l : List Input) : (s.setInputs l).ret1 = s.ret1 := rfl
@[simp] theorem setInputs_ret2 (l : List Input) : (s.setInputs l).ret2 = s.ret2 := rfl
@[simp] theorem setInputs_ret3 (l : List Input) : (s.setInputs l).ret3 = s.ret3 := rfl
@[simp] theorem setInputs_ret4 (l : List Input) : (s.setInputs l).ret4 = s.ret4 := rfl
@[simp] theorem setInputs_status (l : List Input) : (s.setInputs l).status = s.status := rfl
@[simp] theorem setInputs_result (l : List Input) : (s.setInputs l).result = s.result := rfl
@[simp] theorem setInputs_deviceId (l : List Input) : (s.setInputs l).deviceId = s.deviceId := rfl
@[simp] theorem setInputs_fwVersion (l : List Input) : (s.setInputs l).fwVersion = s.fwVersion := rfl
@[simp] theorem setInputs_abcPeriod (l : List Input) : (s.setInputs l).abcPeriod = s.abcPeriod := rfl
@[simp] theorem setInputs_rxq (l : List Input) : (s.setInputs l).rxq = s.rxq := rfl
@[simp] theorem setInputs_txlog (l : List Input) : (s.setInputs l).txlog = s.txlog := rfl
@[simp] theorem setInputs_now (l : List Input) : (s.setInputs l).now = s.now := rfl
@[simp] theorem setInputs_hostData (l : List Input) : (s.setInputs l).hostData = s.hostData := rfl
@[simp] theorem setInputs_inputs (l : List Input) : (s.setInputs l).inputs = l := rfl
@[simp] theorem setInputs_repeating (l : List Input) : (s.setInputs l).repeating = s.repeating := rfl
@[simp] theorem setInputs_draws (l : List Input) : (s.setInputs l).draws = s.draws := rfl

@[simp] theorem bindRet_cfg (k : Slot) (r : Ret) : (s.bindRet k r).cfg = s.cfg := by cases k <;> rfl
@[simp] theorem bindRet_txbuf (k : Slot) (r : Ret) : (s.bindRet k r).txbuf = s.txbuf := by cases k <;> rfl
@[simp] theorem bindRet_rxbuf (k : Slot) (r : Ret) : (s.bindRet k r).rxbuf = s.rxbuf := by cases k <;> rfl
@[simp] theorem bindRet_rxcnt (k : Slot) (r : Ret) : (s.bindRet k r).rxcnt = s.rxcnt := by cases k <;> rfl
@[simp] theorem bindRet_explen (k : Slot) (r : Ret) : (s.bindRet k r).explen = s.explen := by cases k <;> rfl
@[simp] theorem bindRet_t0 (k : Slot) (r : Ret) : (s.bindRet k r).t0 = s.t0 := by cases k <;> rfl
@[simp] theorem bindRet_tw (k : Slot) (r : Ret) : (s.bindRet k r).tw = s.tw := by cases k <;> rfl
@[simp] theorem bindRet_acc (k : Slot) (r : Ret) : (s.bindRet k r).acc = s.acc := by cases k <;> rfl
@[simp] theorem bindRet_seq (k : Slot) (r : Ret) : (s.bindRet k r).seq = s.seq := by cases k <;> rfl
@[simp] theorem bindRet_cmdl (k : Slot) (r : Ret) : (s.bindRet k r).cmdl = s.cmdl := by cases k <;> rfl
@[simp] theorem bindRet_pos (k : Slot) (r : Ret) : (s.bindRet k r).pos = s.pos := by cases k <;> rfl
@[simp] theorem bindRet_took (k : Slot) (r : Ret) : (s.bindRet k r).took = s.took := by cases k <;> rfl
@[simp] theorem bindRet_firstAvail (k : Slot) (r : Ret) : (s.bindRet k r).firstAvail = s.firstAvail := by cases k <;> rfl
@[simp] theorem bindRet_status (k : Slot) (r : Ret) : (s.bindRet k r).status = s.status := by cases k <;> rfl
@[simp] theorem bindRet_result (k : Slot) (r : Ret) : (s.bindRet k r).result = s.result := by cases k <;> rfl
@[simp] theorem bindRet_deviceId (k : Slot) (r : Ret) : (s.bindRet k r).deviceId = s.deviceId := by cases k <;> rfl
@[simp] theorem bindRet_fwVersion (k : Slot) (r : Ret) : (s.bindRet k r).fwVersion = s.fwVersion := by cases k <;> rfl
@[simp] theorem bindRet_abcPeriod (k : Slot) (r : Ret) : (s.bindRet k r).abcPeriod = s.abcPeriod := by cases k <;> rfl
@[simp] theorem bindRet_rxq (k : Slot) (r : Ret) : (s.bindRet k r).rxq = s.rxq := by cases k <;> rfl
@[simp] theorem bindRet_txlog (k : Slot) (r : Ret) : (s.bindRet k r).txlog = s.txlog := by cases k <;> rfl
@[simp] theorem bindRet_now (k : Slot) (r : Ret) : (s.bindRet k r).now = s.now := by cases k <;> rfl
@[simp] theorem bindRet_hostData (k : Slot) (r : Ret) : (s.bindRet k r).hostData = s.hostData := by cases k <;> rfl
@[simp] theorem bindRet_inputs (k : Slot) (r : Ret) : (s.bindRet k r).inputs = s.inputs := by cases k <;> rfl
@[simp] theorem bindRet_repeating (k : Slot) (r : Ret) : (s.bindRet k r).repeating = s.repeating := by cases k <;> rfl
@[simp] theorem bindRet_draws (k : Slot) (r : Ret) : (s.bindRet k r).draws = s.draws := by cases k <;> rfl
@[simp] theorem ret_bindRet (k : Slot) (r : Ret) : (s.bindRet k r).ret k = r := by cases k <;> rfl
theorem ret_bindRet_ne (k j : Slot) (r : Ret) (h : j ≠ k) : (s.bindRet k r).ret j = s.ret j := by
  cases k <;> cases j <;> first | rfl | exact absurd rfl h

@[simp] theorem coreReset_cfg : s.coreReset.cfg = s.cfg := rfl
@[simp] theorem coreReset_txbuf : s.coreReset.txbuf = State.reset.txbuf := rfl
@[simp] theorem coreReset_rxbuf : s.coreReset.rxbuf = State.reset.rxbuf := rfl
@[simp] theorem coreReset_rxcnt : s.coreReset.rxcnt = State.reset.rxcnt := rfl
@[simp] theorem coreReset_explen : s.coreReset.explen = State.reset.explen := rfl
@[simp] theorem coreReset_t0 : s.coreReset.t0 = State.reset.t0 := rfl
@[simp] theorem coreReset_tw : s.coreReset.tw = State.reset.tw := rfl
@[simp] theorem coreReset_acc : s.coreReset.acc = State.reset.acc := rfl
@[simp] theorem coreReset_seq : s.coreReset.seq = State.reset.seq := rfl
@[simp] theorem coreReset_cmdl : s.coreReset.cmdl = State.reset.cmdl := rfl
@[simp] theorem coreReset_pos : s.coreReset.pos = State.reset.pos := rfl
@[simp] theorem coreReset_took : s.coreReset.took = State.reset.took := rfl
@[simp] theorem coreReset_firstAvail : s.coreReset.firstAvail = State.reset.firstAvail := rfl
@[simp] theorem coreReset_ret1 : s.coreReset.ret1 = State.reset.ret1 := rfl
@[simp] theorem coreReset_ret2 : s.coreReset.ret2 = State.reset.ret2 := rfl
@[simp] theorem coreReset_ret3 : s.coreReset.ret3 = State.reset.ret3 := rfl
@[simp] theorem coreReset_ret4 : s.coreReset.ret4 = State.reset.ret4 := rfl
@[simp] theorem coreReset_status : s.coreReset.status = State.reset.status := rfl
@[simp] theorem coreReset_result : s.coreReset.result = State.reset.result := rfl
@[simp] theorem coreReset_deviceId : s.coreReset.deviceId = State.reset.deviceId := rfl
@[simp] theorem coreReset_fwVersion : s.coreReset.fwVersion = State.reset.fwVersion := rfl
@[simp] theorem coreReset_abcPeriod : s.coreReset.abcPeriod = State.reset.abcPeriod := rfl
@[simp] theorem coreReset_rxq : s.coreReset.rxq = s.rxq := rfl
@[simp] theorem coreReset_txlog : s.coreReset.txlog = s.txlog := rfl
@[simp] theorem coreReset_now : s.coreReset.now = s.now := rfl
@[simp] theorem coreReset_hostData : s.coreReset.hostData = s.hostData := rfl
@[simp] theorem coreReset_inputs : s.coreReset.inputs = s.inputs := rfl
@[simp] theorem coreReset_repeating : s.coreReset.repeating = s.repeating := rfl
@[simp] theorem coreReset_draws : s.coreReset.draws = s.draws := rfl

@[simp] theorem goto_ret (p : Pos) (k : Slot) : (s.goto p).ret k = s.ret k := by cases k <;> rfl
@[simp] theorem accept_ret (w : Word) (k : Slot) : (s.accept w).ret k = s.ret k := by cases k <;> rfl
@[simp] theorem complete_ret (ok : Bool) (err : ErrKind) (r : Word) (k : Slot) : (s.complete ok err r).ret k = s.ret k := by cases k <;> rfl
@[simp] theorem beginWait_ret (k : Slot) : s.beginWait.ret k = s.ret k := by cases k <;> rfl
@[simp] theorem beginPoll_ret (k : Slot) : s.beginPoll.ret k = s.ret k := by cases k <;> rfl
@[simp] theorem buildReq_ret (fn : FnCode) (a : Byte) (v : Half) (k : Slot) : (s.buildReq fn a v).ret k = s.ret k := by cases k <;> rfl
@[simp] theorem tx_ret (f : Frame8) (k : Slot) : (s.tx f).ret k = s.ret k := by cases k <;> rfl
@[simp] theorem beginCollect_ret (n : Nat) (k : Slot) : (s.beginCollect n).ret k = s.ret k := by cases k <;> rfl
@[simp] theorem readAvail_ret (k : Slot) : s.readAvail.ret k = s.ret k := by cases k <;> rfl
@[simp] theorem takeByte_ret (b : Byte) (q : List Byte) (k : Slot) : (s.takeByte b q).ret k = s.ret k := by cases k <;> rfl
@[simp] theorem discardPartial_ret (k : Slot) : s.discardPartial.ret k = s.ret k := by cases k <;> rfl
@[simp] theorem setAcc_ret (a : Half) (k : Slot) : (s.setAcc a).ret k = s.ret k := by cases k <;> rfl
@[simp] theorem restart_ret (k : Slot) : s.restart.ret k = s.ret k := by cases k <;> rfl
@[simp] theorem setRxq_ret (q : List Byte) (k : Slot) : (s.setRxq q).ret k = s.ret k := by cases k <;> rfl
@[simp] theorem setDeviceId_ret (v : Word) (k : Slot) : (s.setDeviceId v).ret k = s.ret k := by cases k <;> rfl
@[simp] theorem setFwVersion_ret (v : Half) (k : Slot) : (s.setFwVersion v).ret k = s.ret k := by cases k <;> rfl
@[simp] theorem setAbcPeriod_ret (v : Half) (k : Slot) : (s.setAbcPeriod v).ret k = s.ret k := by cases k <;> rfl
@[simp] theorem lineAppend_ret (b : Byte) (k : Slot) : (s.lineAppend b).ret k = s.ret k := by cases k <;> rfl
@[simp] theorem tick_ret (ms : Nat) (k : Slot) : (s.tick ms).ret k = s.ret k := by cases k <;> rfl
@[simp] theorem answerHost_ret (v : Word) (k : Slot) : (s.answerHost v).ret k = s.ret k := by cases k <;> rfl
@[simp] theorem setInputs_ret (l : List Input) (k : Slot) : (s.setInputs l).ret k = s.ret k := by cases k <;> rfl

end Sys2Proof.Machine.State
end

