-- ==== Sys2Proof/Laws/Ops.lean ====
section
/-! SUPPORT. For each shared operation, once, everything it can do. -/
namespace Sys2Proof.Machine

theorem waitOver_of_le {b : Word} {t : Nat} {s : State} (h : t ≤ (s.now - b).toNat) :
    s.waitOver b t = true := by
  simp only [State.waitOver, h, decide_true]

theorem waitOver_of_lt {b : Word} {t : Nat} {s : State} (h : (s.now - b).toNat < t) :
    s.waitOver b t = false := by
  simpa [State.waitOver] using h

theorem deadlinePassed_of_lt {s : State} (h : s.cfg.tDeadline < (s.now - s.t0).toNat) :
    s.deadlinePassed = true := by
  simpa [State.deadlinePassed] using h

theorem deadlinePassed_of_le {s : State} (h : (s.now - s.t0).toNat ≤ s.cfg.tDeadline) :
    s.deadlinePassed = false := by
  simpa [State.deadlinePassed] using h

/-- When an echo that is complete may not succeed (70_reset_and_hazards.md R293). -/
theorem echoLate_iff {s : State} : s.echoLate = true ↔ s.rxcnt = s.explen ∧ s.explen = 8 ∧
    s.cfg.pollMode = .sleepEveryPoll ∧ s.cfg.echoArrival = .firstPoll ∧ ∃ m, s.firstAvail = some m ∧ m < 8 := by
  have h : s.firstAvail.any (· < writeRspLen) = true ↔ ∃ m, s.firstAvail = some m ∧ m < 8 := by
    cases s.firstAvail <;> simp [show writeRspLen = 8 from rfl]
  simp only [State.echoLate, Bool.and_eq_true, decide_eq_true_eq, h, and_assoc]
  rfl

/-- An incomplete collection goes on. -/
theorem echoLate_of_short {s : State} (h : s.rxcnt ≠ s.explen) : s.echoLate = false :=
  Bool.eq_false_iff.2 fun e => h (echoLate_iff.1 e).1

/-- A collection that found all its bytes at its first poll may succeed. -/
theorem echoLate_of_whole {s : State} (h : ∀ m, s.firstAvail = some m → s.explen ≤ m) : s.echoLate = false := by
  refine Bool.eq_false_iff.2 fun e => ?_
  obtain ⟨-, h8, -, -, m, hm, hlt⟩ := echoLate_iff.1 e
  have := h m hm
  omega

theorem opStep_full {o : OpCall} {s : State} (h : s.echoLate = false) :
    opStep o .full s = .next (s.goto (afterFull o.slot s)) := by
  simp [opStep, h]

/-- Time that passes adds to what has elapsed since a sample, short of a wrap (00_scope.md R24). -/
theorem elapsed_add {n t : Word} {ms : Nat} (h : (n - t).toNat + ms < 2 ^ 32) :
    (n + BitVec.ofNat 32 ms - t).toNat = (n - t).toNat + ms := by
  have e : n + BitVec.ofNat 32 ms - t = (n - t) + BitVec.ofNat 32 ms := by
    rw [BitVec.sub_eq_add_neg, BitVec.sub_eq_add_neg, BitVec.add_assoc, BitVec.add_comm (BitVec.ofNat 32 ms),
      ← BitVec.add_assoc]
  rw [e, BitVec.toNat_add, BitVec.toNat_ofNat, Nat.mod_eq_of_lt (show ms < 2 ^ 32 by omega),
    Nat.mod_eq_of_lt h]

/-- The end of a wait either moves on, the wait being over, or changes nothing. -/
theorem endWait_next {b : Word} {t : Nat} {p : Pos} {s s' : State} (h : endWait b t p s = .next s') :
    (s.waitOver b t = true ∧ s' = s.goto p) ∨ (s.waitOver b t = false ∧ s' = s) := by
  unfold endWait at h
  cases hw : s.waitOver b t <;> simp [hw] at h <;> simp [h]

theorem endWait_over {b : Word} {t : Nat} {p : Pos} {s : State} (h : s.waitOver b t = true) :
    endWait b t p s = .next (s.goto p) := by
  simp [endWait, h]

theorem endWait_early {b : Word} {t : Nat} {p : Pos} {s : State} (h : s.waitOver b t = false) :
    endWait b t p s = .next s := by
  simp [endWait, h]

/-- `Tx` at the transmit position. -/
theorem transmit_at {f : Frame8} {s : State} {k : Slot} (h : s.pos = .op k .tx) :
    transmit f s = .next ((s.tx f).goto (.op k .collect)) := by
  simp [transmit, h]

/-- `CHECK_READ` at the check position. -/
theorem receiveRead_at {r : Frame7} {s : State} {k : Slot} (h : s.pos = .op k .check) :
    receiveRead r s =
      .next (((s.setAcc (checkReadAcc s.acc r)).bindRet k (checkRead r)).goto (.after k)) := by
  simp [receiveRead, h]

/-- `CHECK_WRITE` at the check position. -/
theorem receiveWrite_at {r : Frame8} {s : State} {k : Slot} (h : s.pos = .op k .check) :
    receiveWrite r s =
      .next (((s.setAcc (checkWriteAcc s.cfg.echoCheckRegister s.acc r s.txbuf)).bindRet k
        (checkWrite s.cfg.echoCheckRegister r s.txbuf)).goto (.after k)) := by
  simp [receiveWrite, h]

/-- Everything `Tx` can do. -/
theorem transmit_next {f : Frame8} {s t : State} (h : transmit f s = .next t) :
    ∃ k, s.pos = .op k .tx ∧ t = (s.tx f).goto (.op k .collect) := by
  unfold transmit at h
  split at h
  · exact ⟨_, ‹_›, by simpa using h.symm⟩
  · cases h

/-- Everything the check of a read response can do. -/
theorem receiveRead_next {r : Frame7} {s t : State} (h : receiveRead r s = .next t) :
    ∃ k, s.pos = .op k .check ∧
      t = ((s.setAcc (checkReadAcc s.acc r)).bindRet k (checkRead r)).goto (.after k) := by
  unfold receiveRead at h
  split at h
  · exact ⟨_, ‹_›, by simpa using h.symm⟩
  · cases h

/-- Everything the check of a write response can do. -/
theorem receiveWrite_next {r : Frame8} {s t : State} (h : receiveWrite r s = .next t) :
    ∃ k, s.pos = .op k .check ∧
      t = ((s.setAcc (checkWriteAcc s.cfg.echoCheckRegister s.acc r s.txbuf)).bindRet k
        (checkWrite s.cfg.echoCheckRegister r s.txbuf)).goto (.after k) := by
  unfold receiveWrite at h
  split at h
  · exact ⟨_, ‹_›, by simpa using h.symm⟩
  · cases h

/-- Everything `CLEAR()` can do in one micro-step. -/
theorem clearStep_next {p : ClearPos} {s t : State} (h : clearStep p s = .next t) :
    (p = .test ∧ t = s.goto (if s.cfg.transportHasRestart then .clear .restart else .clear .avail)) ∨
    (p = .restart ∧ t = s.restart.goto (.clear .settleBegin)) ∨
    (p = .settleBegin ∧ t = s.beginWait.goto (.clear .settleEnd)) ∨
    (p = .settleEnd ∧ (t = s.goto (.clear .avail) ∨ t = s)) ∨
    (p = .avail ∧ t = s.goto (if s.rxq.isEmpty then .cleared else .clear .discard)) ∨
    (p = .discard ∧ ∃ b q, s.rxq = b :: q ∧ t = (s.setRxq q).goto (.clear .avail)) := by
  cases p with
  | test => exact .inl ⟨rfl, by simpa [clearStep] using h.symm⟩
  | restart => exact .inr (.inl ⟨rfl, by simpa [clearStep] using h.symm⟩)
  | settleBegin => exact .inr (.inr (.inl ⟨rfl, by simpa [clearStep] using h.symm⟩))
  | settleEnd =>
    refine .inr (.inr (.inr (.inl ⟨rfl, ?_⟩)))
    obtain ⟨-, rfl⟩ | ⟨-, rfl⟩ := endWait_next h
    · exact .inl rfl
    · exact .inr rfl
  | avail => exact .inr (.inr (.inr (.inr (.inl ⟨rfl, by simpa [clearStep] using h.symm⟩))))
  | discard =>
    refine .inr (.inr (.inr (.inr (.inr ⟨rfl, ?_⟩))))
    simp only [clearStep] at h
    split at h
    · cases h
    · exact ⟨_, _, ‹_›, by simpa using h.symm⟩

/-- `CLEAR()` goes on at every position where a byte is there to be taken. -/
theorem clearStep_goes {p : ClearPos} {s : State} (h : p = .discard → s.rxq ≠ []) :
    ∃ t, clearStep p s = .next t := by
  cases p with
  | discard =>
    obtain ⟨b, q, hq⟩ := List.exists_cons_of_ne_nil (h rfl)
    exact ⟨(s.setRxq q).goto (.clear .avail), by simp only [clearStep, hq]⟩
  | _ => exact ⟨_, rfl⟩

/-- A register operation goes on at every position where a byte is there to be taken. -/
theorem opStep_goes {o : OpCall} {p : OpPos} {s : State} {k : Slot} (hk : s.pos = .op k p)
    (h : p = .take → s.rxq ≠ []) : ∃ t, opStep o p s = .next t := by
  cases p with
  | take =>
    obtain ⟨b, q, hq⟩ := List.exists_cons_of_ne_nil (h rfl)
    exact ⟨(s.takeByte b q).goto (.op o.slot .full), by simp only [opStep, hq]⟩
  | tx => exact ⟨_, transmit_at hk⟩
  | check =>
    simp only [opStep, checkStep]
    split
    exacts [⟨_, receiveRead_at hk⟩, ⟨_, receiveRead_at hk⟩, ⟨_, receiveWrite_at hk⟩]
  | _ => exact ⟨_, rfl⟩

theorem endWait_not_refused (b : Word) (t : Nat) (p : Pos) (s : State) (r : Refusal) :
    endWait b t p s ≠ .refused r := by
  simp [endWait]

theorem clearStep_not_refused (p : ClearPos) (s : State) (r : Refusal) : clearStep p s ≠ .refused r := by
  cases p <;> simp [clearStep, endWait_not_refused]
  split <;> simp

theorem transmit_not_refused (f : Frame8) (s : State) (r : Refusal) : transmit f s ≠ .refused r := by
  unfold transmit; split <;> simp

theorem receiveRead_not_refused (f : Frame7) (s : State) (r : Refusal) : receiveRead f s ≠ .refused r := by
  unfold receiveRead; split <;> simp

theorem receiveWrite_not_refused (f : Frame8) (s : State) (r : Refusal) :
    receiveWrite f s ≠ .refused r := by
  unfold receiveWrite; split <;> simp

theorem opStep_not_refused (o : OpCall) (p : OpPos) (s : State) (r : Refusal) :
    opStep o p s ≠ .refused r := by
  cases p <;> simp only [opStep, ne_eq]
  case settleEnd => exact endWait_not_refused _ _ _ _ _
  case pollEnd => exact endWait_not_refused _ _ _ _ _
  case tx => exact transmit_not_refused _ _ _
  case check =>
    unfold checkStep
    split
    exacts [receiveRead_not_refused _ _ _, receiveRead_not_refused _ _ _, receiveWrite_not_refused _ _ _]
  case take => split <;> simp
  case deadline => split <;> simp
  all_goals simp

/-- A checked read is the sentinel where it fails, and reports no error where it succeeds. -/
theorem checkRead_ok {r : Frame7} (h : (checkRead r).ok = true) : (checkRead r).err = .none := by
  unfold checkRead at *
  split at h
  · cases h
  · split at h
    · cases h
    · simp_all

theorem checkWrite_ok {c : Bool} {r t : Frame8} (h : (checkWrite c r t).ok = true) :
    (checkWrite c r t).err = .none := by
  unfold checkWrite at *
  split at h
  · cases h
  · split at h
    · cases h
    · simp_all

theorem timeoutRet_ok (fn : FnCode) : (timeoutRet fn).ok = false := by cases fn <;> rfl

/-- The CRC bytes of a built frame are the CRC of its first six bytes (41_frame_codec.md R151). -/
theorem builtFrame_crc (sl : Byte) (fn : FnCode) (a : Byte) (v : Half) :
    crc16 (builtFrame sl fn a v).toList 6 = joinBytes (builtFrame sl fn a v).b7 (builtFrame sl fn a v).b6 := by
  simp [builtFrame, requestFrame, Frame8.toList, requestCrc]

/-- What `BUILD_REQ` leaves in `ACC` is the CRC of the frame it leaves in `TXBUF`. -/
theorem crc16_builtFrame (sl : Byte) (fn : FnCode) (a : Byte) (v : Half) :
    crc16 (builtFrame sl fn a v).toList 6 = requestCrc sl fn a v := by
  simp [builtFrame, requestFrame, Frame8.toList, requestCrc]

/-- The echo tests in the order of 41_frame_codec.md R153. -/
theorem echoMismatch_iff {e : Bool} {r t : Frame8} : echoMismatch e r t = true ↔
    (e = true ∧ (r.b2 ≠ t.b2 ∨ r.b3 ≠ t.b3)) ∨ (r.b4 ≠ t.b4 ∨ r.b5 ≠ t.b5) := by
  simp [echoMismatch]

@[simp] theorem builtFrame_b1 (sl : Byte) (fn : FnCode) (a : Byte) (v : Half) : (builtFrame sl fn a v).b1 = fn.code := rfl

@[simp] theorem firstErr_of_ok (l : List ErrKind) (h : ∀ e ∈ l, e = .none) : firstErr l = .none := by
  induction l with
  | nil => rfl
  | cons e l ih =>
    rw [firstErr, if_pos (h e (by simp)), ih fun e he => h e (by simp [he])]

/-- A kept part of a queue is no longer than the queue. -/
theorem keepFrom_length_le (keeps : Nat → Bool) (q : List Byte) :
    ∀ i, (keepFrom keeps i q).length ≤ q.length := by
  induction q with
  | nil => intro i; simp [keepFrom]
  | cons b q ih =>
    intro i
    have := ih (i + 1)
    simp only [keepFrom]
    split <;> simp only [List.length_cons] <;> omega

/-- A kept part of a queue is a subsequence of it, in order. -/
theorem keepFrom_sublist (keeps : Nat → Bool) (q : List Byte) :
    ∀ i, (keepFrom keeps i q).Sublist q := by
  induction q with
  | nil => intro i; simp [keepFrom]
  | cons b q ih =>
    intro i
    simp only [keepFrom]
    split
    · exact (ih (i + 1)).cons_cons b
    · exact (ih (i + 1)).cons b

/-- Everything the arrival of a byte can do to the queue. -/
theorem queueAfter_cases (s : State) (b : Byte) :
    (s.queueAfter b = s.rxq ++ [b] ∧ ∀ d, s.cfg.rxFifoDepth = some d → s.rxq.length < d) ∨
    ∃ d, s.cfg.rxFifoDepth = some d ∧ d ≤ s.rxq.length ∧
      (s.queueAfter b = s.rxq ∨ s.queueAfter b = (s.rxq ++ [b]).drop 1 ∨
        (s.queueAfter b ≠ [] ∧ (s.queueAfter b).length ≤ d ∧ (s.queueAfter b).Sublist (s.rxq ++ [b]))) := by
  unfold State.queueAfter
  cases hd : s.cfg.rxFifoDepth with
  | none => simp
  | some d =>
    by_cases hl : s.rxq.length < d
    · left; simp [hl]
    · right
      refine ⟨d, rfl, by omega, ?_⟩
      simp only [hl, if_false]
      cases s.cfg.rxOverflow with
      | dropNewest => exact .inl rfl
      | dropOldest => exact .inr (.inl rfl)
      | anyLoss =>
        simp only
        split
        · exact .inl rfl
        · rename_i h
          simp only [not_or, not_lt] at h
          exact .inr (.inr ⟨h.1, h.2, keepFrom_sublist _ _ _⟩)

/-- A queue that fits the FIFO still fits after a byte arrives. -/
theorem queueAfter_fits {s : State} {b : Byte} (h : ∀ d, s.cfg.rxFifoDepth = some d → s.rxq.length ≤ d)
    (d : Nat) (hd : s.cfg.rxFifoDepth = some d) : (s.queueAfter b).length ≤ d := by
  obtain ⟨e, hr⟩ | ⟨d', hd', hf, e | e | ⟨-, e, -⟩⟩ := queueAfter_cases s b
  · have := hr d hd; rw [e]; simp; omega
  · rw [e]; exact h d hd
  · have := h d hd; rw [e]; simp; omega
  · rw [hd] at hd'; cases hd'; exact e

/-- A queue that holds a byte still holds one after a byte arrives. -/
theorem queueAfter_nonempty {s : State} {b : Byte} (h : s.rxq ≠ []) : s.queueAfter b ≠ [] := by
  obtain ⟨e, -⟩ | ⟨d, -, -, e | e | ⟨e, -, -⟩⟩ := queueAfter_cases s b
  · simp [e]
  · simpa [e] using h
  · rw [e]
    cases hq : s.rxq with
    | nil => exact absurd hq h
    | cons x q => simp
  · exact e

/-- A FIFO that can hold a byte holds one after a byte arrives. -/
theorem queueAfter_holds {s : State} (b : Byte) (hr : ∀ d, s.cfg.rxFifoDepth = some d → 1 ≤ d) :
    s.queueAfter b ≠ [] := by
  by_cases hq : s.rxq = []
  · obtain ⟨e, -⟩ | ⟨d, hd, hl, -⟩ := queueAfter_cases s b
    · simp [e]
    · have := hr d hd
      rw [hq] at hl
      simp only [List.length_nil] at hl
      omega
  · exact queueAfter_nonempty hq

/-- A host access is refused exactly where the host breaks its duty. -/
theorem hostDuty_none {off : Byte} {width : Nat} : hostDuty off width = none ↔ width = 4 ∧ off.toNat % 4 = 0 := by
  unfold hostDuty
  split
  · simp_all
  · split <;> simp_all

end Sys2Proof.Machine
end

