-- ==== Sys2Proof/Laws/Step.lean ====
section
/-! SUPPORT. What the fetch finds, and that a frame's arm of `exec` and the latched command's arm agree. -/
namespace Sys2Proof.Machine

theorem fetchCommand_congr {s t : State} (h : t.cmdl = s.cmdl) : fetchCommand t = fetchCommand s := by
  simp [fetchCommand, h]

@[simp] theorem fetchCommand_goto (s : State) (p : Pos) : fetchCommand (s.goto p) = fetchCommand s := rfl

theorem fetchCommand_of_ok {s : State} {i : Instr} (h : decodeCommand s.cmdl = .ok i) :
    fetchCommand s = some i := by
  simp only [fetchCommand, decode, h]

/-- The latch holds a command, never a frame. -/
theorem fetchCommand_isCommand {s : State} {i : Instr} (h : fetchCommand s = some i) :
    i.isCommand = true := by
  unfold fetchCommand decode at h
  split at h
  · cases h; exact (decodeCommand_ok ‹_›).2
  · cases h

/-- A request frame's arm hands exactly `TXBUF` to the transport. -/
theorem exec_fetchRequest {s : State} {i : Instr} (h : fetchRequest s = some i) :
    exec i s = transmit s.txbuf s := by
  unfold fetchRequest decode at h
  split at h
  · rename_i j hj
    cases h
    obtain ⟨a, crc, rfl, e⟩ | ⟨a, crc, rfl, e⟩ | ⟨a, v, crc, rfl, e⟩ := decodeRequest_ok hj <;>
      simp [exec, execReqRir, execReqRhr, execReqWhr, e]
  · cases h

/-- A response frame's arm checks exactly `RXBUF`, as the request's function says. -/
theorem exec_fetchResponse {s : State} {i : Instr} (h : fetchResponse s = some i) :
    ∃ fn, fnOfCode s.txbuf.b1 = some fn ∧ exec i s = checkStep fn s := by
  unfold fetchResponse at h
  split at h
  · cases h
  · rename_i fn hfn
    refine ⟨fn, hfn, ?_⟩
    split at h
    · rename_i j hj
      cases h
      cases fn with
      | readInput =>
        obtain ⟨a, b, v, crc, rfl, e⟩ := decodeResponse_input_ok (r := s.rxbuf.first7) hj
        simp [exec, execRspRir, checkStep, e]
      | readHolding =>
        obtain ⟨a, b, v, crc, rfl, e⟩ := decodeResponse_holding_ok (r := s.rxbuf.first7) hj
        simp [exec, execRspRhr, checkStep, e]
      | writeSingle =>
        obtain ⟨a, b, c, v, crc, rfl, e⟩ := decodeResponse_write_ok (r := s.rxbuf) hj
        simp [exec, execRspWhr, checkStep, e]
    · cases h

/-- The core's micro-step by the latched command's own arm. -/
def commandStep (s : State) : Result := runFetched (fetchCommand s) s

theorem coreStep_exec {s : State} (hs : s.seq = .exec) : coreStep s = runFetched (fetch s) s := by
  simp [coreStep, hs]

/-- Away from the transmit and check positions the core runs the latched command's arm. -/
theorem coreStep_elsewhere {s : State} (hs : s.seq = .exec) (ht : ∀ k, s.pos ≠ .op k .tx)
    (hc : ∀ k, s.pos ≠ .op k .check) : coreStep s = commandStep s := by
  have : fetch s = fetchCommand s := by
    unfold fetch
    split
    · exact absurd ‹_› (ht _)
    · exact absurd ‹_› (hc _)
    · rfl
  rw [coreStep_exec hs, this, commandStep]

/-- The register operation `k` of the latched command is in its slot. -/
theorem callOf_slot {c : Config} {i : Option Instr} {k : Slot} {o : OpCall} (h : callOf c i k = some o) :
    o.slot = k := by
  cases i with
  | none => simp [callOf] at h
  | some i =>
    cases i <;> cases k <;> simp [callOf, commandCall] at h <;> subst h <;> try rfl
    simp only [bgcalCall]
    split <;> rfl

/-- Every register operation of a command sends a request the core may send. -/
theorem callOf_isRequest (sl : Byte) {c : Config} {i : Option Instr} {k : Slot} {o : OpCall} (h : callOf c i k = some o) :
    IsRequest sl (builtFrame sl o.fn o.addr o.value) := by
  have input : ∀ a j, IsRequest sl (builtFrame sl (rirCall a j).fn (rirCall a j).addr (rirCall a j).value) :=
    fun a _ => ⟨a, 0, .inl rfl⟩
  have holding : ∀ a j, IsRequest sl (builtFrame sl (rhrCall a j).fn (rhrCall a j).addr (rhrCall a j).value) :=
    fun a _ => ⟨a, 0, .inr (.inl rfl)⟩
  have write : ∀ a v j,
      IsRequest sl (builtFrame sl (whrCall a v j).fn (whrCall a v j).addr (whrCall a v j).value) :=
    fun a v _ => ⟨a, v, .inr (.inr rfl)⟩
  cases i with
  | none => simp [callOf] at h
  | some i =>
    cases i <;> cases k <;> simp [callOf, commandCall] at h <;> subst h <;>
      first
      | exact input _ _
      | exact holding _ _
      | exact write _ _ _
      | (simp only [bgcalCall]; split; exacts [holding _ _, input _ _])

theorem commandCall_slot {c : Config} {i : Instr} {k : Slot} {o : OpCall}
    (h : commandCall c i k = some o) : o.slot = k :=
  callOf_slot (i := some i) h

/-- At a position of a register operation a command's arm is that operation's micro-step. -/
theorem exec_op {s : State} {i : Instr} {k : Slot} {p : OpPos} {o : OpCall}
    (h : commandCall s.cfg i k = some o) (hp : s.pos = .op k p) : exec i s = opStep o p s := by
  cases i <;> cases k <;> simp [commandCall] at h <;> subst h <;>
    simp [exec, execRir, execRhr, execWhr, execGetco2, execInit, execSetabc, execBgcal, hp]

/-- At a position of `CLEAR()` a clearing command's arm is that of `CLEAR()`. -/
theorem exec_clear {s : State} {i : Instr} {p : ClearPos} (h : commandClears i = true)
    (hp : s.pos = .clear p) : exec i s = clearStep p s := by
  cases i <;> simp [commandClears] at h <;>
    simp [exec, execClrx, execGetco2, execInit, execSetabc, execBgcal, hp]

/-- At a position of a register operation the latched command's arm is that operation's micro-step. -/
theorem commandStep_op {s : State} {k : Slot} {p : OpPos} {o : OpCall} (hp : s.pos = .op k p)
    (h : callOf s.cfg (fetchCommand s) k = some o) : commandStep s = opStep o p s := by
  unfold commandStep
  cases hi : fetchCommand s with
  | none => simp [hi, callOf] at h
  | some i =>
    rw [hi] at h
    simp only [runFetched]
    cases i <;> cases k <;> simp [callOf, commandCall] at h <;> subst h <;>
      simp [exec, execRir, execRhr, execWhr, execGetco2, execInit, execSetabc, execBgcal, hp]

/-- At a position of a register operation the core runs that operation's micro-step, whichever arm the fetch
finds, if at the check position `TXBUF` is the operation's request. -/
theorem coreStep_op {s : State} {k : Slot} {p : OpPos} {o : OpCall} (hs : s.seq = .exec)
    (hp : s.pos = .op k p) (ho : callOf s.cfg (fetchCommand s) k = some o)
    (hb : p = .check → s.txbuf = builtFrame s.cfg.slaveAddr o.fn o.addr o.value) : coreStep s = opStep o p s := by
  by_cases ht : p = .tx
  · subst ht
    have hf : fetch s = (fetchRequest s).orElse fun _ => fetchCommand s := by simp [fetch, hp]
    cases hq : fetchRequest s with
    | none =>
      have : fetch s = fetchCommand s := by simp [hf, hq]
      rw [coreStep_exec hs, this, ← commandStep, commandStep_op hp ho]
    | some i =>
      have : fetch s = some i := by simp [hf, hq]
      rw [coreStep_exec hs, this, runFetched, exec_fetchRequest hq, opStep]
  · by_cases hc : p = .check
    · subst hc
      have hf : fetch s = (fetchResponse s).orElse fun _ => fetchCommand s := by simp [fetch, hp]
      cases hq : fetchResponse s with
      | none =>
        have : fetch s = fetchCommand s := by simp [hf, hq]
        rw [coreStep_exec hs, this, ← commandStep, commandStep_op hp ho]
      | some i =>
        have : fetch s = some i := by simp [hf, hq]
        obtain ⟨fn, hfn, he⟩ := exec_fetchResponse hq
        rw [hb rfl] at hfn
        simp only [builtFrame_b1, fnOfCode_code, Option.some.injEq] at hfn
        subst hfn
        rw [coreStep_exec hs, this, runFetched, he, opStep]
    · rw [coreStep_elsewhere hs (by simp [hp, ht]) (by simp [hp, hc]), commandStep_op hp ho]

/-- At a position of `CLEAR()` the core runs that of the latched command. -/
theorem coreStep_clear {s : State} {i : Instr} {p : ClearPos} (hs : s.seq = .exec)
    (hi : fetchCommand s = some i) (hc : commandClears i = true) (hp : s.pos = .clear p) :
    coreStep s = clearStep p s := by
  rw [coreStep_elsewhere hs (by simp [hp]) (by simp [hp]), commandStep, hi, runFetched, exec_clear hc hp]

/-- In a state of the invariant the frame arms and the latched command's arm agree: the core's micro-step is
the latched command's. -/
theorem coreStep_eq_commandStep {s : State} (hs : s.seq = .exec) (hI : ExecInv s) :
    coreStep s = commandStep s := by
  by_cases hop : ∃ k p, s.pos = .op k p
  · obtain ⟨k, p, hp⟩ := hop
    have hr := hI.pos_rule
    rw [hp] at hr
    obtain ⟨o, ho⟩ := Option.isSome_iff_exists.mp hr
    rw [commandStep_op hp ho, coreStep_op hs hp ho]
    rintro rfl
    exact hI.request k .check o hp (by simp) ho
  · exact coreStep_elsewhere hs (fun k hk => hop ⟨k, _, hk⟩) (fun k hk => hop ⟨k, _, hk⟩)

/-! ## The moves to come -/

/-- Entries that begin with a move are as they are. -/
theorem writeTurn_of_isMove {e : Input} {l : List Input} (h : e.isMove = true) :
    State.writeTurn (e :: l) = e :: l := by
  cases e <;> first | rfl | cases h

/-- A turn begins with a move. -/
theorem turnMoves_head (n : Nat) : ∃ e l, State.turnMoves n = e :: l ∧ e.isMove = true := by
  unfold State.turnMoves
  cases h : (Config.freeTurn n).before.filter Input.isMove with
  | nil => exact ⟨_, _, rfl, rfl⟩
  | cons e l =>
    exact ⟨e, _, rfl, (List.mem_filter.1 (show e ∈ List.filter _ _ by rw [h]; exact List.mem_cons_self)).2⟩

/-- A written list of entries begins with a move, or is empty with the list. -/
theorem writeTurn_head (l : List Input) :
    (l = [] ∧ State.writeTurn l = []) ∨ ∃ e m, State.writeTurn l = e :: m ∧ e.isMove = true := by
  cases l with
  | nil => exact .inl ⟨rfl, rfl⟩
  | cons e l =>
    right
    cases e with
    | free n =>
      obtain ⟨e, m, h, he⟩ := turnMoves_head n
      exact ⟨e, m ++ .free (n + 1) :: l, by simp only [State.writeTurn, h, List.cons_append], he⟩
    | _ => exact ⟨_, _, rfl, rfl⟩

/-- The next move is a move. -/
theorem moves_isMove {s : State} {e : Input} {l : List Input} (h : s.moves = e :: l) : e.isMove = true := by
  obtain ⟨-, h'⟩ | ⟨e', m, h', he⟩ := writeTurn_head s.entries
  · rw [State.moves, h'] at h; cases h
  · rw [State.moves, h'] at h; cases h; exact he

/-- Before the round that repeats come the moves of `inputs`. -/
theorem moves_setInputs_cons (s : State) {e : Input} (l : List Input) (h : e.isMove = true) :
    (s.setInputs (e :: l)).moves = e :: l :=
  writeTurn_of_isMove h

/-- No move will come only where none is left and none repeats. -/
theorem moves_eq_nil {s : State} : s.moves = [] ↔ s.inputs = [] ∧ s.repeating = [] := by
  have hw : s.moves = [] ↔ s.entries = [] := by
    obtain ⟨h, h'⟩ | ⟨e, m, h', -⟩ := writeTurn_head s.entries
    · simp [State.moves, h, State.writeTurn]
    · have : s.entries ≠ [] := by rintro h; rw [h] at h'; cases h'
      simp [State.moves, h', this]
  rw [hw, State.entries]
  cases s.inputs <;> simp

/-- A step does not tell the moves of a round from the same moves listed once. -/
theorem step_setInputs_moves (s : State) : step (s.setInputs s.moves) = step s := by
  cases h : s.moves with
  | nil =>
    have : s.setInputs [] = s := by rw [← (moves_eq_nil.1 h).1]; rfl
    rw [this]
  | cons e l => simp only [step, systemStep, moves_setInputs_cons s l (moves_isMove h), h]; rfl

/-- The step where the core's move is next. -/
theorem step_core {s : State} {l : List Input} (h : s.moves = .core :: l) :
    step s = coreStep (s.setInputs l) := by
  simp [step, systemStep, h, agentStep]

theorem step_idle_inputs {s : State} (h : s.moves = []) : step s = coreStep s := by
  simp [step, systemStep, h]

/-- No micro-step of a command is refused. -/
theorem exec_not_refused (i : Instr) (s : State) (r : Refusal) : exec i s ≠ .refused r := by
  cases i <;> simp only [exec, execClrx, execRir, execRhr, execWhr, execInit, execGetco2, execGetid,
    execGetfw, execGetabc, execSetabc, execBgcal, execReqRir, execReqRhr, execReqWhr, execRspRir,
    execRspRhr, execRspWhr]
  all_goals first
    | exact transmit_not_refused _ _ _
    | exact receiveRead_not_refused _ _ _
    | exact receiveWrite_not_refused _ _ _
    | (split <;> first
        | exact clearStep_not_refused _ _ _
        | exact opStep_not_refused _ _ _ _
        | exact endWait_not_refused _ _ _ _ _
        | (split <;> simp)
        | simp)

/-- No micro-step of the core is refused. -/
theorem coreStep_not_refused (s : State) (r : Refusal) : coreStep s ≠ .refused r := by
  unfold coreStep runFetched
  split
  · simp
  · split
    · exact exec_not_refused _ _ _
    · unfold execIllegal; split <;> simp

/-- Everything a micro-step of the core can do. -/
theorem coreStep_next {s t : State} (h : coreStep s = .next t) :
    (s.seq = .idle ∧ t = s) ∨
    (s.seq = .exec ∧ ∃ i, fetch s = some i ∧ exec i s = .next t) ∨
    (s.seq = .exec ∧ fetch s = none ∧ s.pos = .start ∧
      t = s.complete false .illegalCommand s.result) := by
  unfold coreStep at h
  split at h
  · exact .inl ⟨‹_›, by simpa using h.symm⟩
  · right
    unfold runFetched at h
    split at h
    · exact .inl ⟨‹_›, _, ‹_›, h⟩
    · refine .inr ⟨‹_›, ‹_›, ?_⟩
      unfold execIllegal at h
      split at h
      · exact ⟨‹_›, by simpa using h.symm⟩
      · cases h

@[simp] theorem readReg_setInputs (off : Byte) (s : State) (l : List Input) :
    readReg off (s.setInputs l) = readReg off s := rfl

/-- Everything a step of the machine can do. -/
theorem step_next {s t : State} (h : step s = .next t) :
    (∃ u, (s.moves = [] ∧ u = s ∨ ∃ l, s.moves = .core :: l ∧ u = s.setInputs l) ∧
      coreStep u = .next t) ∨
    (∃ b l, s.moves = .rx b :: l ∧ t = (s.setInputs l).lineAppend b) ∨
    (∃ ms l, s.moves = .tick ms :: l ∧ t = (s.setInputs l).tick ms) ∨
    (∃ off l, s.moves = .host (.read off 4) :: l ∧ off.toNat % 4 = 0 ∧
      t = (s.setInputs l).answerHost (readReg off s)) ∨
    (∃ off v l, s.moves = .host (.write off 4 v) :: l ∧ off.toNat % 4 = 0 ∧ off ≠ 0x00#8 ∧
      t = s.setInputs l) ∨
    (∃ v l, s.moves = .host (.write 0x00#8 4 v) :: l ∧ s.status.busy = false ∧
      t = (s.setInputs l).accept v) ∨
    (∃ l, s.moves = .reset :: l ∧ t = (s.setInputs l).coreReset) := by
  unfold step systemStep at h
  split at h
  · exact .inl ⟨s, .inl ⟨‹_›, rfl⟩, h⟩
  · rename_i e l hl
    cases e with
    | core => exact .inl ⟨_, .inr ⟨l, hl, rfl⟩, h⟩
    | rx b => exact .inr (.inl ⟨b, l, hl, by simpa [agentStep] using h.symm⟩)
    | tick ms => exact .inr (.inr (.inl ⟨ms, l, hl, by simpa [agentStep] using h.symm⟩))
    | reset =>
      exact .inr (.inr (.inr (.inr (.inr (.inr ⟨l, hl, by simpa [agentStep] using h.symm⟩)))))
    | free n => cases moves_isMove hl
    | host a =>
      cases a with
      | read off width =>
        simp only [agentStep, hostStep, hostRead] at h
        split at h
        · cases h
        · rename_i hd
          obtain ⟨rfl, h4⟩ := hostDuty_none.1 hd
          exact .inr (.inr (.inr (.inl ⟨off, l, hl, h4, by simpa using h.symm⟩)))
      | write off width v =>
        simp only [agentStep, hostStep, hostWrite] at h
        split at h
        · cases h
        · rename_i hd
          obtain ⟨rfl, h4⟩ := hostDuty_none.1 hd
          split at h
          · rename_i h0
            subst h0
            split at h
            · cases h
            · rename_i hb
              exact .inr (.inr (.inr (.inr (.inr (.inl ⟨v, l, hl, by simpa using hb, by simpa using h.symm⟩)))))
          · exact .inr (.inr (.inr (.inr (.inl ⟨off, v, l, hl, h4, ‹_›, by simpa using h.symm⟩))))

end Sys2Proof.Machine
end

