-- ==== Sys2Proof/Laws/Invariant.lean ====
section
/-! SUPPORT. Each shared micro-step, and each agent's move, goes on and keeps the invariant. -/
namespace Sys2Proof.Machine

/-- A micro-step that leaves the flags, the latch and the sequencer alone keeps the invariant if it keeps
the parts it touches. -/
theorem StateInv.move {s t : State} (hI : StateInv s) (hcfg : t.cfg = s.cfg) (hst : t.status = s.status)
    (hseq : t.seq = s.seq) (hcmd : t.cmdl = s.cmdl) (hx : s.seq = .exec → ExecInv t) (hcnt : t.rxcnt ≤ 8)
    (hret : ∀ k, (t.ret k).ok = true → (t.ret k).err = .none) (hq : t.rxq.length ≤ s.rxq.length)
    (hlog : ∀ f ∈ t.txlog, IsRequest t.cfg.slaveAddr f) : StateInv t where
  flags :=
    { busy_exec := by rw [hst, hseq]; exact hI.flags.busy_exec
      not_both := by rw [hst]; exact hI.flags.not_both
      busy_quiet := by rw [hst]; exact hI.flags.busy_quiet
      ok_noError := by rw [hst]; exact hI.flags.ok_noError
      lastop_opc := by rw [hst, hcmd]; exact hI.flags.lastop_opc }
  exec := fun h => hx (hseq ▸ h)
  rxcnt_le := hcnt
  ret_ok := hret
  fifo_fits := fun d hd => hq.trans (hI.fifo_fits d (hcfg ▸ hd))
  sent := hlog

/-- Completion keeps the invariant: the core is idle, and success reports no error. -/
theorem StateInv.complete {s : State} (hI : StateInv s) {ok : Bool} {err : ErrKind} (r : Word)
    (h : ok = true → err = .none) : StateInv (s.complete ok err r) where
  flags :=
    { busy_exec := by simp [Status.completed]
      not_both := by simp [Status.completed]
      busy_quiet := by simp [Status.completed]
      ok_noError := h
      lastop_opc := hI.flags.lastop_opc }
  exec := by simp
  rxcnt_le := hI.rxcnt_le
  ret_ok := by simpa using hI.ret_ok
  fifo_fits := hI.fifo_fits
  sent := hI.sent

/-- A position outside the register operations has no counts and no request to keep. -/
theorem ExecInv.ofPos {s : State} (hp : posInRule s.cfg (fetchCommand s) s.pos = true)
    (hr : atRxRead s.pos = true → s.rxq ≠ []) (ho : ∀ k p, s.pos ≠ .op k p) : ExecInv s where
  pos_rule := hp
  rx_nonempty := hr
  count := fun k p _ h => absurd h (ho k p)
  request := fun k p _ h => absurd h (ho k p)

/-- A position of the register operation `o`. -/
theorem ExecInv.ofOp {s : State} {k : Slot} {p : OpPos} {o : OpCall} (hp : s.pos = .op k p)
    (ho : callOf s.cfg (fetchCommand s) k = some o) (hr : p = .take → s.rxq ≠ [])
    (hc : CountAt o.fn s p) (hb : p ≠ .build → s.txbuf = builtFrame s.cfg.slaveAddr o.fn o.addr o.value) : ExecInv s where
  pos_rule := by simp [hp, posInRule, ho]
  rx_nonempty := by
    intro h
    rw [hp] at h
    apply hr
    cases p <;> simp [atRxRead] at h ⊢
  count := by
    intro j q o' h ho'
    rw [hp] at h
    cases h
    rw [ho] at ho'
    cases ho'
    exact hc
  request := by
    intro j q o' h hq ho'
    rw [hp] at h
    cases h
    rw [ho] at ho'
    cases ho'
    exact hb hq

/-- Binding a tuple whose success reports no error keeps that of every tuple. -/
theorem bindRet_ok {s : State} {k : Slot} {r : Ret}
    (h : ∀ j, (s.ret j).ok = true → (s.ret j).err = .none) (hr : r.ok = true → r.err = .none) (j : Slot) :
    ((s.bindRet k r).ret j).ok = true → ((s.bindRet k r).ret j).err = .none := by
  by_cases e : j = k
  · subst e; simpa using hr
  · rw [State.ret_bindRet_ne s k j r e]; exact h j

/-- `BUILD_REQ` from any position of the latched command. -/
theorem build_keeps {s : State} {o : OpCall} (hI : StateInv s)
    (ho : callOf s.cfg (fetchCommand s) o.slot = some o) :
    ∃ t, opStep o .build s = .next t ∧ StateInv t := by
  refine ⟨_, rfl, ?_⟩
  refine hI.move (t := (s.buildReq o.fn o.addr o.value).goto (.op o.slot .settleBegin))
    rfl rfl rfl rfl ?_ hI.rxcnt_le (by simpa using hI.ret_ok) (le_refl _) hI.sent
  intro _
  exact ExecInv.ofOp (o := o) rfl ho (by simp) trivial (by simp)

/-- A timeout keeps the invariant. -/
theorem timedOut_keeps {s : State} {o : OpCall} (hI : StateInv s)
    (ho : callOf s.cfg (fetchCommand s) o.slot = some o) : StateInv (timedOut o s) := by
  refine hI.move (t := (s.discardPartial.bindRet o.slot (timeoutRet o.fn)).goto (.after o.slot))
    (by simp) (by simp) (by simp) (by simp) ?_ (by simp) ?_ (by simp) (by simpa using hI.sent)
  · intro _
    refine ExecInv.ofPos ?_ (by simp [atRxRead]) (by simp)
    rw [fetchCommand_congr (s := s) (by simp)]
    simp [posInRule, ho]
  · intro j
    simp only [State.goto_ret]
    exact bindRet_ok (by simpa using hI.ret_ok) (by simp [timeoutRet_ok]) j

/-- Every micro-step of a register operation goes on and keeps the invariant. -/
theorem opStep_keeps {s : State} {k : Slot} {p : OpPos} {o : OpCall} (hI : StateInv s) (hs : s.seq = .exec)
    (hp : s.pos = .op k p) (ho : callOf s.cfg (fetchCommand s) k = some o) :
    ∃ t, opStep o p s = .next t ∧ StateInv t := by
  have hx := hI.exec hs
  have hslot := callOf_slot ho
  subst hslot
  have hcount := hx.count _ _ _ hp ho
  have hreq := fun h => hx.request _ _ _ hp h ho
  cases p with
  | build => exact build_keeps hI ho
  | settleBegin =>
    refine ⟨_, rfl, hI.move (t := s.beginWait.goto (.op o.slot .settleEnd)) rfl rfl rfl rfl ?_ hI.rxcnt_le
      (by simpa using hI.ret_ok) (le_refl _) hI.sent⟩
    exact fun _ => ExecInv.ofOp (o := o) rfl ho (by simp) trivial fun _ => hreq (by simp)
  | settleEnd =>
    cases hw : s.waitOver s.t0 s.cfg.tSettle with
    | false => exact ⟨s, endWait_early hw, hI⟩
    | true =>
      refine ⟨_, endWait_over hw, hI.move (t := s.goto (.op o.slot .tx)) rfl rfl rfl rfl ?_ hI.rxcnt_le
        (by simpa using hI.ret_ok) (le_refl _) hI.sent⟩
      exact fun _ => ExecInv.ofOp (o := o) rfl ho (by simp) trivial fun _ => hreq (by simp)
  | tx =>
    refine ⟨_, transmit_at hp, hI.move (t := (s.tx s.txbuf).goto (.op o.slot .collect)) rfl rfl rfl rfl ?_
      hI.rxcnt_le (by simpa using hI.ret_ok) (le_refl _) ?_⟩
    · exact fun _ => ExecInv.ofOp (o := o) rfl ho (by simp) trivial fun _ => hreq (by simp)
    · intro f hf
      simp only [State.goto_txlog, State.tx_txlog, List.mem_append, List.mem_singleton] at hf
      rcases hf with hf | rfl
      · exact hI.sent f hf
      · rw [hreq (by simp)]; exact callOf_isRequest _ ho
  | collect =>
    refine ⟨_, rfl, hI.move (t := (s.beginCollect o.fn.rspLen).goto (.op o.slot .avail)) rfl rfl rfl rfl ?_
      (by simp) (by simpa using hI.ret_ok) (le_refl _) hI.sent⟩
    refine fun _ => ExecInv.ofOp (o := o) rfl ho (by simp) ⟨rfl, ?_⟩ fun _ => hreq (by simp)
    simp only [State.goto_rxcnt, State.beginCollect_rxcnt, State.goto_explen, State.beginCollect_explen]
    cases o.fn <;> simp [FnCode.rspLen, readRspLen, writeRspLen]
  | avail =>
    refine ⟨_, rfl, hI.move rfl rfl rfl rfl ?_ hI.rxcnt_le (by simpa using hI.ret_ok) (le_refl _) hI.sent⟩
    intro _
    cases hq : s.rxq with
    | nil =>
      refine ExecInv.ofOp (k := o.slot) (p := .full) (o := o) (by simp) ho (by simp) ?_
        fun _ => hreq (by simp)
      exact ⟨hcount.1, hcount.2.le⟩
    | cons b q =>
      refine ExecInv.ofOp (k := o.slot) (p := .take) (o := o) (by simp) ho (by simp [hq]) hcount
        fun _ => hreq (by simp)
  | take =>
    cases hq : s.rxq with
    | nil => exact absurd hq (hx.rx_nonempty (by simp [hp, atRxRead]))
    | cons b q =>
      have hc8 := hI.rxcnt_le
      have hlen : o.fn.rspLen ≤ 8 := by cases o.fn <;> decide
      refine ⟨_, by simp only [opStep, hq], hI.move (t := (s.takeByte b q).goto (.op o.slot .full))
        rfl rfl rfl rfl ?_ ?_ (by simpa using hI.ret_ok) (by simp [hq]) hI.sent⟩
      · refine fun _ => ExecInv.ofOp (o := o) rfl ho (by simp) ?_ fun _ => hreq (by simp)
        exact ⟨hcount.1, hcount.2⟩
      · have := hcount.1; have := hcount.2
        simp only [State.goto_rxcnt, State.takeByte_rxcnt]
        omega
  | full =>
    cases hl : s.echoLate with
    | true => exact ⟨_, by simp only [opStep, hl, if_true], timedOut_keeps hI ho⟩
    | false =>
    refine ⟨s.goto (afterFull o.slot s), by simp [opStep, hl], hI.move rfl rfl rfl rfl ?_ hI.rxcnt_le (by simpa using hI.ret_ok) (le_refl _) hI.sent⟩
    intro _
    by_cases hN : s.rxcnt = s.explen
    · exact ExecInv.ofOp (k := o.slot) (p := .check) (o := o) (by simp [afterFull, hN]) ho (by simp)
        ⟨hcount.1, hN, hl⟩ fun _ => hreq (by simp)
    · have hlt : s.rxcnt < s.explen := lt_of_le_of_ne hcount.2 hN
      by_cases hm : s.cfg.pollMode = .sleepWhenEmpty ∧ s.took = true
      · exact ExecInv.ofOp (k := o.slot) (p := .avail) (o := o) (by simp [afterFull, hN, hm]) ho (by simp)
          ⟨hcount.1, hlt⟩ fun _ => hreq (by simp)
      · refine ExecInv.ofOp (k := o.slot) (p := .deadline) (o := o) ?_ ho (by simp)
          ⟨hcount.1, hlt⟩ fun _ => hreq (by simp)
        simp only [State.goto_pos, afterFull, if_neg hN, if_neg hm]
  | deadline =>
    cases hd : s.deadlinePassed with
    | true => exact ⟨_, by simp only [opStep, hd, if_true], timedOut_keeps hI ho⟩
    | false =>
      refine ⟨_, by simp only [opStep, hd]; rfl, hI.move (t := s.goto (.op o.slot .pollBegin))
        rfl rfl rfl rfl ?_ hI.rxcnt_le (by simpa using hI.ret_ok) (le_refl _) hI.sent⟩
      exact fun _ => ExecInv.ofOp (o := o) rfl ho (by simp) hcount fun _ => hreq (by simp)
  | pollBegin =>
    refine ⟨_, rfl, hI.move (t := s.beginPoll.goto (.op o.slot .pollEnd)) rfl rfl rfl rfl ?_ hI.rxcnt_le
      (by simpa using hI.ret_ok) (le_refl _) hI.sent⟩
    exact fun _ => ExecInv.ofOp (o := o) rfl ho (by simp) hcount fun _ => hreq (by simp)
  | pollEnd =>
    cases hw : s.waitOver s.tw s.cfg.tPoll with
    | false => exact ⟨s, endWait_early hw, hI⟩
    | true =>
      refine ⟨_, endWait_over hw, hI.move (t := s.goto (.op o.slot .avail)) rfl rfl rfl rfl ?_ hI.rxcnt_le
        (by simpa using hI.ret_ok) (le_refl _) hI.sent⟩
      exact fun _ => ExecInv.ofOp (o := o) rfl ho (by simp) hcount fun _ => hreq (by simp)
  | check =>
    have read : ∀ r, ∃ t, receiveRead r s = .next t ∧ StateInv t := by
      intro r
      refine ⟨_, receiveRead_at hp, hI.move (by simp) (by simp) (by simp) (by simp) ?_
        (by simpa using hI.rxcnt_le) ?_ (by simp) (by simpa using hI.sent)⟩
      · intro _
        refine ExecInv.ofPos ?_ (by simp [atRxRead]) (by simp)
        rw [fetchCommand_congr (s := s) (by simp)]
        simp [posInRule, ho]
      · intro j
        simp only [State.goto_ret]
        exact bindRet_ok (by simpa using hI.ret_ok) checkRead_ok j
    have write : ∃ t, receiveWrite s.rxbuf s = .next t ∧ StateInv t := by
      refine ⟨_, receiveWrite_at hp, hI.move (by simp) (by simp) (by simp) (by simp) ?_
        (by simpa using hI.rxcnt_le) ?_ (by simp) (by simpa using hI.sent)⟩
      · intro _
        refine ExecInv.ofPos ?_ (by simp [atRxRead]) (by simp)
        rw [fetchCommand_congr (s := s) (by simp)]
        simp [posInRule, ho]
      · intro j
        simp only [State.goto_ret]
        exact bindRet_ok (by simpa using hI.ret_ok) checkWrite_ok j
    cases hfn : o.fn with
    | readInput => simpa only [opStep, checkStep, hfn] using read _
    | readHolding => simpa only [opStep, checkStep, hfn] using read _
    | writeSingle => simpa only [opStep, checkStep, hfn] using write

/-- Every micro-step of `CLEAR()` goes on and keeps the invariant. -/
theorem clearStep_keeps {s : State} {p : ClearPos} (hI : StateInv s) (hs : s.seq = .exec)
    (hp : s.pos = .clear p ∨ p = .test) (hc : (fetchCommand s).any commandClears = true) :
    ∃ t, clearStep p s = .next t ∧ StateInv t := by
  have hx := hI.exec hs
  cases p with
  | test =>
    refine ⟨_, rfl, hI.move rfl rfl rfl rfl ?_ hI.rxcnt_le (by simpa using hI.ret_ok) (le_refl _) hI.sent⟩
    intro _
    refine ExecInv.ofPos ?_ ?_ ?_ <;> simp only [State.goto_pos] <;> split <;> simp [posInRule, hc, atRxRead]
  | restart =>
    refine ⟨_, rfl, hI.move (t := s.restart.goto (.clear .settleBegin)) rfl rfl rfl rfl ?_ hI.rxcnt_le
      (by simpa using hI.ret_ok) (keepFrom_length_le _ _ _) hI.sent⟩
    exact fun _ => ExecInv.ofPos hc (by simp [atRxRead]) (by simp)
  | settleBegin =>
    refine ⟨_, rfl, hI.move (t := s.beginWait.goto (.clear .settleEnd)) rfl rfl rfl rfl ?_ hI.rxcnt_le
      (by simpa using hI.ret_ok) (le_refl _) hI.sent⟩
    exact fun _ => ExecInv.ofPos hc (by simp [atRxRead]) (by simp)
  | settleEnd =>
    cases hw : s.waitOver s.t0 s.cfg.tRestartSettle with
    | false => exact ⟨s, endWait_early hw, hI⟩
    | true =>
      refine ⟨_, endWait_over hw, hI.move (t := s.goto (.clear .avail)) rfl rfl rfl rfl ?_ hI.rxcnt_le
        (by simpa using hI.ret_ok) (le_refl _) hI.sent⟩
      exact fun _ => ExecInv.ofPos hc (by simp [atRxRead]) (by simp)
  | avail =>
    refine ⟨_, rfl, hI.move rfl rfl rfl rfl ?_ hI.rxcnt_le (by simpa using hI.ret_ok) (le_refl _) hI.sent⟩
    intro _
    cases hq : s.rxq with
    | nil => exact ExecInv.ofPos (by simp [posInRule, hc]) (by simp [atRxRead]) (by simp)
    | cons b q => exact ExecInv.ofPos (by simp [posInRule, hc]) (by simp [hq]) (by simp)
  | discard =>
    cases hq : s.rxq with
    | nil =>
      refine absurd hq (hx.rx_nonempty ?_)
      rcases hp with hp | hp
      · simp [hp, atRxRead]
      · cases hp
    | cons b q =>
      refine ⟨_, by simp only [clearStep, hq],
        hI.move (t := (s.setRxq q).goto (.clear .avail)) rfl rfl rfl rfl ?_ hI.rxcnt_le
          (by simpa using hI.ret_ok) (by simp [hq]) hI.sent⟩
      exact fun _ => ExecInv.ofPos hc (by simp [atRxRead]) (by simp)

/-- A change of position, and of anything no part of the invariant speaks of, outside the register
operations. -/
theorem goto_keeps {s : State} {p : Pos} (hI : StateInv s) (hp : posInRule s.cfg (fetchCommand s) p = true)
    (hr : atRxRead p = false) (ho : ∀ k q, p = .op k q → q = .build) : StateInv (s.goto p) := by
  refine hI.move rfl rfl rfl rfl ?_ hI.rxcnt_le (by simpa using hI.ret_ok) (le_refl _) hI.sent
  intro _
  refine ⟨hp, by simp [hr], ?_, ?_⟩
  · intro k q o h _
    simp only [State.goto_pos] at h
    rw [ho k q h]; trivial
  · intro k q o h hq
    simp only [State.goto_pos] at h
    exact absurd (ho k q h) hq

/-- The end of a wait of a command goes on and keeps the invariant. -/
theorem endWait_keeps {s : State} {p : Pos} {b : Word} {t : Nat} (hI : StateInv s)
    (hp : posInRule s.cfg (fetchCommand s) p = true) (hr : atRxRead p = false)
    (ho : ∀ k q, p = .op k q → q = .build) : ∃ u, endWait b t p s = .next u ∧ StateInv u := by
  cases hw : s.waitOver b t with
  | false => exact ⟨s, endWait_early hw, hI⟩
  | true => exact ⟨_, endWait_over hw, goto_keeps hI hp hr ho⟩

/-- A snapshot write and the start of a wait keep the invariant. -/
theorem StateInv.ofSame {s t : State} (hI : StateInv s) (hcfg : t.cfg = s.cfg) (hst : t.status = s.status)
    (hseq : t.seq = s.seq) (hcmd : t.cmdl = s.cmdl) (hpos : t.pos = s.pos) (hcnt : t.rxcnt = s.rxcnt)
    (hexp : t.explen = s.explen) (hfa : t.firstAvail = s.firstAvail) (htx : t.txbuf = s.txbuf) (hret : ∀ k, t.ret k = s.ret k)
    (hq : t.rxq = s.rxq) (hlog : t.txlog = s.txlog) : StateInv t := by
  refine hI.move hcfg hst hseq hcmd ?_ (hcnt ▸ hI.rxcnt_le) ?_ (by rw [hq])
    (by rw [hcfg, hlog]; exact hI.sent)
  · intro h
    have hx := hI.exec h
    have hf := fetchCommand_congr hcmd
    refine ⟨?_, ?_, ?_, ?_⟩
    · rw [hcfg, hf, hpos]; exact hx.pos_rule
    · rw [hpos, hq]; exact hx.rx_nonempty
    · intro k p o h ho
      have := hx.count k p o (hpos ▸ h) (by rw [← hcfg, ← hf]; exact ho)
      cases p <;> simp only [CountAt, State.echoLate, hexp, hcnt, hcfg, hfa] at this ⊢ <;> exact this
    · intro k p o h hb ho
      rw [htx, hcfg]
      exact hx.request k p o (hpos ▸ h) hb (by rw [← hcfg, ← hf]; exact ho)
  · intro k; rw [hret]; exact hI.ret_ok k

/-- The tuple of a finished operation, success reporting no error. -/
theorem ret1_ok {s : State} (hI : StateInv s) : s.ret1.ok = true → s.ret1.err = .none := hI.ret_ok .r1

/-- Every micro-step of `CLRX` goes on and keeps the invariant. -/
theorem execClrx_keeps {s : State} (hI : StateInv s) (hs : s.seq = .exec) (hi : fetchCommand s = some .clrx) :
    ∃ t, exec .clrx s = .next t ∧ StateInv t := by
  have hr := (hI.exec hs).pos_rule
  simp only [exec, execClrx]
  split
  · exact clearStep_keeps hI hs (.inr rfl) (by simp [hi, commandClears])
  · exact clearStep_keeps hI hs (.inl ‹_›) (by simp [hi, commandClears])
  · exact ⟨_, rfl, hI.complete _ (by simp)⟩
  · exfalso
    cases hp : s.pos <;> simp_all [posInRule, callOf, commandCall, commandWaits, commandFinishes]

/-- Every micro-step of `RIR` goes on and keeps the invariant. -/
theorem execRir_keeps {s : State} {a : Byte} (hI : StateInv s) (hs : s.seq = .exec)
    (hi : fetchCommand s = some (.rir a)) : ∃ t, exec (.rir a) s = .next t ∧ StateInv t := by
  have hr := (hI.exec hs).pos_rule
  have ho : callOf s.cfg (fetchCommand s) .r1 = some (rirCall a .r1) := by simp [hi, callOf, commandCall]
  simp only [exec, execRir]
  split
  · exact build_keeps hI ho
  · exact opStep_keeps hI hs ‹_› ho
  · exact ⟨_, rfl, hI.complete _ (ret1_ok hI)⟩
  · exfalso
    rcases hp : s.pos with _ | _ | _ | ⟨k, p⟩ | k | _ | _ | _ <;>
      first
      | (cases k <;> simp_all [posInRule, callOf, commandCall])
      | simp_all [posInRule, commandClears, commandWaits, commandFinishes]

/-- Every micro-step of `RHR` goes on and keeps the invariant. -/
theorem execRhr_keeps {s : State} {a : Byte} (hI : StateInv s) (hs : s.seq = .exec)
    (hi : fetchCommand s = some (.rhr a)) : ∃ t, exec (.rhr a) s = .next t ∧ StateInv t := by
  have hr := (hI.exec hs).pos_rule
  have ho : callOf s.cfg (fetchCommand s) .r1 = some (rhrCall a .r1) := by simp [hi, callOf, commandCall]
  simp only [exec, execRhr]
  split
  · exact build_keeps hI ho
  · exact opStep_keeps hI hs ‹_› ho
  · exact ⟨_, rfl, hI.complete _ (ret1_ok hI)⟩
  · exfalso
    rcases hp : s.pos with _ | _ | _ | ⟨k, p⟩ | k | _ | _ | _ <;>
      first
      | (cases k <;> simp_all [posInRule, callOf, commandCall])
      | simp_all [posInRule, commandClears, commandWaits, commandFinishes]

/-- Every micro-step of `WHR` goes on and keeps the invariant. -/
theorem execWhr_keeps {s : State} {a : Byte} {v : Half} (hI : StateInv s) (hs : s.seq = .exec)
    (hi : fetchCommand s = some (.whr a v)) : ∃ t, exec (.whr a v) s = .next t ∧ StateInv t := by
  have hr := (hI.exec hs).pos_rule
  have ho : callOf s.cfg (fetchCommand s) .r1 = some (whrCall a v .r1) := by
    simp [hi, callOf, commandCall]
  simp only [exec, execWhr]
  split
  · exact build_keeps hI ho
  · exact opStep_keeps hI hs ‹_› ho
  · exact ⟨_, rfl, hI.complete _ (ret1_ok hI)⟩
  · exfalso
    rcases hp : s.pos with _ | _ | _ | ⟨k, p⟩ | k | _ | _ | _ <;>
      first
      | (cases k <;> simp_all [posInRule, callOf, commandCall])
      | simp_all [posInRule, commandClears, commandWaits, commandFinishes]

/-- Every micro-step of `GETCO2` goes on and keeps the invariant. -/
theorem execGetco2_keeps {s : State} (hI : StateInv s) (hs : s.seq = .exec)
    (hi : fetchCommand s = some .getco2) : ∃ t, exec .getco2 s = .next t ∧ StateInv t := by
  have hr := (hI.exec hs).pos_rule
  have hc : (fetchCommand s).any commandClears = true := by simp [hi, commandClears]
  have ho : callOf s.cfg (fetchCommand s) .r1 = some (rirCall s.cfg.regCo2 .r1) := by
    simp [hi, callOf, commandCall]
  simp only [exec, execGetco2]
  split
  · exact clearStep_keeps hI hs (.inr rfl) hc
  · exact clearStep_keeps hI hs (.inl ‹_›) hc
  · exact build_keeps hI ho
  · exact opStep_keeps hI hs ‹_› ho
  · exact ⟨_, rfl, hI.complete _ (ret1_ok hI)⟩
  · exfalso
    rcases hp : s.pos with _ | _ | _ | ⟨k, p⟩ | k | _ | _ | _ <;>
      first
      | (cases k <;> simp_all [posInRule, callOf, commandCall])
      | simp_all [posInRule, commandClears, commandWaits, commandFinishes]

theorem initCall_slot (c : Config) (k : Slot) : (initCall c k).slot = k := by cases k <;> rfl

theorem initOk_noError {s : State} (hI : StateInv s) : initOk s = true → initErr s = .none := by
  intro h
  simp only [initOk, Bool.and_eq_true] at h
  have h1 := hI.ret_ok .r1 h.1.1.1
  have h2 := hI.ret_ok .r2 h.1.1.2
  have h3 := hI.ret_ok .r3 h.1.2
  have h4 := hI.ret_ok .r4 h.2
  simp only [State.ret] at h1 h2 h3 h4
  exact firstErr_of_ok _ (by simp [h1, h2, h3, h4])

/-- Every micro-step of `INIT` goes on and keeps the invariant. -/
theorem execInit_keeps {s : State} (hI : StateInv s) (hs : s.seq = .exec)
    (hi : fetchCommand s = some .init) : ∃ t, exec .init s = .next t ∧ StateInv t := by
  have hr := (hI.exec hs).pos_rule
  have hc : (fetchCommand s).any commandClears = true := by simp [hi, commandClears]
  have ho : ∀ k, callOf s.cfg (fetchCommand s) k = some (initCall s.cfg k) := by
    simp [hi, callOf, commandCall]
  simp only [exec, execInit]
  split
  · refine ⟨_, rfl, goto_keeps hI ?_ ?_ ?_⟩ <;> split <;> simp [posInRule, hc, ho, atRxRead]
  · exact clearStep_keeps hI hs (.inl ‹_›) hc
  · exact build_keeps (o := initCall s.cfg .r1) hI (ho _)
  · exact opStep_keeps hI hs ‹_› (ho _)
  · exact build_keeps (o := initCall s.cfg .r2) hI (ho _)
  · refine ⟨_, rfl, goto_keeps (hI.ofSame rfl rfl rfl rfl rfl rfl rfl rfl rfl (by simp) rfl rfl) ?_ rfl
      (by rintro _ _ ⟨⟩; rfl)⟩
    rw [fetchCommand_congr (s := s) (by simp)]
    simp [posInRule, ho]
  · refine ⟨_, rfl, goto_keeps (hI.ofSame rfl rfl rfl rfl rfl rfl rfl rfl rfl (by simp) rfl rfl) ?_ rfl
      (by rintro _ _ ⟨⟩; rfl)⟩
    rw [fetchCommand_congr (s := s) (by simp)]
    simp [posInRule, ho]
  · refine ⟨_, rfl, goto_keeps (hI.ofSame rfl rfl rfl rfl rfl rfl rfl rfl rfl (by simp) rfl rfl) ?_ rfl
      (by rintro _ _ ⟨⟩)⟩
    rw [fetchCommand_congr (s := s) (by simp)]
    simp [posInRule, hi, commandFinishes]
  · exact ⟨_, rfl, hI.complete _ (initOk_noError hI)⟩
  · exfalso
    rcases hp : s.pos with _ | _ | _ | ⟨k, p⟩ | k | _ | _ | _ <;>
      first
      | (cases k <;> simp_all [posInRule, callOf, commandCall])
      | simp_all [posInRule, commandClears, commandWaits, commandFinishes]

theorem execGetid_keeps {s : State} (hI : StateInv s) (hs : s.seq = .exec)
    (hi : fetchCommand s = some .getid) : ∃ t, exec .getid s = .next t ∧ StateInv t := by
  have hr := (hI.exec hs).pos_rule
  simp only [exec, execGetid]
  split
  · exact ⟨_, rfl, hI.complete _ (by simp)⟩
  · exfalso
    rcases hp : s.pos with _ | _ | _ | ⟨k, p⟩ | k | _ | _ | _ <;>
      first
      | (cases k <;> simp_all [posInRule, callOf, commandCall])
      | simp_all [posInRule, commandClears, commandWaits, commandFinishes]

theorem execGetfw_keeps {s : State} (hI : StateInv s) (hs : s.seq = .exec)
    (hi : fetchCommand s = some .getfw) : ∃ t, exec .getfw s = .next t ∧ StateInv t := by
  have hr := (hI.exec hs).pos_rule
  simp only [exec, execGetfw]
  split
  · exact ⟨_, rfl, hI.complete _ (by simp)⟩
  · exfalso
    rcases hp : s.pos with _ | _ | _ | ⟨k, p⟩ | k | _ | _ | _ <;>
      first
      | (cases k <;> simp_all [posInRule, callOf, commandCall])
      | simp_all [posInRule, commandClears, commandWaits, commandFinishes]

theorem execGetabc_keeps {s : State} (hI : StateInv s) (hs : s.seq = .exec)
    (hi : fetchCommand s = some .getabc) : ∃ t, exec .getabc s = .next t ∧ StateInv t := by
  have hr := (hI.exec hs).pos_rule
  simp only [exec, execGetabc]
  split
  · exact ⟨_, rfl, hI.complete _ (by simp)⟩
  · exfalso
    rcases hp : s.pos with _ | _ | _ | ⟨k, p⟩ | k | _ | _ | _ <;>
      first
      | (cases k <;> simp_all [posInRule, callOf, commandCall])
      | simp_all [posInRule, commandClears, commandWaits, commandFinishes]

theorem setabcOk_noError {h : Half} {w r : Ret} : setabcOk h w r = true → setabcErr h w r = .none := by
  intro e
  simp only [setabcOk, Bool.and_eq_true, beq_iff_eq] at e
  simp [setabcErr, e.1.1, e.1.2, e.2]

/-- Every micro-step of `SETABC` goes on and keeps the invariant. -/
theorem execSetabc_keeps {s : State} {h : Half} (hI : StateInv s) (hs : s.seq = .exec)
    (hi : fetchCommand s = some (.setabc h)) : ∃ t, exec (.setabc h) s = .next t ∧ StateInv t := by
  have hr := (hI.exec hs).pos_rule
  have hc : (fetchCommand s).any commandClears = true := by simp [hi, commandClears]
  have ho1 : callOf s.cfg (fetchCommand s) .r1 = some (setabcCall s.cfg h .r1) := by
    simp [hi, callOf, commandCall]
  have ho2 : callOf s.cfg (fetchCommand s) .r2 = some (setabcCall s.cfg h .r2) := by
    simp [hi, callOf, commandCall]
  simp only [exec, execSetabc]
  split
  · refine ⟨_, rfl, goto_keeps hI ?_ ?_ ?_⟩ <;> split <;> simp [posInRule, hc, ho1, atRxRead]
  · exact clearStep_keeps hI hs (.inl ‹_›) hc
  · exact build_keeps (o := setabcCall s.cfg h .r1) hI ho1
  · exact opStep_keeps hI hs ‹_› ho1
  · refine ⟨_, rfl, goto_keeps (hI.ofSame rfl rfl rfl rfl rfl rfl rfl rfl rfl (by simp) rfl rfl) ?_ rfl
      (by rintro _ _ ⟨⟩)⟩
    rw [fetchCommand_congr (s := s) (by simp)]
    simp [posInRule, hi, commandWaits]
  · exact endWait_keeps hI (by simp [posInRule, ho2]) rfl (by rintro _ _ ⟨⟩; rfl)
  · exact opStep_keeps hI hs ‹_› ho2
  · refine ⟨_, rfl, goto_keeps (hI.ofSame rfl rfl rfl rfl rfl rfl rfl rfl rfl (by simp) rfl rfl) ?_ rfl
      (by rintro _ _ ⟨⟩)⟩
    rw [fetchCommand_congr (s := s) (by simp)]
    simp [posInRule, hi, commandFinishes]
  · exact ⟨_, rfl, hI.complete _ setabcOk_noError⟩
  · exfalso
    rcases hp : s.pos with _ | _ | _ | ⟨k, p⟩ | k | _ | _ | _ <;>
      first
      | (cases k <;> simp_all [posInRule, callOf, commandCall])
      | simp_all [posInRule, commandClears, commandWaits, commandFinishes]

theorem calAcknowledged_noError {m : Half} {r : Ret} : calAcknowledged m r = true → calErr m r = .none := by
  intro e
  simp only [calAcknowledged, Bool.and_eq_true, bne_iff_ne] at e
  rw [calErr, if_neg e.1, if_pos e.2]

/-- Every micro-step of `BGCAL` goes on and keeps the invariant. -/
theorem execBgcal_keeps {s : State} (hI : StateInv s) (hs : s.seq = .exec)
    (hi : fetchCommand s = some .bgcal) : ∃ t, exec .bgcal s = .next t ∧ StateInv t := by
  have hr := (hI.exec hs).pos_rule
  have hc : (fetchCommand s).any commandClears = true := by simp [hi, commandClears]
  have ho1 : callOf s.cfg (fetchCommand s) .r1 = some (bgcalCall s.cfg .r1) := by
    simp [hi, callOf, commandCall]
  have ho2 : callOf s.cfg (fetchCommand s) .r2 = some (bgcalCall s.cfg .r2) := by
    simp [hi, callOf, commandCall]
  have ho3 : callOf s.cfg (fetchCommand s) .r3 = some (bgcalCall s.cfg .r3) := by
    simp [hi, callOf, commandCall]
  simp only [exec, execBgcal]
  split
  · exact clearStep_keeps hI hs (.inr rfl) hc
  · exact clearStep_keeps hI hs (.inl ‹_›) hc
  · exact build_keeps (o := bgcalCall s.cfg .r1) hI ho1
  · exact opStep_keeps hI hs ‹_› ho1
  · split
    · exact ⟨_, rfl, hI.complete _ (by simp)⟩
    · exact ⟨_, rfl, goto_keeps hI (by simp [posInRule, ho2]) rfl (by rintro _ _ ⟨⟩; rfl)⟩
  · exact opStep_keeps hI hs ‹_› ho2
  · split
    · exact ⟨_, rfl, hI.complete _ (by simp)⟩
    · exact ⟨_, rfl, goto_keeps hI (by simp [posInRule, hi]) rfl (by rintro _ _ ⟨⟩)⟩
  · refine ⟨_, rfl, goto_keeps (hI.ofSame rfl rfl rfl rfl rfl rfl rfl rfl rfl (by simp) rfl rfl) ?_ rfl
      (by rintro _ _ ⟨⟩)⟩
    rw [fetchCommand_congr (s := s) (by simp)]
    simp [posInRule, hi, commandWaits]
  · exact endWait_keeps hI (by simp [posInRule, ho3]) rfl (by rintro _ _ ⟨⟩; rfl)
  · exact opStep_keeps hI hs ‹_› ho3
  · exact ⟨_, rfl, hI.complete _ calAcknowledged_noError⟩
  · exfalso
    rcases hp : s.pos with _ | _ | _ | ⟨k, p⟩ | k | _ | _ | _ <;>
      first
      | (cases k <;> simp_all [posInRule, callOf, commandCall])
      | simp_all [posInRule, commandClears, commandWaits, commandFinishes]

/-- An illegal word completes. -/
theorem execIllegal_keeps {s : State} (hI : StateInv s) (hs : s.seq = .exec) (hi : fetchCommand s = none) :
    ∃ t, execIllegal s = .next t ∧ StateInv t := by
  have hr := (hI.exec hs).pos_rule
  unfold execIllegal
  split
  · exact ⟨_, rfl, hI.complete _ (by simp)⟩
  · exfalso
    cases hp : s.pos <;> simp_all [posInRule, callOf]

/-- Every micro-step of the latched command's arm goes on and keeps the invariant. -/
theorem commandStep_keeps {s : State} (hI : StateInv s) (hs : s.seq = .exec) :
    ∃ t, commandStep s = .next t ∧ StateInv t := by
  unfold commandStep
  cases hi : fetchCommand s with
  | none => exact execIllegal_keeps hI hs hi
  | some i =>
    cases i with
    | clrx => exact execClrx_keeps hI hs hi
    | rhr a => exact execRhr_keeps hI hs hi
    | rir a => exact execRir_keeps hI hs hi
    | whr a v => exact execWhr_keeps hI hs hi
    | init => exact execInit_keeps hI hs hi
    | getco2 => exact execGetco2_keeps hI hs hi
    | getid => exact execGetid_keeps hI hs hi
    | getfw => exact execGetfw_keeps hI hs hi
    | getabc => exact execGetabc_keeps hI hs hi
    | setabc h => exact execSetabc_keeps hI hs hi
    | bgcal => exact execBgcal_keeps hI hs hi
    | _ => exact absurd (fetchCommand_isCommand hi) (by simp [Instr.isCommand, Instr.place])

/-- What only the host and the agents' moves see is outside the invariant. -/
theorem StateInv.setInputs {s : State} (hI : StateInv s) (l : List Input) : StateInv (s.setInputs l) :=
  hI.ofSame rfl rfl rfl rfl rfl rfl rfl rfl rfl (by simp) rfl rfl

theorem StateInv.answerHost {s : State} (hI : StateInv s) (v : Word) : StateInv (s.answerHost v) :=
  hI.ofSame rfl rfl rfl rfl rfl rfl rfl rfl rfl (by simp) rfl rfl

theorem StateInv.tick {s : State} (hI : StateInv s) (ms : Nat) : StateInv (s.tick ms) :=
  hI.ofSame rfl rfl rfl rfl rfl rfl rfl rfl rfl (by simp) rfl rfl

/-- A byte that arrives keeps the invariant: the queue still fits and a byte the core is about to take is
still there. -/
theorem StateInv.lineAppend {s : State} (hI : StateInv s) (b : Byte) : StateInv (s.lineAppend b) where
  flags := ⟨hI.flags.busy_exec, hI.flags.not_both, hI.flags.busy_quiet, hI.flags.ok_noError,
    hI.flags.lastop_opc⟩
  exec := fun h =>
    { pos_rule := (hI.exec h).pos_rule
      rx_nonempty := fun hr => queueAfter_nonempty ((hI.exec h).rx_nonempty hr)
      count := fun k p c hp hc => by
        have := (hI.exec h).count k p c hp hc
        cases p <;> exact this
      request := fun k p c hp hb hc => (hI.exec h).request k p c hp hb hc }
  rxcnt_le := hI.rxcnt_le
  ret_ok := by simpa using hI.ret_ok
  fifo_fits := queueAfter_fits hI.fifo_fits
  sent := hI.sent

/-- Acceptance keeps the invariant. -/
theorem StateInv.accept {s : State} (hI : StateInv s) (w : Word) : StateInv (s.accept w) where
  flags := by constructor <;> simp [Status.accepted]
  exec := fun _ => ExecInv.ofPos (by simp [posInRule]) (by simp [atRxRead]) (by simp)
  rxcnt_le := hI.rxcnt_le
  ret_ok := by simpa using hI.ret_ok
  fifo_fits := hI.fifo_fits
  sent := hI.sent

/-- The reset input keeps the invariant. -/
theorem StateInv.coreReset {s : State} (hI : StateInv s) : StateInv s.coreReset where
  flags := by constructor <;> simp [State.reset, opcField]
  exec := by simp [State.reset]
  rxcnt_le := by simp [State.reset]
  ret_ok := by intro k; cases k <;> simp [State.ret, State.reset]
  fifo_fits := hI.fifo_fits
  sent := hI.sent

end Sys2Proof.Machine
end

