-- ==== Sys2Proof/Laws/Run.lean ====
section
/-! SUPPORT. Runs over a list of moves: no micro-step reads the moves still to come, runs compose, and a
register operation is one step of a longer run. -/
namespace Sys2Proof.Machine

/-- `echoLate` in the words of the statements. -/
theorem echoLate_iff_tooLate {s : State} : s.echoLate = true ↔ s.rxcnt = s.explen ∧ EchoTooLate s := echoLate_iff

/-! ## No micro-step reads the moves still to come -/

variable {s t : State} (l : List Input)

theorem endWait_setInputs {b : Word} {n : Nat} {p : Pos} (h : endWait b n p s = .next t) :
    endWait b n p (s.setInputs l) = .next (t.setInputs l) := by
  obtain ⟨hw, rfl⟩ | ⟨hw, rfl⟩ := endWait_next h
  · exact endWait_over (s := s.setInputs l) hw
  · exact endWait_early (s := t.setInputs l) hw

theorem clearStep_setInputs {p : ClearPos} (h : clearStep p s = .next t) :
    clearStep p (s.setInputs l) = .next (t.setInputs l) := by
  cases p with
  | settleEnd => exact endWait_setInputs l h
  | discard =>
    simp only [clearStep] at h
    split at h
    · cases h
    · rename_i b q hq
      cases h
      simp only [clearStep, State.setInputs_rxq, hq]; rfl
  | _ => cases h; rfl

theorem transmit_setInputs {f : Frame8} (h : transmit f s = .next t) :
    transmit f (s.setInputs l) = .next (t.setInputs l) := by
  obtain ⟨k, hk, rfl⟩ := transmit_next h
  exact transmit_at (s := s.setInputs l) hk

theorem receiveRead_setInputs {r : Frame7} (h : receiveRead r s = .next t) :
    receiveRead r (s.setInputs l) = .next (t.setInputs l) := by
  obtain ⟨k, hk, rfl⟩ := receiveRead_next h
  rw [receiveRead_at (s := s.setInputs l) hk]
  cases k <;> rfl

theorem receiveWrite_setInputs {r : Frame8} (h : receiveWrite r s = .next t) :
    receiveWrite r (s.setInputs l) = .next (t.setInputs l) := by
  obtain ⟨k, hk, rfl⟩ := receiveWrite_next h
  rw [receiveWrite_at (s := s.setInputs l) hk]
  cases k <;> rfl

theorem timedOut_setInputs {o : OpCall} : timedOut o (s.setInputs l) = (timedOut o s).setInputs l := by
  unfold timedOut
  cases o.slot <;> rfl

theorem opStep_setInputs {o : OpCall} {p : OpPos} (h : opStep o p s = .next t) :
    opStep o p (s.setInputs l) = .next (t.setInputs l) := by
  cases p with
  | settleEnd => exact endWait_setInputs l h
  | pollEnd => exact endWait_setInputs l h
  | tx => exact transmit_setInputs l h
  | check =>
    simp only [opStep, checkStep] at h ⊢
    split at h
    exacts [receiveRead_setInputs l h, receiveRead_setInputs l h, receiveWrite_setInputs l h]
  | take =>
    simp only [opStep] at h
    split at h
    · cases h
    · rename_i b q hq
      cases h
      simp only [opStep, State.setInputs_rxq, hq]; rfl
  | deadline =>
    cases h
    have e : (s.setInputs l).deadlinePassed = s.deadlinePassed := rfl
    simp only [opStep, e]
    split
    · exact congrArg _ (timedOut_setInputs l)
    · rfl
  | full =>
    cases h
    have e : (s.setInputs l).echoLate = s.echoLate := rfl
    simp only [opStep, e]
    split
    · exact congrArg _ (timedOut_setInputs l)
    · rfl
  | _ => cases h; rfl

theorem exec_setInputs {i : Instr} (h : exec i s = .next t) :
    exec i (s.setInputs l) = .next (t.setInputs l) := by
  cases i <;> simp only [exec, execClrx, execRir, execRhr, execWhr, execInit, execGetco2, execGetid,
    execGetfw, execGetabc, execSetabc, execBgcal, execReqRir, execReqRhr, execReqWhr, execRspRir,
    execRspRhr, execRspWhr] at h ⊢
  all_goals first
    | exact transmit_setInputs l h
    | exact receiveRead_setInputs l h
    | exact receiveWrite_setInputs l h
    | skip
  all_goals
    (rw [State.setInputs_pos]
     split at h <;> first
      | exact clearStep_setInputs l h
      | exact opStep_setInputs l h
      | exact endWait_setInputs l h
      | (cases h; done)
      | (cases h; rfl)
      | (simp only [State.setInputs_ret1, State.setInputs_ret2]
         split at h <;> cases h <;> simp only [*, if_true] <;> rfl))

/-- The core's micro-step does not read the moves still to come. -/
theorem coreStep_setInputs (h : coreStep s = .next t) :
    coreStep (s.setInputs l) = .next (t.setInputs l) := by
  obtain ⟨hs, rfl⟩ | ⟨hs, i, hi, he⟩ | ⟨hs, hi, hp, rfl⟩ := coreStep_next h
  · simp [coreStep, hs]
  · have hf : fetch (s.setInputs l) = some i := hi
    rw [coreStep_exec (s := s.setInputs l) hs, hf]
    exact exec_setInputs l he
  · have hf : fetch (s.setInputs l) = none := hi
    rw [coreStep_exec (s := s.setInputs l) hs, hf]
    simp only [runFetched, execIllegal, State.setInputs_pos, hp]
    rfl

/-! ## Runs compose -/

/-- The moves `l`, whatever moves follow, take the machine from `s` to `t`. -/
def Runs (l : List Input) (s t : State) : Prop :=
  ∀ rest, Host.Core.run Sys2Proof.core l.length (s.setInputs (l ++ rest)) = .next (t.setInputs rest)

theorem run_succ {n : Nat} {s u : State} (h : step s = .next u) :
    Host.Core.run Sys2Proof.core (n + 1) s = Host.Core.run Sys2Proof.core n u := by
  have : Sys2Proof.core.step s = .next u := h
  simp only [Host.Core.run, this]

theorem Runs.nil (s : State) : Runs [] s s := fun _ => rfl

/-- One move and then the others. -/
theorem Runs.cons {e : Input} {l : List Input} {s u t : State} (he : e.isMove = true)
    (h : ∀ rest, agentStep e (s.setInputs rest) = .next (u.setInputs rest)) (r : Runs l u t) :
    Runs (e :: l) s t := by
  intro rest
  have : step (s.setInputs (e :: (l ++ rest))) = .next (u.setInputs (l ++ rest)) := by
    simp only [step, systemStep, moves_setInputs_cons s _ he]
    exact h (l ++ rest)
  rw [List.length_cons, List.cons_append, run_succ this]
  exact r rest

theorem run_add (m n : Nat) : ∀ {s u : State}, Host.Core.run Sys2Proof.core m s = .next u →
    Host.Core.run Sys2Proof.core (m + n) s = Host.Core.run Sys2Proof.core n u := by
  induction m with
  | zero => intro s u h; cases h; rw [Nat.zero_add]
  | succ m ih =>
    intro s u h
    rw [Nat.add_right_comm]
    simp only [Host.Core.run] at h ⊢
    revert h
    cases Sys2Proof.core.step s with
    | next v => exact fun h => ih h
    | fault _ => exact fun h => nomatch h
    | refused _ => exact fun h => nomatch h

/-- One list of moves and then another. -/
theorem Runs.append {l m : List Input} {s t u : State} (h : Runs l s t) (r : Runs m t u) :
    Runs (l ++ m) s u := by
  intro rest
  rw [List.length_append, List.append_assoc, run_add _ _ (h (m ++ rest))]
  exact r rest

/-- A micro-step of the core. -/
theorem Runs.core {s t : State} (h : coreStep s = .next t) : Runs [.core] s t :=
  Runs.cons rfl (fun rest => coreStep_setInputs rest h) (Runs.nil t)

theorem Runs.tick (s : State) (ms : Nat) : Runs [.tick ms] s (s.tick ms) :=
  Runs.cons rfl (fun _ => rfl) (Runs.nil _)

theorem Runs.rx (s : State) (b : Byte) : Runs [.rx b] s (s.lineAppend b) :=
  Runs.cons rfl (fun _ => rfl) (Runs.nil _)

/-- The host's write of a command word. -/
theorem Runs.command {s : State} (w : Word) (h : s.status.busy = false) :
    Runs [.host (.write 0x00#8 4 w)] s (s.accept w) := by
  refine Runs.cons rfl (fun rest => ?_) (Runs.nil _)
  have hd : hostDuty 0x00#8 4 = none := by decide
  simp only [agentStep, hostStep, hostWrite, hd, State.setInputs_status, h]
  rfl

/-- A run from the state whose moves are exactly `l`. -/
theorem Runs.run {l : List Input} {s t : State} (h : Runs l s t) (hl : s.moves = l) :
    Host.Core.run Sys2Proof.core l.length s = .next (t.setInputs []) := by
  subst hl
  have hr := h []
  rw [List.append_nil] at hr
  cases hn : s.moves with
  | nil =>
    rw [hn] at hr
    have : s.setInputs [] = s := by rw [← (moves_eq_nil.1 hn).1]; rfl
    rwa [this] at hr
  | cons e l =>
    rw [← hr, hn, List.length_cons]
    have : Sys2Proof.core.step (s.setInputs (e :: l)) = Sys2Proof.core.step s := by
      rw [← hn]; exact step_setInputs_moves s
    simp only [Host.Core.run, this]

end Sys2Proof.Machine
end

