-- ==== Sys2Proof/Laws/Drain.lean ====
section
/-! SUPPORT. `CLEAR` under a line that keeps up with it (42_byte_collector.md R179): what every step keeps while
such a line goes on. -/
namespace Sys2Proof.Machine

/-! ## Moves that spare the core -/

/-- What a move that spares the core leaves as it is. -/
structure Spared (s t : State) : Prop where
  cfg : t.cfg = s.cfg
  seq : t.seq = s.seq
  cmdl : t.cmdl = s.cmdl
  pos : t.pos = s.pos
  status : t.status = s.status
  result : t.result = s.result
  txlog : t.txlog = s.txlog
  t0 : t.t0 = s.t0
  tw : t.tw = s.tw
  rxcnt : t.rxcnt = s.rxcnt
  explen : t.explen = s.explen
  took : t.took = s.took
  firstAvail : t.firstAvail = s.firstAvail
  repeating : t.repeating = s.repeating
  holds : s.rxq ≠ [] → t.rxq ≠ []
  inv : StateInv s → StateInv t

theorem Spared.refl (s : State) : Spared s s :=
  ⟨rfl, rfl, rfl, rfl, rfl, rfl, rfl, rfl, rfl, rfl, rfl, rfl, rfl, rfl, id, id⟩

theorem Spared.trans {s t u : State} (h : Spared s t) (k : Spared t u) : Spared s u :=
  ⟨k.cfg.trans h.cfg, k.seq.trans h.seq, k.cmdl.trans h.cmdl, k.pos.trans h.pos, k.status.trans h.status,
    k.result.trans h.result, k.txlog.trans h.txlog, k.t0.trans h.t0, k.tw.trans h.tw, k.rxcnt.trans h.rxcnt,
    k.explen.trans h.explen, k.took.trans h.took, k.firstAvail.trans h.firstAvail,
    k.repeating.trans h.repeating, k.holds ∘ h.holds, k.inv ∘ h.inv⟩

/-- The moves still to come are nothing the core sees. -/
theorem Spared.setInputs (s : State) (l : List Input) : Spared s (s.setInputs l) :=
  ⟨rfl, rfl, rfl, rfl, rfl, rfl, rfl, rfl, rfl, rfl, rfl, rfl, rfl, rfl, id, fun h => h.setInputs l⟩

/-- Everything a move that spares the core can do. -/
theorem sparesCore_step {e : Input} (h : sparesCore e = true) (s : State) :
    ∃ t, agentStep e s = .next t ∧ Spared s t ∧ t.inputs = s.inputs ∧ t.now = s.now + BitVec.ofNat 32 e.ms ∧
      ∀ b, e = .rx b → t.rxq = s.queueAfter b := by
  cases e with
  | core => cases h
  | reset => cases h
  | free n => cases h
  | rx b =>
    exact ⟨_, rfl, ⟨rfl, rfl, rfl, rfl, rfl, rfl, rfl, rfl, rfl, rfl, rfl, rfl, rfl, rfl, queueAfter_nonempty,
      fun hI => hI.lineAppend b⟩, rfl, (BitVec.add_zero _).symm, fun c hc => by cases hc; rfl⟩
  | tick ms =>
    exact ⟨_, rfl, ⟨rfl, rfl, rfl, rfl, rfl, rfl, rfl, rfl, rfl, rfl, rfl, rfl, rfl, rfl, id, fun hI => hI.tick ms⟩, rfl,
      rfl, fun c hc => nomatch hc⟩
  | host a =>
    cases a with
    | read off width =>
      have hd : hostDuty off width = none := hostDuty_none.2 (by simpa [sparesCore] using h)
      refine ⟨s.answerHost (readReg off s), by simp only [agentStep, hostStep, hostRead, hd],
        ⟨rfl, rfl, rfl, rfl, rfl, rfl, rfl, rfl, rfl, rfl, rfl, rfl, rfl, rfl, id, fun hI => hI.answerHost _⟩, rfl,
        (BitVec.add_zero _).symm, fun c hc => nomatch hc⟩
    | write off width v =>
      simp only [sparesCore, Bool.and_eq_true, beq_iff_eq, bne_iff_ne] at h
      have hd : hostDuty off width = none := hostDuty_none.2 h.1
      exact ⟨s, by simp only [agentStep, hostStep, hostWrite, hd, if_neg h.2], .refl s, rfl,
        (BitVec.add_zero _).symm, fun c hc => nomatch hc⟩

/-! ## One step of the drain loop -/

/-- The core is in the drain loop of `i`, and a byte is there where it takes one. -/
structure DrainLoop (i : Instr) (s : State) : Prop where
  exec : s.seq = .exec
  command : fetchCommand s = some i
  place : s.pos = .clear .avail ∨ (s.pos = .clear .discard ∧ s.rxq ≠ [])

/-- A state whose step shows nothing of the drain outside. -/
structure Quiet (s t : State) : Prop where
  cfg : t.cfg = s.cfg
  status : t.status = s.status
  result : t.result = s.result
  txlog : t.txlog = s.txlog
  repeating : t.repeating = s.repeating

theorem Quiet.refl (s : State) : Quiet s s := ⟨rfl, rfl, rfl, rfl, rfl⟩

theorem Quiet.trans {s t u : State} (h : Quiet s t) (k : Quiet t u) : Quiet s u :=
  ⟨k.cfg.trans h.cfg, k.status.trans h.status, k.result.trans h.result, k.txlog.trans h.txlog,
    k.repeating.trans h.repeating⟩

theorem DrainLoop.spared {i : Instr} {s t : State} (h : DrainLoop i s) (k : Spared s t) : DrainLoop i t :=
  ⟨k.seq.trans h.exec, (fetchCommand_congr k.cmdl).trans h.command,
    h.place.imp k.pos.trans fun p => ⟨k.pos.trans p.1, k.holds p.2⟩⟩

/-- A move that spares the core, made next, stays in the loop at the same place. -/
theorem DrainLoop.foreign {i : Instr} {s : State} {e : Input} {l : List Input} (h : DrainLoop i s)
    (hm : s.moves = e :: l) (he : sparesCore e = true) :
    ∃ t, step s = .next t ∧ DrainLoop i t ∧ Quiet s t ∧ t.pos = s.pos ∧ t.inputs = l ∧
      (s.rxq ≠ [] → t.rxq ≠ []) ∧ ∀ b, e = .rx b → FifoRoom s.cfg 1 → t.rxq ≠ [] := by
  obtain ⟨t, ht, k, hi, -, hb⟩ := sparesCore_step he (s.setInputs l)
  refine ⟨t, by simp only [Machine.step, systemStep, hm]; exact ht,
    DrainLoop.spared (s := s.setInputs l) ⟨h.exec, h.command, h.place⟩ k,
    ⟨k.cfg, k.status, k.result, k.txlog, k.repeating⟩, k.pos, hi, k.holds, fun b hrx hr => ?_⟩
  rw [hb b hrx]
  exact queueAfter_holds (s := s.setInputs l) b hr

/-- `RxAvail()` that finds a byte goes on to `RxRead()`. -/
theorem DrainLoop.coreAvail {i : Instr} {s : State} (hc : commandClears i = true) (h : DrainLoop i s)
    (hp : s.pos = .clear .avail) (hq : s.rxq ≠ []) : coreStep s = .next (s.goto (.clear .discard)) := by
  rw [coreStep_clear h.exec h.command hc hp]
  simp [clearStep, hq]

/-- `RxRead()` discards the head byte and comes back to `RxAvail()`. -/
theorem DrainLoop.coreDiscard {i : Instr} {s : State} (hc : commandClears i = true) (h : DrainLoop i s)
    (hp : s.pos = .clear .discard) :
    ∃ b q, s.rxq = b :: q ∧ coreStep s = .next ((s.setRxq q).goto (.clear .avail)) := by
  have hq : s.rxq ≠ [] := by
    obtain p | ⟨-, q⟩ := h.place
    · rw [hp] at p; cases p
    · exact q
  obtain ⟨b, q, hbq⟩ := List.exists_cons_of_ne_nil hq
  refine ⟨b, q, hbq, ?_⟩
  rw [coreStep_clear h.exec h.command hc hp]
  simp only [clearStep, hbq]

/-- The core's own micro-step stays in the loop while `RxAvail()` finds a byte. -/
theorem DrainLoop.core {i : Instr} {s : State} (hc : commandClears i = true) (h : DrainLoop i s)
    (hk : s.pos = .clear .avail → s.rxq ≠ []) : ∃ t, coreStep s = .next t ∧ DrainLoop i t ∧ Quiet s t := by
  obtain hp | ⟨hp, -⟩ := h.place
  · exact ⟨_, h.coreAvail hc hp (hk hp), ⟨h.exec, h.command, .inr ⟨rfl, hk hp⟩⟩, ⟨rfl, rfl, rfl, rfl, rfl⟩⟩
  · obtain ⟨b, q, -, hs⟩ := h.coreDiscard hc hp
    exact ⟨_, hs, ⟨h.exec, h.command, .inl rfl⟩, ⟨rfl, rfl, rfl, rfl, rfl⟩⟩

/-- Where the line keeps up, a step goes on and stays in the drain loop. -/
theorem DrainLoop.step {i : Instr} {s : State} (hc : commandClears i = true) (h : DrainLoop i s)
    (hk : LineKeepsUp s) : ∃ t, step s = .next t ∧ DrainLoop i t ∧ Quiet s t := by
  cases hm : s.moves with
  | nil =>
    obtain ⟨t, ht, hl, hq⟩ := h.core hc (hk.2 (by simp [hm]))
    exact ⟨t, (step_idle_inputs hm).trans ht, hl, hq⟩
  | cons e l =>
    by_cases he : e = .core
    · subst he
      obtain ⟨t, ht, hl, hq⟩ := DrainLoop.core (s := s.setInputs l) hc ⟨h.exec, h.command, h.place⟩
        (hk.2 (by simp [hm]))
      exact ⟨t, (step_core hm).trans ht, hl, ⟨hq.cfg, hq.status, hq.result, hq.txlog, hq.repeating⟩⟩
    · obtain ⟨t, ht, hl, hq, -⟩ := h.foreign hm ((hk.1 e (by simp [hm])).resolve_left he)
      exact ⟨t, ht, hl, hq⟩

/-! ## Rounds -/

theorem drainRounds_cons (r : DrainRound) (rs : List DrainRound) :
    drainRounds (r :: rs) = r.before ++ .core :: (r.between ++ .core :: drainRounds rs) := by
  simp [drainRounds]

/-- The moves to come are those of rounds that feed the drain loop, the first of them perhaps begun. -/
def RoundsToCome (s : State) : Prop :=
  (s.pos = .clear .avail ∧ ∃ pre mid rs, s.moves = pre ++ .core :: (mid ++ .core :: drainRounds rs) ∧
    (∀ e ∈ pre ++ mid, sparesCore e = true) ∧ ((∃ b, .rx b ∈ pre) ∨ s.rxq ≠ []) ∧ ∀ r ∈ rs, r.Feeds) ∨
  (s.pos = .clear .discard ∧ ∃ mid rs, s.moves = mid ++ .core :: drainRounds rs ∧
    (∀ e ∈ mid, sparesCore e = true) ∧ ∀ r ∈ rs, r.Feeds)

/-- Rounds that feed the drain loop keep up with it. -/
theorem RoundsToCome.keepsUp {s : State} (h : RoundsToCome s) : LineKeepsUp s := by
  obtain ⟨hp, pre, mid, rs, hm, hs, hb, -⟩ | ⟨hp, mid, rs, hm, hs, -⟩ := h
  · cases pre with
    | nil => exact ⟨by simp [hm], fun _ _ => hb.resolve_left (by simp)⟩
    | cons e pre =>
      have he : sparesCore e = true := hs e (by simp)
      refine ⟨by simp [hm, he], fun hc => ?_⟩
      have : e = .core := hc e (by simp [hm])
      subst this
      cases he
  · refine ⟨?_, fun _ h => by rw [hp] at h; cases h⟩
    cases mid with
    | nil => simp [hm]
    | cons e mid => simp [hm, hs e (by simp)]

/-- The rounds `rs` that begin at `RxAvail()` are rounds to come. -/
theorem roundsToCome_of_cons {s : State} {r : DrainRound} {rs : List DrainRound} (hp : s.pos = .clear .avail)
    (hf : ∀ x ∈ r :: rs, x.Feeds) (hm : s.moves = drainRounds (r :: rs)) : RoundsToCome s :=
  .inl ⟨hp, r.before, r.between, rs, by rw [hm, drainRounds_cons], (hf r (by simp)).spares,
    .inl (hf r (by simp)).byte, fun x hx => hf x (by simp [hx])⟩

theorem isMove_of_sparesCore {e : Input} (h : sparesCore e = true) : e.isMove = true := by
  cases e <;> first | rfl | cases h

/-- Entries that are moves that spare the core and then one of the core's are the moves to come. -/
theorem moves_of_entries {s : State} {pre l : List Input} (h : s.entries = pre ++ .core :: l)
    (hs : ∀ e ∈ pre, sparesCore e = true) : s.moves = pre ++ .core :: l := by
  rw [State.moves, h]
  cases pre with
  | nil => rfl
  | cons e pre => exact writeTurn_of_isMove (isMove_of_sparesCore (hs e (by simp)))

/-- So are those of `inputs`. -/
theorem moves_of_inputs {s : State} {pre l : List Input} (h : s.inputs = pre ++ .core :: l)
    (hs : ∀ e ∈ pre, sparesCore e = true) : s.moves = pre ++ .core :: l :=
  moves_of_entries (by rw [State.entries, h]; cases pre <;> rfl) hs

/-- So are those of rounds that feed the drain loop. -/
theorem moves_of_rounds {s : State} {r : DrainRound} {rs : List DrainRound} (hf : r.Feeds)
    (h : s.entries = drainRounds (r :: rs)) : s.moves = drainRounds (r :: rs) := by
  rw [drainRounds_cons] at h ⊢
  exact moves_of_entries h fun e he => hf.spares e (by simp [he])

/-- In rounds to come every step leaves rounds to come, or comes to `RxAvail()` with the rounds used up. -/
theorem DrainLoop.rounds {i : Instr} {s : State} (hc : commandClears i = true) (h : DrainLoop i s)
    (hr : FifoRoom s.cfg 1) (hR : RoundsToCome s) :
    ∃ t, Machine.step s = .next t ∧ DrainLoop i t ∧ Quiet s t ∧ t.inputs = s.moves.tail ∧
      ((t.moves = t.inputs ∧ RoundsToCome t) ∨ (t.inputs = [] ∧ t.pos = .clear .avail)) := by
  obtain ⟨hp, pre, mid, rs, hm, hs, hb, hf⟩ | ⟨hp, mid, rs, hm, hs, hf⟩ := hR
  · cases pre with
    | nil =>
      have hq := hb.resolve_left (by simp)
      have hl : DrainLoop i (s.setInputs (mid ++ .core :: drainRounds rs)) := ⟨h.exec, h.command, h.place⟩
      have hm' : (s.setInputs (mid ++ .core :: drainRounds rs)).moves = mid ++ .core :: drainRounds rs :=
        moves_of_inputs rfl fun e he => hs e (by simpa using he)
      exact ⟨_, (step_core hm).trans (hl.coreAvail hc hp hq), ⟨h.exec, h.command, .inr ⟨rfl, hq⟩⟩,
        ⟨rfl, rfl, rfl, rfl, rfl⟩, by rw [hm]; rfl, .inl ⟨hm', .inr ⟨rfl, mid, rs, hm', hs, hf⟩⟩⟩
    | cons e pre =>
      obtain ⟨t, ht, hl, hq, hpos, hin, hold, hrx⟩ := h.foreign hm (hs e (by simp))
      have hm' := moves_of_inputs hin fun x hx => hs x (by simp [hx])
      refine ⟨t, ht, hl, hq, by rw [hin, hm]; rfl, .inl ⟨hm'.trans hin.symm, .inl ⟨hpos.trans hp, pre, mid, rs, hm',
        fun x hx => hs x (by simp [List.mem_append.1 hx]), ?_, hf⟩⟩⟩
      obtain ⟨b, hb⟩ | hb := hb
      · obtain hb | hb := List.mem_cons.1 hb
        · exact .inr (hrx b hb.symm hr)
        · exact .inl ⟨b, hb⟩
      · exact .inr (hold hb)
  · cases mid with
    | nil =>
      have hl : DrainLoop i (s.setInputs (drainRounds rs)) := ⟨h.exec, h.command, h.place⟩
      obtain ⟨b, q, -, hst⟩ := hl.coreDiscard hc hp
      refine ⟨_, (step_core hm).trans hst, ⟨h.exec, h.command, .inl rfl⟩, ⟨rfl, rfl, rfl, rfl, rfl⟩,
        by rw [hm]; rfl, ?_⟩
      cases rs with
      | nil => exact .inr ⟨rfl, rfl⟩
      | cons r rs =>
        have hm' : (s.setInputs (drainRounds (r :: rs))).moves = drainRounds (r :: rs) :=
          moves_of_rounds (hf r (by simp)) (by
            simp only [State.entries, State.setInputs, drainRounds_cons]; cases r.before <;> rfl)
        exact .inl ⟨hm', roundsToCome_of_cons rfl hf hm'⟩
    | cons e mid =>
      obtain ⟨t, ht, hl, hq, hpos, hin, -, -⟩ := h.foreign hm (hs e (by simp))
      have hm' := moves_of_inputs hin fun x hx => hs x (by simp [hx])
      exact ⟨t, ht, hl, hq, by rw [hin, hm]; rfl, .inl ⟨hm'.trans hin.symm, .inr ⟨hpos.trans hp, mid, rs, hm', fun x hx => hs x (by simp [hx]), hf⟩⟩⟩

end Sys2Proof.Machine
end

