-- ==== Sys2Proof/Laws/Fair.lean ====
section
/-! SUPPORT. Endless schedules (00_scope.md R27): the free schedule and a round with the clock in it are clock-fair, and
what a run of a fair schedule keeps. -/
namespace Sys2Proof.Machine

/-! ## The schedule of a state -/

/-- The same moves are to come. -/
structure SameMoves (s t : State) : Prop where
  inputs : t.inputs = s.inputs
  repeating : t.repeating = s.repeating

theorem SameMoves.refl (s : State) : SameMoves s s := ⟨rfl, rfl⟩

theorem SameMoves.trans {s t u : State} (h : SameMoves s t) (k : SameMoves t u) : SameMoves s u :=
  ⟨k.inputs.trans h.inputs, k.repeating.trans h.repeating⟩

theorem SameMoves.moves {s t : State} (h : SameMoves s t) : t.moves = s.moves := by
  simp only [State.moves, State.entries, h.inputs, h.repeating]

theorem SameMoves.nextMove {s t : State} (h : SameMoves s t) : t.nextMove = s.nextMove := by
  rw [State.nextMove, h.moves, State.nextMove]

theorem SameMoves.dropMove {s t : State} (h : SameMoves s t) : SameMoves s.dropMove t.dropMove :=
  ⟨congrArg List.tail h.moves, h.repeating⟩

theorem SameMoves.dropMoves (n : Nat) : ∀ {s t : State}, SameMoves s t → SameMoves (s.dropMoves n) (t.dropMoves n) := by
  induction n with
  | zero => exact id
  | succ n ih => exact fun h => ih h.dropMove

theorem SameMoves.timeOver (n : Nat) : ∀ {s t : State}, SameMoves s t → t.timeOver n = s.timeOver n := by
  induction n with
  | zero => exact fun _ => rfl
  | succ n ih => intro s t h; simp only [State.timeOver, h.nextMove, ih h.dropMove]

theorem dropMoves_add (m n : Nat) : ∀ s : State, s.dropMoves (m + n) = (s.dropMoves m).dropMoves n := by
  induction m with
  | zero => intro s; rw [Nat.zero_add]; rfl
  | succ m ih => intro s; rw [Nat.add_right_comm]; exact ih s.dropMove

theorem timeOver_add (m n : Nat) : ∀ s : State, s.timeOver (m + n) = s.timeOver m + (s.dropMoves m).timeOver n := by
  induction m with
  | zero => intro s; rw [Nat.zero_add]; exact (Nat.zero_add _).symm
  | succ m ih =>
    intro s
    rw [Nat.add_right_comm]
    simp only [State.timeOver, ih, Nat.add_assoc, State.dropMoves]

theorem timeOver_mono {m n : Nat} (s : State) (h : m ≤ n) : s.timeOver m ≤ s.timeOver n := by
  obtain ⟨k, rfl⟩ := Nat.exists_eq_add_of_le h
  rw [timeOver_add]; exact Nat.le_add_right _ _

/-- The next move, where one will come. -/
theorem nextMove_of_cons {s : State} {e : Input} {l : List Input} (h : s.moves = e :: l) : s.nextMove = e := by
  rw [State.nextMove, h]; rfl

theorem ClockFair.congr {s t : State} (h : SameMoves s t) (hc : ClockFair s) : ClockFair t := by
  intro ms
  obtain ⟨n, hn⟩ := hc ms
  exact ⟨n, by rwa [h.timeOver]⟩

theorem ClockFair.dropMoves {s : State} (h : ClockFair s) (n : Nat) : ClockFair (s.dropMoves n) := by
  intro ms
  obtain ⟨m, hm⟩ := h (s.timeOver n + ms)
  refine ⟨m, ?_⟩
  have := timeOver_mono s (Nat.le_add_left m n)
  rw [timeOver_add] at this
  omega

theorem FairSchedule.congr {g : Nat} {s t : State} (h : SameMoves s t) (hf : FairSchedule g s) : FairSchedule g t := by
  refine ⟨hf.clock.congr h, fun n => ?_, fun n => ?_⟩
  · obtain ⟨m, hm, ht⟩ := hf.core n
    exact ⟨m, by rwa [(SameMoves.dropMoves m (h.dropMoves n)).nextMove], by rwa [(h.dropMoves n).timeOver]⟩
  · rw [(h.dropMoves n).nextMove]; exact hf.spares n

theorem FairSchedule.dropMoves {g : Nat} {s : State} (h : FairSchedule g s) (k : Nat) :
    FairSchedule g (s.dropMoves k) := by
  refine ⟨h.clock.dropMoves k, fun n => ?_, fun n => ?_⟩
  · rw [← dropMoves_add]; exact h.core (k + n)
  · rw [← dropMoves_add]; exact h.spares (k + n)

/-! ## Schedules with a fair clock -/

/-- A kind of schedule that comes back to its kind after some time is clock-fair. -/
theorem ClockFair.of_returns {P : State → Prop} (h : ∀ s, P s → ∃ n, 1 ≤ s.timeOver n ∧ P (s.dropMoves n)) :
    ∀ s, P s → ClockFair s := by
  intro s hs ms
  induction ms generalizing s with
  | zero => exact ⟨0, Nat.zero_le _⟩
  | succ ms ih =>
    obtain ⟨n, hn, hp⟩ := h s hs
    obtain ⟨m, hm⟩ := ih _ hp
    exact ⟨n + m, by rw [timeOver_add]; omega⟩

/-- The time that passes in a list of moves. -/
def msOf (l : List Input) : Nat := (l.map Input.ms).sum

/-- Moves that are listed are taken off one by one. -/
theorem dropMoves_listed (l : List Input) : ∀ {r : List Input} {s : State}, s.moves = l ++ r →
    (∀ e ∈ l, e.isMove = true) → l ≠ [] →
    s.timeOver l.length = msOf l ∧ SameMoves (s.setInputs r) (s.dropMoves l.length) := by
  induction l with
  | nil => exact fun _ _ h => absurd rfl h
  | cons e l ih =>
    intro r s hm hl _
    have hd : s.dropMove = s.setInputs (l ++ r) := by rw [State.dropMove, hm]; rfl
    cases l with
    | nil =>
      exact ⟨by simp [State.timeOver, nextMove_of_cons hm, msOf],
        by simp only [List.length_singleton, State.dropMoves, hd]; exact .refl _⟩
    | cons e' l =>
      have hm' : s.dropMove.moves = (e' :: l) ++ r := by
        rw [hd]; exact moves_setInputs_cons s _ (hl e' (by simp))
      obtain ⟨ht, hk⟩ := ih hm' (fun x hx => hl x (by simp [List.mem_cons.1 hx])) (by simp)
      refine ⟨?_, hk⟩
      rw [List.length_cons, State.timeOver, ht, nextMove_of_cons hm]
      rfl

theorem turnMoves_isMove {n : Nat} {e : Input} (h : e ∈ State.turnMoves n) : e.isMove = true := by
  simp only [State.turnMoves, List.mem_append, List.mem_cons, List.mem_filter, List.not_mem_nil, or_false] at h
  obtain h | rfl | h | rfl := h
  exacts [h.2, rfl, h.2, rfl]

theorem turnMoves_time (n : Nat) : 1 ≤ msOf (State.turnMoves n) := by
  simp only [msOf, State.turnMoves, List.map_append, List.map_cons, List.sum_append, List.sum_cons, Input.ms]
  omega

theorem turnMoves_ne_nil (n : Nat) : State.turnMoves n ≠ [] := by
  obtain ⟨e, l, h, -⟩ := turnMoves_head n
  simp [h]

/-- From its first turn on a free schedule is clock-fair. -/
theorem free_clockFair {s : State} (h : ∃ n r, s.entries = .free n :: r) : ClockFair s := by
  refine ClockFair.of_returns (P := fun s => ∃ n r, s.entries = .free n :: r) ?_ s h
  rintro s ⟨n, r, he⟩
  have hm : s.moves = State.turnMoves n ++ .free (n + 1) :: r := by rw [State.moves, he]; rfl
  obtain ⟨ht, hk⟩ := dropMoves_listed _ hm (fun _ => turnMoves_isMove) (turnMoves_ne_nil n)
  refine ⟨_, ht ▸ turnMoves_time n, n + 1, r, ?_⟩
  rw [State.entries, hk.inputs]; rfl

/-- A schedule is clock-fair if it is once its first entries, all moves, are made. -/
theorem clockFair_of_listed {s : State} {l r : List Input} (he : s.entries = l ++ r) (hl : ∀ e ∈ l, e.isMove = true)
    (hne : l ≠ []) (h : ClockFair (s.setInputs r)) : ClockFair s := by
  have hm : s.moves = l ++ r := by
    rw [State.moves, he]
    obtain ⟨e, l, rfl⟩ := List.exists_cons_of_ne_nil hne
    exact writeTurn_of_isMove (hl e (by simp))
  obtain ⟨-, hk⟩ := dropMoves_listed l hm hl hne
  intro ms
  obtain ⟨n, hn⟩ := h.congr hk ms
  exact ⟨l.length + n, by rw [timeOver_add]; omega⟩

/-- Every schedule that comes to a free one is clock-fair, whatever moves come first. -/
theorem freeSchedule_clockFair {s : State} {l r : List Input} {n : Nat} (he : s.entries = l ++ .free n :: r)
    (hl : ∀ e ∈ l, e.isMove = true) : ClockFair s := by
  by_cases hne : l = []
  · subst hne; exact free_clockFair ⟨n, r, he⟩
  · exact clockFair_of_listed he hl hne (free_clockFair ⟨n, r, rfl⟩)

/-- A schedule that comes to a free one still does after a move. -/
theorem freeSchedule_dropMove {s : State} {l r : List Input} {n : Nat} (he : s.entries = l ++ .free n :: r)
    (hl : ∀ e ∈ l, e.isMove = true) :
    ∃ l' n', s.dropMove.entries = l' ++ .free n' :: r ∧ ∀ e ∈ l', e.isMove = true := by
  have hne : ∀ {l' : List Input} {n' : Nat}, s.moves.tail = l' ++ .free n' :: r →
      s.dropMove.entries = l' ++ .free n' :: r := by
    intro l' n' h
    have hi : s.dropMove.inputs = l' ++ .free n' :: r := h
    rw [State.entries, hi]
    cases l' <;> rfl
  cases l with
  | nil =>
    obtain ⟨e, m, hm, -⟩ := turnMoves_head n
    refine ⟨m, n + 1, hne (by rw [State.moves, he]; simp [State.writeTurn, hm]), fun x hx =>
      turnMoves_isMove (n := n) (by simp [hm, hx])⟩
  | cons e l =>
    have hm : s.moves = e :: (l ++ .free n :: r) := by
      rw [State.moves, he]; exact writeTurn_of_isMove (hl e (by simp))
    exact ⟨l, n, hne (by rw [hm]; rfl), fun x hx => hl x (by simp [hx])⟩

/-- In a schedule that comes to a free one a move of the core will come. -/
theorem freeSchedule_core {s : State} {l r : List Input} {n : Nat} (he : s.entries = l ++ .free n :: r)
    (hl : ∀ e ∈ l, e.isMove = true) : ∃ m, (s.dropMoves m).nextMove = .core := by
  have key : ∀ {q rest : List Input} {s : State}, s.moves = q ++ .core :: rest → (∀ e ∈ q, e.isMove = true) →
      ∃ m, (s.dropMoves m).nextMove = .core := by
    intro q rest s hm hq
    by_cases hne : q = []
    · subst hne; exact ⟨0, nextMove_of_cons hm⟩
    · obtain ⟨-, hk⟩ := dropMoves_listed q hm hq hne
      exact ⟨q.length, by rw [hk.nextMove]; exact nextMove_of_cons (moves_setInputs_cons s _ rfl)⟩
  have turn : ∀ {s : State}, s.entries = .free n :: r → ∃ m, (s.dropMoves m).nextMove = .core := by
    intro s h
    refine key (q := (Config.freeTurn n).before.filter Input.isMove ++ .tick ((Config.freeTurn n).ms + 1) ::
      (Config.freeTurn n).between.filter Input.isMove) (rest := .free (n + 1) :: r)
      (by rw [State.moves, h]; simp [State.writeTurn, State.turnMoves]) fun e he => ?_
    exact turnMoves_isMove (n := n) (by
      simp only [State.turnMoves, List.mem_append, List.mem_cons] at he ⊢; tauto)
  by_cases hne : l = []
  · subst hne; exact turn he
  · have hm : s.moves = l ++ .free n :: r := by
      rw [State.moves, he]
      obtain ⟨e, l, rfl⟩ := List.exists_cons_of_ne_nil hne
      exact writeTurn_of_isMove (hl e (by simp))
    obtain ⟨-, hk⟩ := dropMoves_listed l hm hl hne
    obtain ⟨m, h⟩ := turn (s := s.dropMoves l.length) (by rw [State.entries, hk.inputs]; rfl)
    exact ⟨l.length + m, by rw [dropMoves_add]; exact h⟩

/-- In a schedule that comes to a free one the core moves again and again. -/
theorem freeSchedule_cores (k : Nat) : ∀ {s : State} {l r : List Input} {n : Nat}, s.entries = l ++ .free n :: r →
    (∀ e ∈ l, e.isMove = true) → ∃ m, ((s.dropMoves k).dropMoves m).nextMove = .core := by
  induction k with
  | zero => exact fun he hl => freeSchedule_core he hl
  | succ k ih =>
    intro s l r n he hl
    obtain ⟨l', n', he', hl'⟩ := freeSchedule_dropMove he hl
    exact ih he' hl'

/-- A round of moves in which the clock advances is clock-fair. -/
theorem round_clockFair {s : State} (hi : s.inputs = []) (hl : ∀ e ∈ s.repeating, e.isMove = true)
    (ht : 1 ≤ msOf s.repeating) : ClockFair s := by
  refine ClockFair.of_returns (P := fun s => s.inputs = [] ∧ (∀ e ∈ s.repeating, e.isMove = true) ∧
    1 ≤ msOf s.repeating) ?_ s ⟨hi, hl, ht⟩
  rintro s ⟨hi, hl, ht⟩
  have hne : s.repeating ≠ [] := by rintro h; rw [h] at ht; cases ht
  have he : s.entries = s.repeating := by rw [State.entries, hi]
  have hm : s.moves = s.repeating ++ [] := by
    rw [List.append_nil, State.moves, he]
    obtain ⟨e, l, h⟩ := List.exists_cons_of_ne_nil hne
    rw [h]; exact writeTurn_of_isMove (hl e (by simp [h]))
  obtain ⟨h1, hk⟩ := dropMoves_listed _ hm hl hne
  exact ⟨_, h1 ▸ ht, hk.inputs, by rw [hk.repeating]; exact hl, by rw [hk.repeating]; exact ht⟩

/-! ## Runs under a fair schedule -/

/-- `n` steps lead from `s` to `t`, which has the time and the moves to come that the schedule says. -/
structure Passes (n : Nat) (s t : State) : Prop where
  run : Host.Core.run Sys2Proof.core n s = .next t
  now : t.now = s.now + BitVec.ofNat 32 (s.timeOver n)
  moves : SameMoves (s.dropMoves n) t

theorem Passes.refl (s : State) : Passes 0 s s := ⟨rfl, (BitVec.add_zero _).symm, .refl s⟩

theorem Passes.timeOver_add {m : Nat} {s t : State} (h : Passes m s t) (n : Nat) :
    s.timeOver (m + n) = s.timeOver m + t.timeOver n := by
  rw [Machine.timeOver_add, h.moves.timeOver]

theorem Passes.trans {m n : Nat} {s t u : State} (h : Passes m s t) (k : Passes n t u) : Passes (m + n) s u where
  run := by rw [run_add m n h.run]; exact k.run
  now := by rw [k.now, h.now, h.timeOver_add, BitVec.add_assoc, BitVec.ofNat_add]
  moves := by rw [dropMoves_add]; exact (h.moves.dropMoves n).trans k.moves

theorem Passes.fair {g n : Nat} {s t : State} (h : Passes n s t) (hf : FairSchedule g s) : FairSchedule g t :=
  (hf.dropMoves n).congr h.moves

/-- One step of a schedule. -/
theorem Passes.single {s t : State} (h : step s = .next t) (hn : t.now = s.now + BitVec.ofNat 32 s.nextMove.ms)
    (hm : SameMoves s.dropMove t) : Passes 1 s t :=
  ⟨by rw [run_succ h]; rfl, hn, hm⟩

/-- The core's move is a micro-step of the core. -/
theorem step_of_nextMove_core {s : State} (h : s.nextMove = .core) : step s = coreStep s.dropMove := by
  cases hm : s.moves with
  | nil =>
    have : s.dropMove = s := by rw [State.dropMove, hm, List.tail_nil, ← (moves_eq_nil.1 hm).1]; rfl
    rw [this, step_idle_inputs hm]
  | cons e l =>
    rw [nextMove_of_cons hm] at h
    subst h
    rw [step_core hm, State.dropMove, hm, List.tail_cons]

/-- A move that spares the core, made next. -/
theorem passes_spared {s : State} (h : sparesCore s.nextMove = true) : ∃ t, Passes 1 s t ∧ Spared s t := by
  cases hm : s.moves with
  | nil => rw [State.nextMove, hm] at h; cases h
  | cons e l =>
    have he := nextMove_of_cons hm
    rw [he] at h
    have hd : s.dropMove = s.setInputs l := by rw [State.dropMove, hm]; rfl
    obtain ⟨t, ht, k, hi, hn, -⟩ := sparesCore_step h (s.setInputs l)
    refine ⟨t, .single (by simp only [step, systemStep, hm]; exact ht) (by rw [hn, he]; rfl) ?_,
      (Spared.setInputs s l).trans k⟩
    rw [hd]; exact ⟨hi, k.repeating⟩

/-- Before any move of the core the first of the core's comes, after moves that spare it. -/
theorem FairSchedule.firstCore {g m : Nat} : ∀ {s : State}, FairSchedule g s → (s.dropMoves m).nextMove = .core →
    ∃ n t, Passes n s t ∧ Spared s t ∧ t.nextMove = .core ∧ s.timeOver n ≤ s.timeOver m := by
  induction m with
  | zero => exact fun {s} _ hm => ⟨0, s, .refl s, .refl s, hm, Nat.le_refl _⟩
  | succ m ih =>
    intro s hf hm
    obtain h | h := hf.spares 0
    · exact ⟨0, s, .refl s, .refl s, h, Nat.zero_le _⟩
    · obtain ⟨t, hp, hk⟩ := passes_spared (s := s) h
      obtain ⟨n, u, hu, hk', hc, ht⟩ := ih (hp.fair hf) (by rw [(hp.moves.dropMoves m).nextMove]; exact hm)
      exact ⟨1 + n, u, hp.trans hu, hk.trans hk', hc, by
        rw [Nat.add_comm m, hp.timeOver_add, hp.timeOver_add]; omega⟩

/-- The core's next turn: after moves that spare it, within the time of the schedule, a micro-step of the core. -/
theorem FairSchedule.turn {g : Nat} {s : State} (hf : FairSchedule g s) :
    ∃ n u, Spared s u ∧ u.now = s.now + BitVec.ofNat 32 (s.timeOver (n + 1)) ∧ s.timeOver (n + 1) ≤ g ∧
      ∀ v, coreStep u = .next v → v.now = u.now → SameMoves u v → Passes (n + 1) s v := by
  obtain ⟨m, hm, ht⟩ := hf.core 0
  obtain ⟨n, t, hp, hk, hc, hn⟩ := hf.firstCore hm
  have h1 : t.timeOver 1 = 0 := by simp only [State.timeOver, hc, Input.ms]
  have he : s.timeOver (n + 1) = s.timeOver n := by rw [hp.timeOver_add, h1]; rfl
  refine ⟨n, t.dropMove, hk.trans (.setInputs t _), by rw [he]; exact hp.now, by rw [he]; exact hn.trans ht,
    fun v hv hnow hs => hp.trans (.single ((step_of_nextMove_core hc).trans hv) ?_ hs)⟩
  rw [hc]; exact hnow.trans (BitVec.add_zero _).symm

/-! ## Waits -/

/-- A wait that is not over is over before the moves that bring its time have been made. -/
theorem wait_goesOn {g T : Nat} {b : Word} {p : Pos} (hT : T + g < 2 ^ 32) (n : Nat) :
    ∀ {s : State}, FairSchedule g s → (∀ u, Spared s u → coreStep u = endWait b T p u) → (s.now - b).toNat < T →
      T ≤ (s.now - b).toNat + s.timeOver n →
      ∃ m u, Passes m s (u.goto p) ∧ Spared s u ∧ (s.now - b).toNat + s.timeOver m ≤ T + g := by
  induction n using Nat.strong_induction_on with
  | _ n ih =>
    intro s hf hw hx hn
    obtain ⟨m, u, hk, hnow, hg, hv⟩ := hf.turn
    have hel : (u.now - b).toNat = (s.now - b).toNat + s.timeOver (m + 1) := by
      rw [hnow]; exact elapsed_add (by omega)
    by_cases ho : T ≤ (u.now - b).toNat
    · exact ⟨m + 1, u, hv _ ((hw u hk).trans (endWait_over (waitOver_of_le ho))) rfl ⟨rfl, rfl⟩, hk, by omega⟩
    · have hp := hv u ((hw u hk).trans (endWait_early (waitOver_of_lt (by omega)))) rfl (.refl u)
      have hlt : m + 1 < n := by
        by_contra hge
        have := timeOver_mono s (Nat.le_of_not_lt hge)
        omega
      obtain ⟨k, rfl⟩ := Nat.exists_eq_add_of_le hlt.le
      have hs := hp.timeOver_add k
      obtain ⟨j, w, hj, hkw, hb⟩ := ih k (by omega) (hp.fair hf) (fun x hx => hw x (hk.trans hx)) (by omega) (by omega)
      exact ⟨m + 1 + j, w, hp.trans hj, hk.trans hkw, by rw [hp.timeOver_add]; omega⟩

/-- Every wait ends (00_scope.md R27). -/
theorem wait_ends {g T : Nat} {b : Word} {p : Pos} {s : State} (hT : T + g < 2 ^ 32) (hf : FairSchedule g s)
    (hw : ∀ u, Spared s u → coreStep u = endWait b T p u) :
    ∃ n u, Passes (n + 1) s (u.goto p) ∧ Spared s u ∧ s.timeOver (n + 1) ≤ T + 2 * g := by
  obtain ⟨m, u, hk, hnow, hg, hv⟩ := hf.turn
  by_cases ho : T ≤ (u.now - b).toNat
  · exact ⟨m, u, hv _ ((hw u hk).trans (endWait_over (waitOver_of_le ho))) rfl ⟨rfl, rfl⟩, hk, by omega⟩
  · have hp := hv u ((hw u hk).trans (endWait_early (waitOver_of_lt (by omega)))) rfl (.refl u)
    obtain ⟨n, hn⟩ := (hp.fair hf).clock T
    obtain ⟨j, w, hj, hkw, hb⟩ := wait_goesOn hT n (hp.fair hf) (fun x hx => hw x (hk.trans hx)) (by omega) (by omega)
    refine ⟨m + j, w, ?_, hk.trans hkw, ?_⟩
    · rw [Nat.add_right_comm]; exact hp.trans hj
    · rw [Nat.add_right_comm, hp.timeOver_add]; omega

/-- In a wait every micro-step of the core is the end of that wait, for some duration of 00_scope.md R8. -/
theorem inWait_coreStep {s : State} (hI : StateInv s) (hs : s.seq = .exec) (hp : inWait s.pos = true) :
    ∃ b T p, p ≠ s.pos ∧ T ∈ [s.cfg.tSettle, s.cfg.tPoll, s.cfg.tAbcApply, s.cfg.tCalWait, s.cfg.tRestartSettle] ∧
      ∀ u, Spared s u → coreStep u = endWait b T p u := by
  have hr := (hI.exec hs).pos_rule
  have hop : ∀ {k p}, s.pos = .op k p → ∃ o : OpCall, ∀ u, Spared s u → p ≠ .check → coreStep u = opStep o p u := by
    intro k p h
    rw [h] at hr
    obtain ⟨o, ho⟩ := Option.isSome_iff_exists.mp hr
    exact ⟨o, fun u hk hc => coreStep_op (hk.seq.trans hs) (hk.pos.trans h)
      (by rw [hk.cfg, fetchCommand_congr hk.cmdl]; exact ho) fun e => absurd e hc⟩
  cases h : s.pos with
  | clear c =>
    cases c with
    | settleEnd =>
      rw [h] at hr
      cases hi : fetchCommand s with
      | none => rw [hi] at hr; cases hr
      | some i =>
        rw [hi] at hr
        refine ⟨s.t0, s.cfg.tRestartSettle, .clear .avail, by simp, by simp, fun u hk => ?_⟩
        rw [coreStep_clear (hk.seq.trans hs) ((fetchCommand_congr hk.cmdl).trans hi) hr (hk.pos.trans h), clearStep,
          hk.t0, hk.cfg]
    | _ => rw [h] at hp; cases hp
  | op k p =>
    obtain ⟨o, ho⟩ := hop h
    cases p with
    | settleEnd =>
      exact ⟨s.t0, s.cfg.tSettle, .op o.slot .tx, by simp, by simp, fun u hk => by
        rw [ho u hk (by simp), opStep, hk.t0, hk.cfg]⟩
    | pollEnd =>
      exact ⟨s.tw, s.cfg.tPoll, .op o.slot .avail, by simp, by simp, fun u hk => by
        rw [ho u hk (by simp), opStep, hk.tw, hk.cfg]⟩
    | _ => rw [h] at hp; cases hp
  | waitEnd =>
    rw [h] at hr
    cases hi : fetchCommand s with
    | none => rw [hi] at hr; cases hr
    | some i =>
      rw [hi] at hr
      have hu : ∀ u, Spared s u → coreStep u = exec i u := fun u hk => by
        rw [coreStep_elsewhere (hk.seq.trans hs) (by simp [hk.pos, h]) (by simp [hk.pos, h]), commandStep,
          fetchCommand_congr hk.cmdl, hi, runFetched]
      cases i with
      | setabc v =>
        exact ⟨s.t0, s.cfg.tAbcApply, .op .r2 .build, by simp, by simp, fun u hk => by
          rw [hu u hk, exec, execSetabc, hk.pos, h, hk.t0, hk.cfg]⟩
      | bgcal =>
        exact ⟨s.t0, s.cfg.tCalWait, .op .r3 .build, by simp, by simp, fun u hk => by
          rw [hu u hk, exec, execBgcal, hk.pos, h, hk.t0, hk.cfg]⟩
      | _ => cases hr
  | _ => rw [h] at hp; cases hp

/-! ## Collections -/

/-- The core is at a position of register operation `o` of the latched command. -/
structure AtOp (o : OpCall) (p : OpPos) (s : State) : Prop where
  inv : StateInv s
  exec : s.seq = .exec
  place : s.pos = .op o.slot p
  call : callOf s.cfg (fetchCommand s) o.slot = some o

theorem AtOp.spared {o : OpCall} {p : OpPos} {s t : State} (h : AtOp o p s) (k : Spared s t) : AtOp o p t where
  inv := k.inv h.inv
  exec := k.seq.trans h.exec
  place := k.pos.trans h.place
  call := by rw [k.cfg, fetchCommand_congr k.cmdl]; exact h.call

theorem AtOp.count {o : OpCall} {p : OpPos} {s : State} (h : AtOp o p s) : CountAt o.fn s p :=
  (h.inv.exec h.exec).count _ _ _ h.place h.call

theorem AtOp.coreStep {o : OpCall} {p : OpPos} {s : State} (h : AtOp o p s) : coreStep s = opStep o p s :=
  coreStep_op h.exec h.place h.call fun e =>
    (h.inv.exec h.exec).request _ _ _ h.place (by simp [e]) h.call

/-- Where the collection has ended: with all its bytes, or with a timeout (42_byte_collector.md R177). -/
def CollectEnded (k : Slot) (s : State) : Prop :=
  (s.pos = .op k .check ∧ s.rxcnt = s.explen) ∨ (s.pos = .after k ∧ (s.ret k).ok = false ∧ (s.ret k).err = .timeout)

/-- The core's next turn at a position of a register operation: what its micro-step does is given by the caller. -/
theorem AtOp.turn {g : Nat} {o : OpCall} {p : OpPos} {s : State} (h : AtOp o p s) (hf : FairSchedule g s) :
    ∃ n u, Spared s u ∧ AtOp o p u ∧ u.now = s.now + BitVec.ofNat 32 (s.timeOver (n + 1)) ∧ s.timeOver (n + 1) ≤ g ∧
      ∀ v, opStep o p u = .next v → v.now = u.now → SameMoves u v → Passes (n + 1) s v ∧ StateInv v := by
  obtain ⟨n, u, hk, hnow, hg, hv⟩ := hf.turn
  have hu := h.spared hk
  refine ⟨n, u, hk, hu, hnow, hg, fun v hs hn hm => ⟨hv v (hu.coreStep.trans hs) hn hm, ?_⟩⟩
  obtain ⟨w, hw, hI⟩ := opStep_keeps hu.inv hu.exec hu.place hu.call
  rw [hs] at hw; cases hw; exact hI

/-- After a deadline test that fails, at the start of a poll wait. -/
structure AtPoll (o : OpCall) (s t : State) : Prop where
  op : AtOp o .pollBegin t
  cfg : t.cfg = s.cfg
  t0 : t.t0 = s.t0
  early : (t.now - t.t0).toNat ≤ t.cfg.tDeadline

/-- A timeout ends the collection and takes no time. -/
theorem timedOut_ended (o : OpCall) (s : State) :
    (timedOut o s).now = s.now ∧ SameMoves s (timedOut o s) ∧ CollectEnded o.slot (timedOut o s) := by
  unfold timedOut
  exact ⟨by simp, ⟨by simp, by simp⟩, .inr ⟨rfl, by cases o.slot <;> cases o.fn <;> exact ⟨rfl, rfl⟩⟩⟩

/-- The deadline test ends the collection or leads to a poll wait. -/
theorem AtOp.deadline {g : Nat} {o : OpCall} {s : State} (h : AtOp o .deadline s) (hf : FairSchedule g s) :
    ∃ n t, Passes (n + 1) s t ∧ s.timeOver (n + 1) ≤ g ∧ (CollectEnded o.slot t ∨ AtPoll o s t) := by
  obtain ⟨n, u, hk, hu, hnow, hg, hv⟩ := h.turn hf
  cases hd : u.deadlinePassed with
  | true =>
    obtain ⟨hn, hm, he⟩ := timedOut_ended o u
    obtain ⟨hp, -⟩ := hv (timedOut o u) (by simp only [opStep, hd, if_true]) hn hm
    exact ⟨n, _, hp, hg, .inl he⟩
  | false =>
    obtain ⟨hp, hI⟩ := hv (u.goto (.op o.slot .pollBegin)) (by simp [opStep, hd]) rfl ⟨rfl, rfl⟩
    exact ⟨n, _, hp, hg, .inr ⟨⟨hI, hu.exec, rfl, hu.call⟩, hk.cfg, hk.t0, by
      simpa [State.deadlinePassed] using hd⟩⟩

/-- The completion test ends the collection, or leads to the deadline test, or, where a byte was taken, to the next
poll. -/
theorem AtOp.full {g : Nat} {o : OpCall} {s : State} (h : AtOp o .full s) (hf : FairSchedule g s) :
    ∃ n t, Passes (n + 1) s t ∧ s.timeOver (n + 1) ≤ g ∧ (CollectEnded o.slot t ∨
      (t.cfg = s.cfg ∧ t.t0 = s.t0 ∧ t.rxcnt = s.rxcnt ∧ t.explen = s.explen ∧
        (AtOp o .deadline t ∨ (AtOp o .avail t ∧ s.took = true)))) := by
  obtain ⟨n, u, hk, hu, hnow, hg, hv⟩ := h.turn hf
  cases hl : u.echoLate with
  | true =>
    obtain ⟨hn, hm, he⟩ := timedOut_ended o u
    obtain ⟨hp, -⟩ := hv (timedOut o u) (by simp only [opStep, hl, if_true]) hn hm
    exact ⟨n, _, hp, hg, .inl he⟩
  | false =>
    obtain ⟨hp, hI⟩ := hv (u.goto (afterFull o.slot u)) (by simp [opStep, hl]) rfl ⟨rfl, rfl⟩
    refine ⟨n, _, hp, hg, ?_⟩
    by_cases hc : u.rxcnt = u.explen
    · exact .inl (.inl ⟨by simp [afterFull, hc], hc⟩)
    · refine .inr ⟨hk.cfg, hk.t0, hk.rxcnt, hk.explen, ?_⟩
      by_cases ht : u.cfg.pollMode = .sleepWhenEmpty ∧ u.took = true
      · exact .inr ⟨⟨hI, hu.exec, by simp [afterFull, hc, ht], hu.call⟩, hk.took ▸ ht.2⟩
      · exact .inl ⟨hI, hu.exec, by simp [afterFull, hc, ht], hu.call⟩

/-- A take leads to the completion test with a byte more. -/
theorem AtOp.take {g : Nat} {o : OpCall} {s : State} (h : AtOp o .take s) (hf : FairSchedule g s) :
    ∃ n t, Passes (n + 1) s t ∧ s.timeOver (n + 1) ≤ g ∧ t.cfg = s.cfg ∧ t.t0 = s.t0 ∧ t.rxcnt = s.rxcnt + 1 ∧
      t.explen = s.explen ∧ AtOp o .full t := by
  obtain ⟨n, u, hk, hu, hnow, hg, hv⟩ := h.turn hf
  have hq : u.rxq ≠ [] := (hu.inv.exec hu.exec).rx_nonempty (by rw [hu.place]; rfl)
  obtain ⟨b, q, hbq⟩ := List.exists_cons_of_ne_nil hq
  obtain ⟨hp, hI⟩ := hv ((u.takeByte b q).goto (.op o.slot .full)) (by simp only [opStep, hbq]) rfl ⟨rfl, rfl⟩
  exact ⟨n, _, hp, hg, hk.cfg, hk.t0, congrArg (· + 1) hk.rxcnt, hk.explen, hI, hu.exec, rfl, hu.call⟩

/-- A poll leads to a take, or to the completion test with no byte taken. -/
theorem AtOp.avail {g : Nat} {o : OpCall} {s : State} (h : AtOp o .avail s) (hf : FairSchedule g s) :
    ∃ n t, Passes (n + 1) s t ∧ s.timeOver (n + 1) ≤ g ∧ t.cfg = s.cfg ∧ t.t0 = s.t0 ∧ t.rxcnt = s.rxcnt ∧
      t.explen = s.explen ∧ (AtOp o .take t ∨ (AtOp o .full t ∧ t.took = false)) := by
  obtain ⟨n, u, hk, hu, hnow, hg, hv⟩ := h.turn hf
  obtain ⟨hp, hI⟩ := hv (u.readAvail.goto (if u.rxq.isEmpty then .op o.slot .full else .op o.slot .take)) rfl rfl
    ⟨rfl, rfl⟩
  refine ⟨n, _, hp, hg, hk.cfg, hk.t0, hk.rxcnt, hk.explen, ?_⟩
  by_cases hq : u.rxq.isEmpty
  · exact .inr ⟨⟨hI, hu.exec, by simp [hq], hu.call⟩, rfl⟩
  · exact .inl ⟨hI, hu.exec, by simp [hq], hu.call⟩

/-- From a position `p` the collection ends or comes to a poll wait within `a` turns' time. -/
def ToPoll (g a : Nat) (o : OpCall) (s : State) : Prop :=
  ∃ n t, Passes (n + 1) s t ∧ s.timeOver (n + 1) ≤ a * g ∧ (CollectEnded o.slot t ∨ AtPoll o s t)

/-- A turn before. -/
theorem ToPoll.after {g a n : Nat} {o : OpCall} {s t : State} (hp : Passes (n + 1) s t) (hg : s.timeOver (n + 1) ≤ g)
    (hc : t.cfg = s.cfg) (h0 : t.t0 = s.t0) (h : ToPoll g a o t) : ToPoll g (a + 1) o s := by
  obtain ⟨m, u, hm, ha, hu⟩ := h
  refine ⟨n + 1 + m, u, hp.trans hm, ?_, hu.imp_right fun k => ⟨k.op, k.cfg.trans hc, k.t0.trans h0, k.early⟩⟩
  have := hp.timeOver_add (m + 1)
  rw [Nat.add_assoc (n + 1), this, Nat.succ_mul]
  omega

theorem ToPoll.mono {g a b : Nat} {o : OpCall} {s : State} (h : ToPoll g a o s) (hab : a ≤ b) : ToPoll g b o s := by
  obtain ⟨n, t, hp, ha, ht⟩ := h
  exact ⟨n, t, hp, ha.trans (Nat.mul_le_mul_right g hab), ht⟩

theorem AtOp.deadline_toPoll {g : Nat} {o : OpCall} {s : State} (h : AtOp o .deadline s) (hf : FairSchedule g s) :
    ToPoll g 1 o s := by
  obtain ⟨n, t, hp, hg, ht⟩ := h.deadline hf
  exact ⟨n, t, hp, by rwa [Nat.one_mul], ht⟩

/-- The completion test: with a byte taken a poll may follow. -/
theorem AtOp.full_toPoll {g a : Nat} {o : OpCall} {s : State} (h : AtOp o .full s) (hf : FairSchedule g s)
    (next : ∀ t, s.took = true → AtOp o .avail t → FairSchedule g t → t.rxcnt = s.rxcnt → t.explen = s.explen →
      ToPoll g a o t) (ha : 1 ≤ a) : ToPoll g (a + 1) o s := by
  obtain ⟨n, t, hp, hg, hd | ⟨hc, h0, hr, he, hd | ⟨hd, hk⟩⟩⟩ := h.full hf
  · exact ⟨n, t, hp, hg.trans (Nat.le_mul_of_pos_left g (Nat.succ_pos a)), .inl hd⟩
  · exact .after hp hg hc h0 ((hd.deadline_toPoll (hp.fair hf)).mono ha)
  · exact .after hp hg hc h0 (next t hk hd (hp.fair hf) hr he)

/-- From a poll the collection ends or comes to a poll wait: no more bytes are taken than it expects. -/
theorem AtOp.avail_toPoll {g : Nat} {o : OpCall} (r : Nat) : ∀ {s : State}, AtOp o .avail s → FairSchedule g s →
    s.explen - s.rxcnt ≤ r → ToPoll g (3 * r + 3) o s := by
  induction r with
  | zero =>
    intro s h _ hr
    have := h.count.2
    omega
  | succ r ih =>
    intro s h hf hr
    obtain ⟨n, t, hp, hg, hc, h0, hx, he, ht | ⟨ht, hk⟩⟩ := h.avail hf
    · obtain ⟨m, u, hm, hgm, hcm, h0m, hxm, hem, hu⟩ := ht.take (hp.fair hf)
      have := hu.full_toPoll (a := 3 * r + 3) (hm.fair (hp.fair hf))
        (fun v _ hv hfv hrv hev => ih hv hfv (by omega)) (by omega)
      exact ((this.after hm hgm hcm h0m).after hp hg hc h0).mono (by omega)
    · have := ht.full_toPoll (a := 1) (hp.fair hf) (fun v hv _ _ _ _ => by rw [hk] at hv; cases hv) (Nat.le_refl 1)
      exact (this.after hp hg hc h0).mono (by omega)

theorem explen_le {o : OpCall} {s : State} (h : s.explen = o.fn.rspLen) : s.explen ≤ 8 := by
  rw [h]; cases o.fn <;> simp [FnCode.rspLen, readRspLen, writeRspLen]

/-- A poll wait ends at a poll. -/
theorem AtOp.pollEnd {g : Nat} {o : OpCall} {s : State} (h : AtOp o .pollEnd s) (hf : FairSchedule g s)
    (hT : s.cfg.tPoll + g < 2 ^ 32) :
    ∃ n t, Passes (n + 1) s t ∧ s.timeOver (n + 1) ≤ s.cfg.tPoll + 2 * g ∧ t.cfg = s.cfg ∧ t.t0 = s.t0 ∧
      AtOp o .avail t := by
  obtain ⟨n, u, hp, hk, hb⟩ := wait_ends (b := s.tw) (p := .op o.slot .avail) hT hf fun u hk => by
    rw [(h.spared hk).coreStep, opStep, hk.tw, hk.cfg]
  have hu := h.spared hk
  have hI : StateInv (u.goto (.op o.slot .avail)) := by
    refine hu.inv.move rfl rfl rfl rfl (fun _ => ?_) hu.inv.rxcnt_le (by simpa using hu.inv.ret_ok) (Nat.le_refl _)
      hu.inv.sent
    exact .ofOp (o := o) rfl hu.call (by simp) hu.count
      fun _ => (hu.inv.exec hu.exec).request _ _ _ hu.place (by simp) hu.call
  exact ⟨n, _, hp, hb, hk.cfg, hk.t0, hI, hu.exec, rfl, hu.call⟩

/-- From the start of a poll wait the collection ends or comes to the next poll wait, and the clock tells how long that
took. -/
theorem AtOp.pollBegin {g : Nat} {o : OpCall} {s : State} (h : AtOp o .pollBegin s) (hf : FairSchedule g s)
    (hT : s.cfg.tPoll + g < 2 ^ 32) :
    ∃ n t, Passes (n + 1) s t ∧ s.timeOver (n + 1) ≤ s.cfg.tPoll + 30 * g ∧
      (CollectEnded o.slot t ∨ AtPoll o s t) := by
  obtain ⟨n, u, hk, hu, hnow, hg, hv⟩ := h.turn hf
  obtain ⟨hp, hI⟩ := hv (u.beginPoll.goto (.op o.slot .pollEnd)) rfl rfl ⟨rfl, rfl⟩
  have hw : AtOp o .pollEnd (u.beginPoll.goto (.op o.slot .pollEnd)) := ⟨hI, hu.exec, rfl, hu.call⟩
  have hc : (u.beginPoll.goto (.op o.slot .pollEnd)).cfg = s.cfg := hk.cfg
  obtain ⟨m, t, hm, hgm, hcm, h0m, ht⟩ := hw.pollEnd (hp.fair hf) (by rwa [hc])
  obtain ⟨j, v, hj, hgj, hvv⟩ := ht.avail_toPoll 8 (hm.fair (hp.fair hf)) (by
    have := explen_le ht.count.1; omega)
  refine ⟨n + 1 + (m + 1) + j, v, (hp.trans hm).trans hj, ?_, hvv.imp_right fun k =>
    ⟨k.op, k.cfg.trans (hcm.trans hc), k.t0.trans (h0m.trans hk.t0), k.early⟩⟩
  rw [Nat.add_assoc _ j 1, (hp.trans hm).timeOver_add, hp.timeOver_add]
  rw [hc] at hgm
  omega

/-- A collection with a poll wait before its deadline ends: the clock does not stand still. -/
theorem AtOp.ends {g : Nat} {o : OpCall} (n : Nat) : ∀ {s : State}, AtOp o .pollBegin s → FairSchedule g s →
    s.cfg.tPoll + g < 2 ^ 32 → s.cfg.tDeadline + s.cfg.tPoll + 32 * g < 2 ^ 32 →
    (s.now - s.t0).toNat ≤ s.cfg.tDeadline → s.cfg.tDeadline < (s.now - s.t0).toNat + s.timeOver n →
    ∃ m t, Passes m s t ∧ CollectEnded o.slot t := by
  induction n using Nat.strong_induction_on with
  | _ n ih =>
    intro s h hf hT hD hx hn
    obtain ⟨m, t, hp, hg, ht | ht⟩ := h.pollBegin hf hT
    · exact ⟨_, t, hp, ht⟩
    · have hel : (t.now - t.t0).toNat = (s.now - s.t0).toNat + s.timeOver (m + 1) := by
        rw [hp.now, ht.t0]; exact elapsed_add (by omega)
      have he := ht.early
      rw [ht.cfg] at he
      have hlt : m + 1 < n := by
        by_contra hge
        have := timeOver_mono s (Nat.le_of_not_lt hge)
        omega
      obtain ⟨k, rfl⟩ := Nat.exists_eq_add_of_le hlt.le
      have hs := hp.timeOver_add k
      obtain ⟨j, u, hj, hu⟩ := ih k (by omega) ht.op (hp.fair hf) (by rwa [ht.cfg]) (by rwa [ht.cfg]) ht.early
        (by rw [ht.cfg]; omega)
      exact ⟨_, u, hp.trans hj, hu⟩

/-- Every collection ends by success or timeout (00_scope.md R27, 42_byte_collector.md R177). -/
theorem AtOp.collection_ends {g : Nat} {o : OpCall} {p : OpPos} {s : State} (h : AtOp o p s)
    (hp : inCollectLoop p = true) (hf : FairSchedule g s) (hT : s.cfg.tPoll + g < 2 ^ 32)
    (hD : s.cfg.tDeadline + s.cfg.tPoll + 32 * g < 2 ^ 32) : ∃ n t, Passes n s t ∧ CollectEnded o.slot t := by
  have fin : ∀ t m, Passes m s t → CollectEnded o.slot t ∨ AtPoll o s t →
      ∃ n t, Passes n s t ∧ CollectEnded o.slot t := by
    rintro t m hp (ht | ht)
    · exact ⟨_, t, hp, ht⟩
    · obtain ⟨n, hn⟩ := (hp.fair hf).clock (t.cfg.tDeadline + 1)
      obtain ⟨j, u, hj, hu⟩ := ht.op.ends n (hp.fair hf) (by rwa [ht.cfg]) (by rwa [ht.cfg]) ht.early (by omega)
      exact ⟨_, u, hp.trans hj, hu⟩
  have polls : ∀ a, ToPoll g a o s → ∃ n t, Passes n s t ∧ CollectEnded o.slot t := by
    rintro a ⟨n, t, hp, -, ht⟩
    exact fin t _ hp ht
  have avails : ∀ {t : State}, AtOp o .avail t → FairSchedule g t → ToPoll g 27 o t := fun ha hfa =>
    ha.avail_toPoll 8 hfa (by have := explen_le ha.count.1; omega)
  cases p with
  | avail => exact polls _ (avails h hf)
  | take =>
    obtain ⟨n, t, hn, hg, hc, h0, -, -, ht⟩ := h.take hf
    exact polls _ (.after hn hg hc h0 (ht.full_toPoll (a := 27) (hn.fair hf) (fun u _ hu hfu _ _ => avails hu hfu)
      (by omega)))
  | full => exact polls _ (h.full_toPoll (a := 27) hf (fun u _ hu hfu _ _ => avails hu hfu) (by omega))
  | deadline => exact polls _ (h.deadline_toPoll hf)
  | pollBegin =>
    obtain ⟨n, t, hn, -, ht⟩ := h.pollBegin hf hT
    exact fin t _ hn ht
  | pollEnd =>
    obtain ⟨n, t, hn, -, hc, h0, ht⟩ := h.pollEnd hf hT
    obtain ⟨m, u, hm, -, hu⟩ := avails ht (hn.fair hf)
    exact fin u _ (hn.trans hm) (hu.imp_right fun k => ⟨k.op, k.cfg.trans hc, k.t0.trans h0, k.early⟩)
  | _ => cases hp

end Sys2Proof.Machine
end

