-- ==== Sys2Proof/Laws/Frame.lean ====
section
/-! SUPPORT. What each shared micro-step leaves alone, once for all the commands that use it. -/
namespace Sys2Proof.Machine

/-- The frame every micro-step of the instruction `i` keeps, whatever its position. -/
structure Frame (i : Instr) (s t : State) : Prop where
  cfg : t.cfg = s.cfg
  cmdl : t.cmdl = s.cmdl
  now : t.now = s.now
  hostData : t.hostData = s.hostData
  inputs : t.inputs = s.inputs
  repeating : t.repeating = s.repeating
  lastop : t.status.lastop = s.status.lastop
  done : (t.seq = s.seq ∧ t.status = s.status ∧ t.result = s.result) ∨
    (t.seq = .idle ∧ t.status.busy = false ∧ t.status.done = true)
  txbuf : t.txbuf = s.txbuf ∨ ∃ k o, commandCall s.cfg i k = some o ∧
    t.txbuf = builtFrame s.cfg.slaveAddr o.fn o.addr o.value ∧ t.pos = .op k .settleBegin
  txlog : t.txlog = s.txlog ∨ ∃ k f, s.pos = .op k .tx ∧ t.txlog = s.txlog ++ [f] ∧
    (f = s.txbuf ∨ encode i = .frame f.toList)
  rxbuf : (t.rxbuf = s.rxbuf ∧ t.rxcnt = s.rxcnt) ∨
    ∃ k, s.pos = .op k .collect ∨ s.pos = .op k .take ∨ s.pos = .op k .deadline ∨
      (s.pos = .op k .full ∧ s.echoLate = true)
  rxq : t.rxq = s.rxq ∨ (∃ b, s.rxq = b :: t.rxq ∧ atRxRead s.pos = true) ∨
    (s.pos = .clear .restart ∧ t.rxq.Sublist s.rxq)
  acc : t.acc = s.acc ∨ ∃ k, t.pos = .op k .settleBegin ∨ s.pos = .op k .check
  explen : t.explen = s.explen ∨ ∃ k, s.pos = .op k .collect
  t0 : t.t0 = s.t0 ∨ (t.t0 = s.now ∧ samplesT0 i s.pos = true)
  tw : t.tw = s.tw ∨ (t.tw = s.now ∧ ∃ k, s.pos = .op k .pollBegin)
  took : t.took = s.took ∨ ∃ k, s.pos = .op k .avail ∨ s.pos = .op k .take
  firstAvail : t.firstAvail = s.firstAvail ∨ ∃ k, s.pos = .op k .collect ∨ s.pos = .op k .avail
  ret : ∀ j, t.ret j = s.ret j ∨ s.pos = .op j .check ∨ s.pos = .op j .deadline ∨
    (s.pos = .op j .full ∧ s.echoLate = true)

/-- A micro-step that leaves the snapshot alone. -/
structure SnapshotKept (s t : State) : Prop where
  deviceId : t.deviceId = s.deviceId
  fwVersion : t.fwVersion = s.fwVersion
  abcPeriod : t.abcPeriod = s.abcPeriod

variable {i : Instr} {s t : State}

theorem goto_frame (p : Pos) : Frame i s (s.goto p) ∧ SnapshotKept s (s.goto p) :=
  ⟨by constructor <;> simp, by constructor <;> simp⟩

theorem beginWait_frame (p : Pos) (h : samplesT0 i s.pos = true) :
    Frame i s (s.beginWait.goto p) ∧ SnapshotKept s (s.beginWait.goto p) :=
  ⟨by constructor <;> simp [h], by constructor <;> simp⟩

theorem beginPoll_frame {k : Slot} (p : Pos) (h : s.pos = .op k .pollBegin) :
    Frame i s (s.beginPoll.goto p) ∧ SnapshotKept s (s.beginPoll.goto p) :=
  ⟨by constructor <;> simp [h], by constructor <;> simp⟩

theorem complete_frame (ok : Bool) (err : ErrKind) (r : Word) :
    Frame i s (s.complete ok err r) ∧ SnapshotKept s (s.complete ok err r) :=
  ⟨by constructor <;> simp [Status.completed], by constructor <;> simp⟩

theorem endWait_frame {b : Word} {n : Nat} {p : Pos} (h : endWait b n p s = .next t) :
    Frame i s t ∧ SnapshotKept s t := by
  obtain ⟨-, rfl⟩ | ⟨-, rfl⟩ := endWait_next h <;>
    exact ⟨by constructor <;> simp, by constructor <;> simp⟩

theorem clearStep_frame {p : ClearPos} (hp : s.pos = .clear p ∨ p = .test) (h : clearStep p s = .next t) :
    Frame i s t ∧ SnapshotKept s t := by
  obtain ⟨rfl, rfl⟩ | ⟨rfl, rfl⟩ | ⟨rfl, rfl⟩ | ⟨rfl, rfl | rfl⟩ | ⟨rfl, rfl⟩ | ⟨rfl, b, q, hq, rfl⟩ :=
    clearStep_next h
  case inr.inl =>
    have hp : s.pos = .clear .restart := by simpa using hp
    exact ⟨by constructor <;> simp [hp, keepFrom_sublist], by constructor <;> simp⟩
  case inr.inr.inl =>
    have hp : s.pos = .clear .settleBegin := by simpa using hp
    exact beginWait_frame _ (by simp [hp, samplesT0])
  case inr.inr.inr.inr.inr =>
    have hp : s.pos = .clear .discard := by simpa using hp
    exact ⟨by constructor <;> simp [hp, hq, atRxRead], by constructor <;> simp⟩
  all_goals exact ⟨by constructor <;> simp, by constructor <;> simp⟩

theorem transmit_frame {f : Frame8} (hf : f = s.txbuf ∨ encode i = .frame f.toList)
    (h : transmit f s = .next t) : Frame i s t ∧ SnapshotKept s t := by
  obtain ⟨k, hk, rfl⟩ := transmit_next h
  refine ⟨?_, by constructor <;> simp⟩
  constructor
  case txlog => exact .inr ⟨k, f, hk, rfl, hf⟩
  all_goals simp

theorem receiveRead_frame {f : Frame7} (h : receiveRead f s = .next t) : Frame i s t ∧ SnapshotKept s t := by
  obtain ⟨k, hk, rfl⟩ := receiveRead_next h
  refine ⟨?_, by constructor <;> simp⟩
  constructor
  case ret =>
    intro j
    by_cases e : j = k
    · subst e; exact .inr (.inl hk)
    · left; simp [State.ret_bindRet_ne _ _ _ _ e]
  all_goals simp [hk]

theorem receiveWrite_frame {f : Frame8} (h : receiveWrite f s = .next t) : Frame i s t ∧ SnapshotKept s t := by
  obtain ⟨k, hk, rfl⟩ := receiveWrite_next h
  refine ⟨?_, by constructor <;> simp⟩
  constructor
  case ret =>
    intro j
    by_cases e : j = k
    · subst e; exact .inr (.inl hk)
    · left; simp [State.ret_bindRet_ne _ _ _ _ e]
  all_goals simp [hk]

theorem timedOut_frame {o : OpCall}
    (h : s.pos = .op o.slot .deadline ∨ (s.pos = .op o.slot .full ∧ s.echoLate = true)) :
    Frame i s (timedOut o s) ∧ SnapshotKept s (timedOut o s) := by
  unfold timedOut
  refine ⟨?_, by constructor <;> simp⟩
  constructor
  case ret =>
    intro j
    by_cases e : j = o.slot
    · subst e; exact .inr (.inr h)
    · left; simp [State.ret_bindRet_ne _ _ _ _ e]
  case rxbuf => exact .inr ⟨o.slot, .inr (.inr h)⟩
  all_goals simp

/-- Every micro-step of a register operation of the command. -/
theorem opStep_frame {o : OpCall} {p : OpPos} (ho : commandCall s.cfg i o.slot = some o)
    (hp : s.pos = .op o.slot p ∨ p = .build) (h : opStep o p s = .next t) :
    Frame i s t ∧ SnapshotKept s t := by
  cases p <;> simp only [opStep] at h
  case settleEnd => exact endWait_frame h
  case pollEnd => exact endWait_frame h
  case tx => exact transmit_frame (.inl rfl) h
  case check =>
    unfold checkStep at h
    split at h
    exacts [receiveRead_frame h, receiveRead_frame h, receiveWrite_frame h]
  case take =>
    split at h
    · cases h
    · rename_i b q hq
      cases h
      have hp : s.pos = .op o.slot .take := by simpa using hp
      exact ⟨by constructor <;> simp [hp, hq, atRxRead], by constructor <;> simp⟩
  case deadline =>
    have hp : s.pos = .op o.slot .deadline := by simpa using hp
    cases h
    split
    · exact timedOut_frame (.inl hp)
    · exact goto_frame _
  case collect =>
    cases h
    have hp : s.pos = .op o.slot .collect := by simpa using hp
    exact ⟨by constructor <;> simp [hp, samplesT0], by constructor <;> simp⟩
  case build =>
    cases h
    refine ⟨?_, by constructor <;> simp⟩
    constructor
    case txbuf => exact .inr ⟨o.slot, o, ho, rfl, rfl⟩
    all_goals simp
  case avail =>
    cases h
    have hp : s.pos = .op o.slot .avail := by simpa using hp
    exact ⟨by constructor <;> simp [hp], by constructor <;> simp⟩
  case full =>
    have hp : s.pos = .op o.slot .full := by simpa using hp
    cases h
    split
    · exact timedOut_frame (.inr ⟨hp, ‹_›⟩)
    · exact goto_frame _
  case settleBegin =>
    cases h
    have hp : s.pos = .op o.slot .settleBegin := by simpa using hp
    exact beginWait_frame _ (by simp [hp, samplesT0])
  case pollBegin =>
    cases h
    exact beginPoll_frame _ (by simpa using hp)

end Sys2Proof.Machine
end

