-- ==== Sys2Proof/Laws/Operation.lean ====
section
/-! SUPPORT. A register operation as one run: `SEND`, the collection of a reply already in `RXQ`, the silent
collection, and `CLEAR()` of an empty queue. -/
namespace Sys2Proof.Machine

/-! ## Elapsed time -/

theorem elapsed_self (n : Word) (ms : Nat) (h : ms < 2 ^ 32) : (n + BitVec.ofNat 32 ms - n).toNat = ms := by
  rw [elapsed_add (by simpa using h)]
  simp

theorem add_ofNat_ofNat (n : Word) (a b : Nat) :
    n + BitVec.ofNat 32 a + BitVec.ofNat 32 b = n + BitVec.ofNat 32 (a + b) := by
  rw [BitVec.add_assoc, ← BitVec.ofNat_add]

/-! ## What a stretch of a register operation keeps -/

/-- Everything but the datapath, the position, `RXQ`, `TXLOG`, the clock and the bound tuples. -/
structure CommandKept (s t : State) : Prop where
  cfg : t.cfg = s.cfg
  cmdl : t.cmdl = s.cmdl
  seq : t.seq = s.seq
  status : t.status = s.status
  result : t.result = s.result
  deviceId : t.deviceId = s.deviceId
  fwVersion : t.fwVersion = s.fwVersion
  abcPeriod : t.abcPeriod = s.abcPeriod

theorem CommandKept.trans {s t u : State} (h : CommandKept s t) (r : CommandKept t u) : CommandKept s u :=
  ⟨r.cfg.trans h.cfg, r.cmdl.trans h.cmdl, r.seq.trans h.seq, r.status.trans h.status,
    r.result.trans h.result, r.deviceId.trans h.deviceId, r.fwVersion.trans h.fwVersion,
    r.abcPeriod.trans h.abcPeriod⟩

/-- The core is executing a command whose operation `o.slot` is `o`. -/
structure Operating (o : OpCall) (s : State) : Prop where
  exec : s.seq = .exec
  call : callOf s.cfg (fetchCommand s) o.slot = some o

theorem Operating.of_kept {o : OpCall} {s t : State} (h : Operating o s) (k : CommandKept s t) :
    Operating o t :=
  ⟨by rw [k.seq]; exact h.exec, by rw [k.cfg, fetchCommand_congr k.cmdl]; exact h.call⟩

/-! ## Waits and arrivals -/

/-- A wait, begun in `s` at the present time, that lasts exactly its duration; `u` is the state in the wait. -/
theorem Runs.wait {s u : State} {n : Nat} {q : Pos} (hn : n < 2 ^ 32) (hb : coreStep s = .next u)
    (he : coreStep (u.tick n) = endWait u.now n q (u.tick n)) :
    Runs (waitMoves n) s ((u.tick n).goto q) := by
  refine (Runs.core hb).append (l := [.core]) ((Runs.tick _ n).append (l := [.tick n]) (Runs.core ?_))
  rw [he]
  refine endWait_over (waitOver_of_le ?_)
  show n ≤ (u.now + BitVec.ofNat 32 n - u.now).toNat
  rw [elapsed_self _ _ hn]

/-- Bytes that fit the FIFO arrive in order. -/
theorem Runs.arrive (bs : List Byte) : ∀ s : State, FifoRoom s.cfg (s.rxq.length + bs.length) →
    ∃ n, Runs (bs.map .rx) s { s with rxq := s.rxq ++ bs, draws := n } := by
  induction bs with
  | nil => intro s _; exact ⟨s.draws, by rw [List.append_nil]; exact Runs.nil s⟩
  | cons b bs ih =>
    intro s h
    have e : s.queueAfter b = s.rxq ++ [b] := by
      obtain ⟨e, -⟩ | ⟨d, hd, hl, -⟩ := queueAfter_cases s b
      · exact e
      · have := h d hd
        simp only [List.length_cons] at this
        omega
    have hroom : FifoRoom (s.lineAppend b).cfg ((s.lineAppend b).rxq.length + bs.length) := by
      intro d hd
      have := h d hd
      simp only [State.lineAppend_rxq, e, List.length_append, List.length_singleton]
      simp only [List.length_cons] at this
      omega
    obtain ⟨n, hr⟩ := ih (s.lineAppend b) hroom
    refine ⟨n, (Runs.rx s b).append (l := [.rx b]) ?_⟩
    have : (s.lineAppend b).rxq ++ bs = s.rxq ++ b :: bs := by
      simp [State.lineAppend_rxq, e]
    rw [this] at hr
    exact hr

/-! ## `SEND` -/

/-- The state after `SEND` under the ideal schedule, from the state that `BUILD_REQ` has left. -/
def State.sent (k : Slot) (s : State) : State :=
  ((((s.beginWait.goto (.op k .settleEnd)).tick s.cfg.tSettle).goto (.op k .tx)).tx s.txbuf).goto
    (.op k .collect)

theorem Runs.settleAndSend {o : OpCall} {s : State} (h : Operating o s)
    (hp : s.pos = .op o.slot .settleBegin) (ht : s.cfg.tSettle < 2 ^ 32) :
    Runs (waitMoves s.cfg.tSettle ++ [.core]) s (s.sent o.slot) := by
  refine (Runs.wait (u := s.beginWait.goto (.op o.slot .settleEnd)) (q := .op o.slot .tx) ht ?_ ?_).append
    (Runs.core ?_)
  · rw [coreStep_op h.exec hp h.call (by simp)]; rfl
  · exact coreStep_op (s := (s.beginWait.goto (.op o.slot .settleEnd)).tick s.cfg.tSettle) h.exec rfl h.call
      (by simp)
  · exact (coreStep_op (s := ((s.beginWait.goto (.op o.slot .settleEnd)).tick s.cfg.tSettle).goto
      (.op o.slot .tx)) h.exec rfl h.call (by simp)).trans
      (by rw [opStep]; exact transmit_at rfl)

/-! ## The collection of a reply that is already in `RXQ` -/

/-- A collection in progress: at the availability test, the bytes still to be taken in `RXQ`. -/
structure Collecting (o : OpCall) (bs : List Byte) (s : State) : Prop where
  op : Operating o s
  pos : s.pos = .op o.slot .avail
  txbuf : s.txbuf = builtFrame s.cfg.slaveAddr o.fn o.addr o.value
  rxq : s.rxq = bs
  count : s.rxcnt + bs.length = s.explen
  small : s.explen ≤ 8
  whole : s.explen ≤ s.firstAvail.getD bs.length

/-- The reply collected: at the check, `RXQ` empty, the bytes in `RXBUF` in order. -/
structure Collected (o : OpCall) (bs : List Byte) (ms : Nat) (s t : State) : Prop where
  kept : CommandKept s t
  pos : t.pos = .op o.slot .check
  txbuf : t.txbuf = s.txbuf
  txlog : t.txlog = s.txlog
  ret : ∀ j, t.ret j = s.ret j
  rxq : t.rxq = []
  bytes : t.rxbuf.toList.take s.explen = s.rxbuf.toList.take s.rxcnt ++ bs
  now : t.now = s.now + BitVec.ofNat 32 ms

theorem Frame8.take_set (f : Frame8) (n : Nat) (b : Byte) (h : n < 8) :
    (f.set n b).toList.take (n + 1) = f.toList.take n ++ [b] := by
  interval_cases n <;> rfl

/-- One byte taken: the availability test, the byte, and the completion test. -/
theorem Runs.takeOne {o : OpCall} {b : Byte} {q : List Byte} {s : State} (h : Collecting o (b :: q) s) :
    Runs (cores 3) s (((s.readAvail.goto (.op o.slot .take)).takeByte b q).goto
      (if q = [] then .op o.slot .check
        else if s.cfg.pollMode = .sleepWhenEmpty then .op o.slot .avail else .op o.slot .deadline)) := by
  have h1 : coreStep s = .next (s.readAvail.goto (.op o.slot .take)) := by
    rw [coreStep_op h.op.exec h.pos h.op.call (by simp)]
    simp [opStep, h.rxq]
  have h2 : coreStep (s.readAvail.goto (.op o.slot .take)) =
      .next (((s.readAvail.goto (.op o.slot .take)).takeByte b q).goto (.op o.slot .full)) := by
    rw [coreStep_op (s := s.readAvail.goto (.op o.slot .take)) h.op.exec rfl h.op.call (by simp)]
    simp [opStep, h.rxq]
  refine (Runs.core h1).append (l := [.core]) ((Runs.core h2).append (l := [.core]) (Runs.core ?_))
  rw [coreStep_op (s := ((s.readAvail.goto (.op o.slot .take)).takeByte b q).goto (.op o.slot .full))
    h.op.exec rfl h.op.call (by simp)]
  have hc := h.count
  simp only [List.length_cons] at hc
  rw [opStep_full (echoLate_of_whole fun m hm => by
    have : some (s.firstAvail.getD s.rxq.length) = some m := hm
    cases this
    rw [h.rxq]
    exact h.whole)]
  simp only [afterFull, State.goto_rxcnt, State.takeByte_rxcnt, State.goto_explen,
    State.takeByte_explen, State.goto_cfg, State.takeByte_cfg, State.goto_took, State.takeByte_took,
    State.readAvail_rxcnt, State.readAvail_explen, State.readAvail_cfg, and_true]
  by_cases hq : q = []
  · subst hq
    rw [if_pos (by simpa using hc), if_pos rfl]
    rfl
  · have : s.rxcnt + 1 ≠ s.explen := by
      have := List.length_pos_iff.2 hq
      omega
    rw [if_neg this, if_neg hq]
    split <;> rfl

/-- The whole collection of bytes already in `RXQ`, in either poll mode. -/
theorem Runs.collect {o : OpCall} : ∀ (bs : List Byte) (s : State), Collecting o bs s → bs ≠ [] →
    SourceTimes s.cfg → (s.now - s.t0).toNat + 15 * (bs.length - 1) ≤ 115 →
    ∃ t, Runs (pollMoves s.cfg bs.length) s t ∧
      Collected o bs (modeTime s.cfg (15 * (bs.length - 1)) 0) s t := by
  intro bs
  induction bs with
  | nil => intro s _ h; exact absurd rfl h
  | cons b q ih =>
    intro s h _ ht he
    have hr := Runs.takeOne h
    have hlt : s.rxcnt < 8 := by
      have := h.count; have := h.small
      simp only [List.length_cons] at *
      omega
    have hset := Frame8.take_set s.rxbuf s.rxcnt b hlt
    cases q with
    | nil =>
      refine ⟨_, hr, ⟨⟨rfl, rfl, rfl, rfl, rfl, rfl, rfl, rfl⟩, rfl, rfl, rfl, by simp, rfl, ?_, ?_⟩⟩
      · have : s.explen = s.rxcnt + 1 := by have := h.count; simpa using this.symm
        rw [this]; exact hset
      · have : modeTime s.cfg (15 * ([b].length - 1)) 0 = 0 := by
          unfold modeTime; split <;> rfl
        rw [this]; simp
    | cons b' q =>
      rw [if_neg (by simp)] at hr
      -- the state at the next availability test
      have next : ∀ u : State, CommandKept s u → u.pos = .op o.slot .avail → u.txbuf = s.txbuf →
          u.txlog = s.txlog → (∀ j, u.ret j = s.ret j) → u.rxq = b' :: q → u.rxcnt = s.rxcnt + 1 →
          u.explen = s.explen → u.firstAvail = some (s.firstAvail.getD s.rxq.length) →
          u.rxbuf = s.rxbuf.set s.rxcnt b → u.t0 = s.t0 →
          u.now = s.now + BitVec.ofNat 32 (modeTime s.cfg 15 0) →
          ∃ t, Runs (pollMoves s.cfg (b' :: q).length) u t ∧
            Collected o (b :: b' :: q) (modeTime s.cfg (15 * ((b :: b' :: q).length - 1)) 0) s t := by
        intro u hk hp htx hlog hret hq hcnt hexp hfa hbuf ht0 hnow
        have hc : Collecting o (b' :: q) u :=
          ⟨h.op.of_kept hk, hp, by rw [htx, hk.cfg]; exact h.txbuf, hq, by
            have := h.count
            simp only [List.length_cons] at *
            omega, by rw [hexp]; exact h.small, by
            rw [hexp, hfa, Option.getD_some, h.rxq]; exact h.whole⟩
        have hm : modeTime s.cfg 15 0 ≤ 15 := by unfold modeTime; split <;> omega
        have hel : (u.now - u.t0).toNat = (s.now - s.t0).toNat + modeTime s.cfg 15 0 := by
          rw [hnow, ht0]
          simp only [List.length_cons] at he
          exact elapsed_add (by omega)
        obtain ⟨t, hrun, hcol⟩ := ih u hc (by simp) (by rw [hk.cfg]; exact ht) (by
          rw [hel]
          simp only [List.length_cons] at he ⊢
          omega)
        refine ⟨t, by rw [← hk.cfg]; exact hrun, ⟨hk.trans hcol.kept, hcol.pos, hcol.txbuf.trans htx,
          hcol.txlog.trans hlog, fun j => (hcol.ret j).trans (hret j), hcol.rxq, ?_, ?_⟩⟩
        · rw [← hexp, hcol.bytes, hbuf, hcnt, hset]; simp
        · rw [hcol.now, hnow, hk.cfg, add_ofNat_ofNat]
          congr 2
          simp only [List.length_cons]
          unfold modeTime
          split <;> omega
      cases hm : s.cfg.pollMode with
      | sleepWhenEmpty =>
        rw [if_pos hm] at hr
        obtain ⟨t, hrun, hcol⟩ := next (((s.readAvail.goto (.op o.slot .take)).takeByte b (b' :: q)).goto
          (.op o.slot .avail)) ⟨rfl, rfl, rfl, rfl, rfl, rfl, rfl, rfl⟩ rfl rfl rfl (by simp) rfl
          rfl rfl rfl rfl rfl (by simp [modeTime, hm])
        refine ⟨t, ?_, hcol⟩
        simp only [List.length_cons, pollMoves, hm]
        exact hr.append hrun
      | sleepEveryPoll =>
        rw [if_neg (by simp [hm])] at hr
        generalize hv : ((s.readAvail.goto (.op o.slot .take)).takeByte b (b' :: q)).goto
          (.op o.slot .deadline) = v at hr
        have hvk : CommandKept s v := by subst hv; exact ⟨rfl, rfl, rfl, rfl, rfl, rfl, rfl, rfl⟩
        have hvo := h.op.of_kept hvk
        have hvp : v.pos = .op o.slot .deadline := by subst hv; rfl
        have hd : v.deadlinePassed = false := by
          refine deadlinePassed_of_le ?_
          have : (v.now - v.t0).toNat = (s.now - s.t0).toNat := by subst hv; rfl
          rw [this, hvk.cfg, ht.deadline]
          simp only [List.length_cons] at he
          omega
        have h4 : Runs [.core] v (v.goto (.op o.slot .pollBegin)) := by
          refine Runs.core ?_
          rw [coreStep_op hvo.exec hvp hvo.call (by simp)]
          simp [opStep, hd]
        have hpoll : s.cfg.tPoll < 2 ^ 32 := by rw [ht.poll]; omega
        have hw : Runs (waitMoves s.cfg.tPoll) (v.goto (.op o.slot .pollBegin))
            (((((v.goto (.op o.slot .pollBegin)).beginPoll.goto (.op o.slot .pollEnd)).tick s.cfg.tPoll)).goto
              (.op o.slot .avail)) := by
          refine Runs.wait hpoll ?_ ?_
          · rw [coreStep_op (s := v.goto (.op o.slot .pollBegin)) hvo.exec rfl hvo.call (by simp)]; rfl
          · rw [coreStep_op (s := ((v.goto (.op o.slot .pollBegin)).beginPoll.goto (.op o.slot .pollEnd)).tick
              s.cfg.tPoll) hvo.exec rfl hvo.call (by simp)]
            simp only [opStep, State.tick_cfg, State.goto_cfg, State.beginPoll_cfg, hvk.cfg]
            rfl
        generalize hu : (((((v.goto (.op o.slot .pollBegin)).beginPoll.goto (.op o.slot .pollEnd)).tick
          s.cfg.tPoll)).goto (.op o.slot .avail)) = u at hw
        have huk : CommandKept v u := by subst hu; exact ⟨rfl, rfl, rfl, rfl, rfl, rfl, rfl, rfl⟩
        obtain ⟨t, hrun, hcol⟩ := next u (hvk.trans huk) (by subst hu; rfl)
          (by subst hu hv; simp) (by subst hu hv; simp) (by subst hu hv; simp) (by subst hu hv; simp)
          (by subst hu hv; simp) (by subst hu hv; simp) (by subst hu hv; simp) (by subst hu hv; simp) (by subst hu hv; simp)
          (by subst hu hv; simp [modeTime, hm, ht.poll])
        refine ⟨t, ?_, hcol⟩
        simp only [List.length_cons, pollMoves, hm]
        have h34 : Runs (cores 4) s (v.goto (.op o.slot .pollBegin)) := hr.append (m := [.core]) h4
        exact (h34.append hw).append hrun

/-! ## A whole register operation -/

/-- The state after `BUILD_REQ` of the operation `o`. -/
def State.built (o : OpCall) (s : State) : State :=
  (s.buildReq o.fn o.addr o.value).goto (.op o.slot .settleBegin)

/-- A register operation that has returned the tuple `r`, having sent its one request. -/
structure Answered (o : OpCall) (r : Ret) (ms : Nat) (s t : State) : Prop where
  kept : CommandKept s t
  pos : t.pos = .after o.slot
  txlog : t.txlog = s.txlog ++ [builtFrame s.cfg.slaveAddr o.fn o.addr o.value]
  ret : t.ret o.slot = r
  others : ∀ j, j ≠ o.slot → t.ret j = s.ret j
  rxq : t.rxq = []
  now : t.now = s.now + BitVec.ofNat 32 ms

/-- `BUILD_REQ`, `SEND` and the start of the collection. -/
theorem Runs.send {o : OpCall} {s : State} (h : Operating o s) (hb : coreStep s = .next (s.built o))
    (ht : SourceTimes s.cfg) :
    Runs (sendMoves s.cfg) s ((s.built o).sent o.slot) := by
  have hset : s.cfg.tSettle < 2 ^ 32 := by rw [ht.settle]; omega
  exact (Runs.core hb).append (l := [.core])
    (Runs.settleAndSend (o := o) (s := s.built o) ⟨h.exec, h.call⟩ rfl hset)

/-- A register operation whose reply is in `RXQ` when its `Tx` returns, up to the check. -/
theorem Runs.reply {o : OpCall} {s : State} {bs : List Byte} (h : Operating o s)
    (hb : coreStep s = .next (s.built o)) (ht : SourceTimes s.cfg) (hq : s.rxq = [])
    (hl : bs.length = o.fn.rspLen) (hroom : FifoRoom s.cfg bs.length) :
    ∃ u, Runs (sendMoves s.cfg ++ bs.map .rx ++ cores 1 ++ pollMoves s.cfg bs.length) s u ∧
      CommandKept s u ∧ u.pos = .op o.slot .check ∧ u.txbuf = builtFrame s.cfg.slaveAddr o.fn o.addr o.value ∧
      u.txlog = s.txlog ++ [builtFrame s.cfg.slaveAddr o.fn o.addr o.value] ∧ (∀ j, u.ret j = s.ret j) ∧
      u.rxq = [] ∧ u.rxbuf.toList.take bs.length = bs ∧
      u.now = s.now + BitVec.ofNat 32 (5 + modeTime s.cfg (15 * (bs.length - 1)) 0) := by
  have h1 := Runs.send h hb ht
  generalize hv : (s.built o).sent o.slot = v at h1
  have hvk : CommandKept s v := by subst hv; exact ⟨rfl, rfl, rfl, rfl, rfl, rfl, rfl, rfl⟩
  have hvq : v.rxq = [] := by subst hv; exact hq
  obtain ⟨n, h2⟩ := Runs.arrive bs v (by rw [hvk.cfg, hvq]; simpa using hroom)
  rw [hvq, List.nil_append] at h2
  generalize hw : ({ v with rxq := bs, draws := n } : State) = w at h2
  have hwk : CommandKept v w := by subst hw; exact ⟨rfl, rfl, rfl, rfl, rfl, rfl, rfl, rfl⟩
  have hwo := h.of_kept (hvk.trans hwk)
  have h3 : Runs (cores 1) w ((w.beginCollect o.fn.rspLen).goto (.op o.slot .avail)) := by
    refine Runs.core ?_
    rw [coreStep_op hwo.exec (by subst hw hv; rfl) hwo.call (by simp)]
    rfl
  generalize hx : (w.beginCollect o.fn.rspLen).goto (.op o.slot .avail) = x at h3
  have hxk : CommandKept w x := by subst hx; exact ⟨rfl, rfl, rfl, rfl, rfl, rfl, rfl, rfl⟩
  have hxc : Collecting o bs x := by
    refine ⟨hwo.of_kept hxk, by subst hx; rfl, by subst hx hw hv; rfl, by subst hx hw; rfl, ?_, ?_, ?_⟩
    · subst hx; simpa using hl
    · subst hx; cases o.fn <;> simp [FnCode.rspLen, readRspLen, writeRspLen]
    · subst hx; simpa using hl.ge
  have hne : bs ≠ [] := by
    rintro rfl
    cases hf : o.fn <;> simp [hf, FnCode.rspLen, readRspLen, writeRspLen] at hl
  have hcfg : x.cfg = s.cfg := hxk.cfg.trans (hwk.cfg.trans hvk.cfg)
  have hle : bs.length ≤ 8 := by rw [hl]; cases o.fn <;> simp [FnCode.rspLen, readRspLen, writeRspLen]
  obtain ⟨u, h4, hu⟩ := Runs.collect bs x hxc hne (by rw [hcfg]; exact ht) (by
    have : (x.now - x.t0).toNat = 0 := by subst hx; simp
    omega)
  rw [hcfg] at h4
  refine ⟨u, ((h1.append h2).append h3).append h4, hvk.trans (hwk.trans (hxk.trans hu.kept)), hu.pos, ?_, ?_,
    ?_, hu.rxq, ?_, ?_⟩
  · rw [hu.txbuf, hxc.txbuf, hcfg]
  · rw [hu.txlog]; subst hx hw hv; rfl
  · intro j; rw [hu.ret]; subst hx hw hv; cases j <;> rfl
  · have := hu.bytes
    have hexp : x.explen = bs.length := by subst hx; simpa using hl.symm
    have hcnt : x.rxcnt = 0 := by subst hx; rfl
    rw [hexp, hcnt] at this
    simpa using this
  · rw [hu.now, hcfg]
    have : x.now = s.now + BitVec.ofNat 32 5 := by
      subst hx hw hv
      show s.now + BitVec.ofNat 32 s.cfg.tSettle = _
      rw [ht.settle]
    rw [this, add_ofNat_ofNat]

theorem first7_of_take {f : Frame8} {r : Frame7} (h : f.toList.take 7 = r.toList) : f.first7 = r := by
  obtain ⟨r0, r1, r2, r3, r4, r5, r6⟩ := r
  simp only [Frame8.take7_toList, Frame7.toList, List.cons.injEq, and_true] at h
  obtain ⟨h0, h1, h2, h3, h4, h5, h6⟩ := h
  simp [Frame8.first7] at *
  exact ⟨h0, h1, h2, h3, h4, h5, h6⟩

theorem frame8_of_take {f r : Frame8} (h : f.toList.take 8 = r.toList) : f = r := by
  obtain ⟨r0, r1, r2, r3, r4, r5, r6, r7⟩ := r
  obtain ⟨f0, f1, f2, f3, f4, f5, f6, f7⟩ := f
  simpa [Frame8.toList] using h

/-- A read operation answered by a valid response. -/
theorem Runs.answeredRead {o : OpCall} {s : State} (hf : o.fn = .readInput ∨ o.fn = .readHolding)
    (slave fn : Byte) (v : Half) (h : Operating o s) (hb : coreStep s = .next (s.built o))
    (ht : SourceTimes s.cfg) (hq : s.rxq = []) (hroom : FifoRoom s.cfg 7) :
    ∃ t, Runs (opMoves s.cfg (readReply slave fn v)) s t ∧
      Answered o ⟨true, .none, v⟩ (modeTime s.cfg 95 5) s t := by
  have h7 : o.fn.rspLen = 7 := by rcases hf with e | e <;> rw [e] <;> rfl
  obtain ⟨u, hrun, hk, hp, htx, hlog, hret, hrx, hby, hnow⟩ :=
    Runs.reply (bs := readReply slave fn v) h hb ht hq (by rw [h7]; rfl) hroom
  have hbuf := first7_of_take (f := u.rxbuf) (r := readResponseFrame slave fn v _) hby
  have hck : checkRead u.rxbuf.first7 = ⟨true, .none, v⟩ := by
    rw [hbuf, checkRead, if_neg (by simp [readResponseFrame]), if_neg]
    · simp [readResponseFrame]
    · simp [readResponseFrame, Frame7.toList]
  have ho := h.of_kept hk
  have hc : coreStep u = .next (((u.setAcc (checkReadAcc u.acc u.rxbuf.first7)).bindRet o.slot
      ⟨true, .none, v⟩).goto (.after o.slot)) := by
    rw [coreStep_op ho.exec hp ho.call (fun _ => by rw [hk.cfg]; exact htx), ← hck]
    rcases hf with e | e <;> simp only [opStep, checkStep, e] <;> exact receiveRead_at hp
  refine ⟨_, hrun.append (m := cores 1) (Runs.core hc), ⟨hk.trans ?_, by simp, by simpa using hlog, by simp,
    ?_, by simpa using hrx, ?_⟩⟩
  · constructor <;> simp
  · intro j hj; simp [State.ret_bindRet_ne _ _ _ _ hj, hret]
  · simp only [State.goto_now, State.bindRet_now, State.setAcc_now, hnow]
    congr 2
    show 5 + modeTime s.cfg (15 * 6) 0 = _
    unfold modeTime
    split <;> rfl

/-- A write operation answered by the exact echo. -/
theorem Runs.answeredWrite {o : OpCall} {s : State} (hf : o.fn = .writeSingle) (h : Operating o s)
    (hb : coreStep s = .next (s.built o)) (ht : SourceTimes s.cfg) (hq : s.rxq = [])
    (hroom : FifoRoom s.cfg 8) :
    ∃ t, Runs (opMoves s.cfg (echoReply s.cfg.slaveAddr o.addr o.value)) s t ∧
      Answered o ⟨true, .none, 0⟩ (modeTime s.cfg 110 5) s t := by
  have h8 : o.fn.rspLen = 8 := by rw [hf]; rfl
  obtain ⟨u, hrun, hk, hp, htx, hlog, hret, hrx, hby, hnow⟩ :=
    Runs.reply (bs := echoReply s.cfg.slaveAddr o.addr o.value) h hb ht hq (by rw [h8]; rfl) hroom
  have hbuf := frame8_of_take (f := u.rxbuf) (r := builtFrame s.cfg.slaveAddr .writeSingle o.addr o.value) hby
  have hck : checkWrite u.cfg.echoCheckRegister u.rxbuf u.txbuf = ⟨true, .none, 0⟩ := by
    rw [hbuf, htx, hf, checkWrite, if_neg (by rw [echoMismatch_iff]; simp),
      if_neg (by simpa using builtFrame_crc _ _ _ _)]
  have ho := h.of_kept hk
  have hc : coreStep u = .next (((u.setAcc (checkWriteAcc u.cfg.echoCheckRegister u.acc u.rxbuf
      u.txbuf)).bindRet o.slot ⟨true, .none, 0⟩).goto (.after o.slot)) := by
    rw [coreStep_op ho.exec hp ho.call (fun _ => by rw [hk.cfg]; exact htx), ← hck]
    simp only [opStep, checkStep, hf]
    exact receiveWrite_at hp
  refine ⟨_, hrun.append (m := cores 1) (Runs.core hc), ⟨hk.trans ?_, by simp, by simpa using hlog, by simp,
    ?_, by simpa using hrx, ?_⟩⟩
  · constructor <;> simp
  · intro j hj; simp [State.ret_bindRet_ne _ _ _ _ hj, hret]
  · simp only [State.goto_now, State.bindRet_now, State.setAcc_now, hnow]
    congr 2
    show 5 + modeTime s.cfg (15 * 7) 0 = _
    unfold modeTime
    split <;> rfl

/-! ## The silent collection -/

/-- Polls of an empty `RXQ` up to the one whose deadline test fails. -/
theorem Runs.silent {o : OpCall} : ∀ (n : Nat) (s : State), Operating o s → s.pos = .op o.slot .avail →
    s.rxq = [] → s.rxcnt ≠ s.explen → SourceTimes s.cfg →
    100 < (s.now - s.t0).toNat + 15 * n → (s.now - s.t0).toNat + 15 * n ≤ 115 →
    ∃ t, Runs (silentPolls s.cfg n) s t ∧ CommandKept s t ∧ t.pos = .after o.slot ∧ t.txlog = s.txlog ∧
      t.ret o.slot = timeoutRet o.fn ∧ (∀ j, j ≠ o.slot → t.ret j = s.ret j) ∧ t.rxq = [] ∧ t.rxcnt = 0 ∧
      t.now = s.now + BitVec.ofNat 32 (15 * n) := by
  intro n
  induction n with
  | zero =>
    intro s h hp hq hN ht hlo _
    have h1 : Runs [.core] s (s.readAvail.goto (.op o.slot .full)) := by
      refine Runs.core ?_
      rw [coreStep_op h.exec hp h.call (by simp)]
      simp [opStep, hq]
    have h2 : Runs [.core] (s.readAvail.goto (.op o.slot .full)) (s.readAvail.goto (.op o.slot .deadline)) := by
      refine Runs.core ?_
      rw [coreStep_op (s := s.readAvail.goto (.op o.slot .full)) h.exec rfl h.call (by simp)]
      rw [opStep_full (echoLate_of_short (by simpa using hN))]
      simp only [afterFull, State.goto_rxcnt, State.readAvail_rxcnt, State.goto_explen,
        State.readAvail_explen, hN, if_false, State.goto_took, State.readAvail_took, Bool.false_eq_true, and_false]
      rfl
    have hd : (s.readAvail.goto (.op o.slot .deadline)).deadlinePassed = true := by
      refine deadlinePassed_of_lt ?_
      show s.cfg.tDeadline < (s.now - s.t0).toNat
      rw [ht.deadline]; omega
    have h3 : Runs [.core] (s.readAvail.goto (.op o.slot .deadline))
        (((s.readAvail.goto (.op o.slot .deadline)).discardPartial.bindRet o.slot
          (timeoutRet o.fn)).goto (.after o.slot)) := by
      refine Runs.core ?_
      rw [coreStep_op (s := s.readAvail.goto (.op o.slot .deadline)) h.exec rfl h.call (by simp)]
      simp only [opStep, hd, if_true]; rfl
    refine ⟨_, h1.append (h2.append h3), by constructor <;> simp, by simp, by simp, by simp, ?_, by simpa using hq,
      by simp, by simp⟩
    intro j hj; simp [State.ret_bindRet_ne _ _ _ _ hj]
  | succ n ih =>
    intro s h hp hq hN ht hlo hhi
    have h1 : Runs [.core] s (s.readAvail.goto (.op o.slot .full)) := by
      refine Runs.core ?_
      rw [coreStep_op h.exec hp h.call (by simp)]
      simp [opStep, hq]
    have h2 : Runs [.core] (s.readAvail.goto (.op o.slot .full)) (s.readAvail.goto (.op o.slot .deadline)) := by
      refine Runs.core ?_
      rw [coreStep_op (s := s.readAvail.goto (.op o.slot .full)) h.exec rfl h.call (by simp)]
      rw [opStep_full (echoLate_of_short (by simpa using hN))]
      simp only [afterFull, State.goto_rxcnt, State.readAvail_rxcnt, State.goto_explen,
        State.readAvail_explen, hN, if_false, State.goto_took, State.readAvail_took, Bool.false_eq_true, and_false]
      rfl
    have hd : (s.readAvail.goto (.op o.slot .deadline)).deadlinePassed = false := by
      refine deadlinePassed_of_le ?_
      show (s.now - s.t0).toNat ≤ s.cfg.tDeadline
      rw [ht.deadline]; omega
    have h3 : Runs [.core] (s.readAvail.goto (.op o.slot .deadline)) (s.readAvail.goto (.op o.slot .pollBegin)) := by
      refine Runs.core ?_
      rw [coreStep_op (s := s.readAvail.goto (.op o.slot .deadline)) h.exec rfl h.call (by simp)]
      simp only [opStep, hd]
      rfl
    have hpoll : s.cfg.tPoll < 2 ^ 32 := by rw [ht.poll]; omega
    generalize hv : s.readAvail.goto (.op o.slot .pollBegin) = v at h3
    have hvk : CommandKept s v := by subst hv; exact ⟨rfl, rfl, rfl, rfl, rfl, rfl, rfl, rfl⟩
    have hvo := h.of_kept hvk
    have hw : Runs (waitMoves s.cfg.tPoll) v
        (((v.beginPoll.goto (.op o.slot .pollEnd)).tick s.cfg.tPoll).goto (.op o.slot .avail)) := by
      refine Runs.wait hpoll ?_ ?_
      · rw [coreStep_op hvo.exec (by subst hv; rfl) hvo.call (by simp)]; rfl
      · rw [coreStep_op (s := (v.beginPoll.goto (.op o.slot .pollEnd)).tick s.cfg.tPoll) hvo.exec rfl hvo.call
          (by simp)]
        simp only [opStep, State.tick_cfg, State.goto_cfg, State.beginPoll_cfg, hvk.cfg]
        rfl
    generalize hu : ((v.beginPoll.goto (.op o.slot .pollEnd)).tick s.cfg.tPoll).goto (.op o.slot .avail) = u at hw
    have huk : CommandKept v u := by subst hu; exact ⟨rfl, rfl, rfl, rfl, rfl, rfl, rfl, rfl⟩
    have hnow : u.now = s.now + BitVec.ofNat 32 15 := by subst hu hv; simp [ht.poll]
    have ht0 : u.t0 = s.t0 := by subst hu hv; simp
    have hel : (u.now - u.t0).toNat = (s.now - s.t0).toNat + 15 := by
      rw [hnow, ht0]; exact elapsed_add (by omega)
    have hcfg := (hvk.trans huk).cfg
    obtain ⟨t, hrun, hk, hpos, hlog, hret, hoth, hrx, hcnt, hn⟩ := ih u (h.of_kept (hvk.trans huk))
      (by subst hu; rfl) (by subst hu hv; simpa using hq) (by subst hu hv; simpa using hN)
      (by rw [hcfg]; exact ht) (by omega) (by omega)
    rw [hcfg] at hrun
    refine ⟨t, (((h1.append (h2.append h3)).append hw).append hrun), (hvk.trans huk).trans hk, hpos, ?_, hret, ?_,
      hrx, hcnt, ?_⟩
    · rw [hlog]; subst hu hv; simp
    · intro j hj; rw [hoth j hj]; subst hu hv; simp
    · rw [hn, hnow, add_ofNat_ofNat]; congr 2; omega

/-- A register operation on a silent line times out. -/
theorem Runs.silentOp {o : OpCall} {s : State} (h : Operating o s) (hb : coreStep s = .next (s.built o))
    (ht : SourceTimes s.cfg) (hq : s.rxq = []) :
    ∃ t, Runs (silentMoves s.cfg) s t ∧ Answered o (timeoutRet o.fn) 110 s t ∧ t.rxcnt = 0 := by
  have h1 := Runs.send h hb ht
  generalize hv : (s.built o).sent o.slot = v at h1
  have hvk : CommandKept s v := by subst hv; exact ⟨rfl, rfl, rfl, rfl, rfl, rfl, rfl, rfl⟩
  have hvo := h.of_kept hvk
  have h3 : Runs (cores 1) v ((v.beginCollect o.fn.rspLen).goto (.op o.slot .avail)) := by
    refine Runs.core ?_
    rw [coreStep_op hvo.exec (by subst hv; rfl) hvo.call (by simp)]
    rfl
  generalize hx : (v.beginCollect o.fn.rspLen).goto (.op o.slot .avail) = x at h3
  have hxk : CommandKept v x := by subst hx; exact ⟨rfl, rfl, rfl, rfl, rfl, rfl, rfl, rfl⟩
  have hcfg : x.cfg = s.cfg := hxk.cfg.trans hvk.cfg
  have hel : (x.now - x.t0).toNat = 0 := by subst hx; simp
  have hN : x.rxcnt ≠ x.explen := by
    subst hx; cases hf : o.fn <;> simp [FnCode.rspLen, readRspLen, writeRspLen]
  obtain ⟨t, hrun, hk, hpos, hlog, hret, hoth, hrx, hcnt, hn⟩ := Runs.silent 7 x (hvo.of_kept hxk)
    (by subst hx; rfl) (by subst hx hv; exact hq) hN (by rw [hcfg]; exact ht) (by omega) (by omega)
  rw [hcfg] at hrun
  refine ⟨t, (h1.append h3).append hrun, ⟨hvk.trans (hxk.trans hk), hpos, ?_, hret, ?_, hrx, ?_⟩, hcnt⟩
  · rw [hlog]; subst hx hv; rfl
  · intro j hj; rw [hoth j hj]; subst hx hv; cases j <;> rfl
  · rw [hn]
    have : x.now = s.now + BitVec.ofNat 32 5 := by
      subst hx hv
      show s.now + BitVec.ofNat 32 s.cfg.tSettle = _
      rw [ht.settle]
    rw [this, add_ofNat_ofNat]

/-! ## `CLEAR()` -/

/-- The drain of bytes already in `RXQ`, on a silent line. -/
theorem Runs.drain {i : Instr} : ∀ s : State, s.seq = .exec → fetchCommand s = some i →
    commandClears i = true → s.pos = .clear .avail →
    Runs (cores (2 * s.rxq.length + 1)) s ((s.setRxq []).goto .cleared) := by
  intro s hs hi hc hp
  generalize hq : s.rxq = q
  induction q generalizing s with
  | nil =>
    refine Runs.core ?_
    rw [coreStep_clear hs hi hc hp]
    have : s.setRxq [] = s := by rw [← hq]; rfl
    simp [clearStep, hq, this]
  | cons b q ih =>
    have h1 : coreStep s = .next (s.goto (.clear .discard)) := by
      rw [coreStep_clear hs hi hc hp]
      simp [clearStep, hq]
    have h2 : coreStep (s.goto (.clear .discard)) = .next ((s.setRxq q).goto (.clear .avail)) := by
      rw [coreStep_clear (s := s.goto (.clear .discard)) hs hi hc rfl]
      simp only [clearStep, State.goto_rxq, hq]
      rfl
    rw [List.length_cons, show 2 * (q.length + 1) + 1 = (2 * q.length + 1) + 1 + 1 by omega]
    have := ih ((s.setRxq q).goto (.clear .avail)) hs hi rfl rfl
    exact (Runs.core h1).append (l := [.core]) ((Runs.core h2).append (l := [.core]) this)

/-- `CLEAR()` of an empty `RXQ` without a restart, from the step that enters it. -/
theorem Runs.clearEmpty {i : Instr} {s : State} (hs : s.seq = .exec) (hi : fetchCommand s = some i)
    (hc : commandClears i = true) (hr : s.cfg.transportHasRestart = false) (hq : s.rxq = [])
    (hb : coreStep s = clearStep .test s) : Runs clearMoves s (s.goto .cleared) := by
  have h1 : coreStep s = .next (s.goto (.clear .avail)) := by rw [hb]; simp [clearStep, hr]
  have h2 : coreStep (s.goto (.clear .avail)) = .next (s.goto .cleared) := by
    rw [coreStep_clear (s := s.goto (.clear .avail)) hs hi hc rfl]
    simp only [clearStep, State.goto_rxq, hq, List.isEmpty_nil, if_true]
    rfl
  exact (Runs.core h1).append (l := [.core]) (Runs.core h2)

end Sys2Proof.Machine
end

