-- ==== Sys2Proof/Laws/PerInstr.lean ====
section
/-! SUPPORT. Statements about every instruction, one lemma per constructor. -/
namespace Sys2Proof.Laws.EncodeLength

/-- The encoding of an instruction has the length opcode_table.json gives its row (30_encoding.md R100, R110,
R114, R115). -/
def Statement (i : Instr) : Prop := (encode i).bits = i.bits

theorem clrx : Statement (.clrx) := rfl
theorem rhr (a : Byte) : Statement (.rhr a) := rfl
theorem rir (a : Byte) : Statement (.rir a) := rfl
theorem whr (a : Byte) (v : Half) : Statement (.whr a v) := rfl
theorem init : Statement (.init) := rfl
theorem getco2 : Statement (.getco2) := rfl
theorem getid : Statement (.getid) := rfl
theorem getfw : Statement (.getfw) := rfl
theorem getabc : Statement (.getabc) := rfl
theorem setabc (h : Half) : Statement (.setabc h) := rfl
theorem bgcal : Statement (.bgcal) := rfl
theorem reqRir (a : Byte) (c : Half) : Statement (.reqRir a c) := rfl
theorem reqRhr (a : Byte) (c : Half) : Statement (.reqRhr a c) := rfl
theorem reqWhr (a : Byte) (v c : Half) : Statement (.reqWhr a v c) := rfl
theorem rspRir (s f : Byte) (v c : Half) : Statement (.rspRir s f v c) := rfl
theorem rspRhr (s f : Byte) (v c : Half) : Statement (.rspRhr s f v c) := rfl
theorem rspWhr (s f a : Byte) (v c : Half) : Statement (.rspWhr s f a v c) := rfl

end Sys2Proof.Laws.EncodeLength
end

