-- ==== Sys2Proof/Tests/Slice0.lean ====
section
/-! SUPPORT. The model's own tests, their expected values from 95_test_vectors.md and the rules' examples, and for
every obligation with hypotheses a state and operands that meet them. -/
namespace Sys2Proof.Tests
open Sys2Proof.Machine

/-! ## Helpers -/

/-- The conventions of 95_test_vectors.md section 0, poll mode A. -/
def cfgA : Config :=
  { Config.source with
    tRestartSettle := 20, transportHasRestart := false, rxFifoDepth := none, rxOverflow := .dropNewest,
    pollMode := .sleepEveryPoll }

/-- The two rules on a write echo (log entry 24). -/
def cfgEcho (a : EchoArrival) : Config := { cfgA with echoArrival := a }

/-- Poll mode B. -/
def cfgB : Config := { cfgA with pollMode := .sleepWhenEmpty }

/-- A transport with a restart. -/
def cfgR : Config := { cfgA with transportHasRestart := true }

/-- The reset state with the parameters `c`. -/
def base (c : Config) : State := { State.reset with cfg := c }

/-- The command `w` accepted and at position `p`. -/
def running (c : Config) (w : Word) (p : Pos) : State := { (base c).accept w with pos := p }

/-- A field of the next state. -/
def after {α : Type} (f : State → α) : Result → Option α
  | .next s => some (f s)
  | .fault _ => none
  | .refused _ => none

/-- The reason of a refusal. -/
def reason : Result → Option Refusal
  | .next _ => none
  | .fault _ => none
  | .refused r => some r

/-- The core's move after the host's write of `w` to `CMD`, as 95_test_vectors.md V11 runs an illegal word. -/
def firstMove (w : Word) (s : State) : Result := coreStep (s.accept w)

/-! ## WellFormed refuses an ill-formed term of every checked form (frames with a wrong CRC) -/

theorem test_wf_reqRir : (Instr.reqRir 0x03#8 0xC5D5#16).wf = true ∧ (Instr.reqRir 0x03#8 0xC5D4#16).wf = false := by
  decide +kernel
theorem test_wf_reqRhr : (Instr.reqRhr 0x1F#8 0xC3A1#16).wf = true ∧ (Instr.reqRhr 0x1F#8 0xA1C3#16).wf = false := by
  decide +kernel
theorem test_wf_reqWhr : (Instr.reqWhr 0x1F#8 180#16 0x74AC#16).wf = true ∧ (Instr.reqWhr 0x1F#8 181#16 0x74AC#16).wf = false := by
  decide +kernel
theorem test_wf_rspRir : (Instr.rspRir 0xFE#8 0x04#8 500#16 0x33AD#16).wf = true ∧ (Instr.rspRir 0xFE#8 0x04#8 500#16 0x32AD#16).wf = false := by
  decide +kernel
theorem test_wf_rspRhr : (Instr.rspRhr 0xFE#8 0x03#8 180#16 0x27AC#16).wf = true ∧ (Instr.rspRhr 0xFE#8 0x04#8 180#16 0x27AC#16).wf = false := by
  decide +kernel
theorem test_wf_rspWhr : (Instr.rspWhr 0xFE#8 0x06#8 0x1F#8 180#16 0x74AC#16).wf = true ∧ (Instr.rspWhr 0x01#8 0x06#8 0x1F#8 180#16 0x74AC#16).wf = false := by
  decide +kernel

/-! ## Decoding: the words of 30_encoding.md R101, R119 and 95_test_vectors.md V11 -/

theorem test_decode_clrx : decode .command (.word 0x01000000#32) = .ok .clrx := by rfl
theorem test_decode_rhr : decode .command (.word 0x031F0000#32) = .ok (.rhr 0x1F#8) := by rfl
theorem test_decode_rir : decode .command (.word 0x04FF0000#32) = .ok (.rir 0xFF#8) := by rfl
theorem test_decode_whr : decode .command (.word 0x06FFFFFF#32) = .ok (.whr 0xFF#8 0xFFFF#16) := by rfl
theorem test_decode_init : decode .command (.word 0x10000000#32) = .ok .init := by rfl
theorem test_decode_getco2 : decode .command (.word 0x11000000#32) = .ok .getco2 := by rfl
theorem test_decode_getid : decode .command (.word 0x12000000#32) = .ok .getid := by rfl
theorem test_decode_getfw : decode .command (.word 0x13000000#32) = .ok .getfw := by rfl
theorem test_decode_getabc : decode .command (.word 0x14000000#32) = .ok .getabc := by rfl
theorem test_decode_setabc : decode .command (.word 0x1500FFFF#32) = .ok (.setabc 65535#16) := by rfl
theorem test_decode_bgcal : decode .command (.word 0x16000000#32) = .ok .bgcal := by rfl
theorem test_decode_reserved :
    decode .command (.word 0x01010000#32) = .error .reservedField ∧
    decode .command (.word 0x01000001#32) = .error .reservedField ∧
    decode .command (.word 0x03000001#32) = .error .reservedField ∧
    decode .command (.word 0x10000001#32) = .error .reservedField ∧
    decode .command (.word 0x12000100#32) = .error .reservedField ∧
    decode .command (.word 0x15010000#32) = .error .reservedField := ⟨rfl, rfl, rfl, rfl, rfl, rfl⟩
theorem test_decode_unassigned :
    decode .command (.word 0x00000000#32) = .error .unassignedOpcode ∧
    decode .command (.word 0x17000000#32) = .error .unassignedOpcode ∧
    decode .command (.word 0xFF000000#32) = .error .unassignedOpcode := ⟨rfl, rfl, rfl⟩

/-! ## Decoding: the bit strings of 30_encoding.md R111 to R115 with the frames of their examples -/

theorem test_decode_reqRir :
    decode .request (.frame [0b11111110, 0b00000100, 0b00000000, 0b00000011, 0b00000000, 0b00000001, 0xD5, 0xC5]) =
      .ok (.reqRir 0x03#8 0xC5D5#16) := by rfl
theorem test_decode_reqRhr :
    decode .request (.frame [0b11111110, 0b00000011, 0b00000000, 0b00011111, 0b00000000, 0b00000001, 0xA1, 0xC3]) =
      .ok (.reqRhr 0x1F#8 0xC3A1#16) := by rfl
theorem test_decode_reqWhr :
    decode .request (.frame [0b11111110, 0b00000110, 0b00000000, 0b00000001, 0x7C, 0x06, 0x6C, 0xC7]) =
      .ok (.reqWhr 0x01#8 0x7C06#16 0xC76C#16) := by rfl
theorem test_decode_rspRir :
    decode (.response .readInput) (.frame [0xFE, 0x04, 0b00000010, 0x01, 0xF4, 0xAD, 0x33]) =
      .ok (.rspRir 0xFE#8 0x04#8 500#16 0x33AD#16) := by rfl
theorem test_decode_rspRhr :
    decode (.response .readHolding) (.frame [0xFE, 0x03, 0b00000010, 0x00, 0xB4, 0xAC, 0x27]) =
      .ok (.rspRhr 0xFE#8 0x03#8 180#16 0x27AC#16) := by rfl
theorem test_decode_rspWhr :
    decode (.response .writeSingle) (.frame [0xFE, 0x06, 0b00000000, 0x1F, 0x00, 0xB4, 0xAC, 0x74]) =
      .ok (.rspWhr 0xFE#8 0x06#8 0x1F#8 180#16 0x74AC#16) := by rfl

/-- Frames that are no request (R118) and no read response (R114). -/
theorem test_decode_frames_refused :
    decode .request (.frame [0x01, 0x04, 0x00, 0x03, 0x00, 0x01, 0, 0]) = .error .wrongSlaveAddress ∧
    decode .request (.frame [0xFE, 0x05, 0x00, 0x03, 0x00, 0x01, 0, 0]) = .error .wrongFunction ∧
    decode .request (.frame [0xFE, 0x04, 0x01, 0x03, 0x00, 0x01, 0, 0]) = .error .wrongRegisterHigh ∧
    decode .request (.frame [0xFE, 0x04, 0x00, 0x03, 0x00, 0x02, 0, 0]) = .error .wrongCount ∧
    decode .request (.frame [0xFE]) = .error .wrongLength ∧
    decode (.response .readInput) (.frame [0xFE, 0x04, 0x03, 0x01, 0xF4, 0xFC, 0xF3]) = .error .wrongByteCount ∧
    decode .command (.frame []) = .error .wrongPlace := ⟨rfl, rfl, rfl, rfl, rfl, rfl, rfl⟩

/-- Table words, numbered as opcode_table.json numbers them: byte 0 of a frame in bits 7..0. -/
theorem test_decodeTableWord :
    decodeTableWord 32 0x01000000 = some .clrx ∧
    decodeTableWord 64 0xC5D50100030004FE = some (.reqRir 0x03#8 0xC5D5#16) ∧
    decodeTableWord 64 0xC3A101001F0003FE = some (.reqRhr 0x1F#8 0xC3A1#16) ∧
    decodeTableWord 64 0xC76C067C010006FE = some (.reqWhr 0x01#8 0x7C06#16 0xC76C#16) ∧
    decodeTableWord 56 0x33ADF4010204FE = some (.rspRir 0xFE#8 0x04#8 500#16 0x33AD#16) ∧
    decodeTableWord 56 0x27ACB4000203FE = some (.rspRhr 0xFE#8 0x03#8 180#16 0x27AC#16) ∧
    decodeTableWord 64 0x7BB8B4001F000601 = some (.rspWhr 0x01#8 0x06#8 0x1F#8 180#16 0x7BB8#16) ∧
    decodeTableWord 16 0 = none := by decide +kernel

/-! ## The CRC and the frame codec (95_test_vectors.md V1, V3, V4, V5, V6) -/

theorem test_crc_first_byte : crcByte 0xFFFF#16 0xFE#8 = 0xC03E#16 ∧ crcByte 0xC03E#16 0x04#8 = 0x1340#16 := by decide
theorem test_crc_residue : crc16 [0xFE, 0x04, 0x02, 0x01, 0xF4, 0xAD, 0x33] 7 = 0x0000#16 := by
  decide +kernel
theorem test_built_frames :
    (builtFrame 0xFE#8 .readInput 0xFF#8 0x0001#16).toList = [0xFE, 0x04, 0x00, 0xFF, 0x00, 0x01, 0x15, 0xF5] ∧
    (builtFrame 0xFE#8 .readHolding 0x00#8 0x0001#16).toList = [0xFE, 0x03, 0x00, 0x00, 0x00, 0x01, 0x90, 0x05] ∧
    (builtFrame 0xFE#8 .writeSingle 0xFF#8 0xFFFF#16).toList = [0xFE, 0x06, 0x00, 0xFF, 0xFF, 0xFF, 0xAC, 0x45] := by
  decide +kernel
theorem test_checkRead :
    checkRead ⟨0xFE, 0x04, 0x02, 0x01, 0xF4, 0xAD, 0x33⟩ = ⟨true, .none, 0x01F4#16⟩ ∧
    checkRead ⟨0xFE, 0x04, 0x02, 0x01, 0xF4, 0x33, 0xAD⟩ = ⟨false, .crcMismatch, 0xFFFF#16⟩ ∧
    checkRead ⟨0xFE, 0x04, 0x03, 0x01, 0xF4, 0xFC, 0xF3⟩ = ⟨false, .malformed, 0xFFFF#16⟩ ∧
    checkRead ⟨0xFE, 0x04, 0x03, 0x01, 0xF4, 0xAD, 0x33⟩ = ⟨false, .malformed, 0xFFFF#16⟩ ∧
    checkRead ⟨0x01, 0x04, 0x02, 0x01, 0xF4, 0xB9, 0x27⟩ = ⟨true, .none, 0x01F4#16⟩ ∧
    checkRead ⟨0xFE, 0x84, 0x02, 0xF2, 0xF1, 0x00, 0x00⟩ = ⟨true, .none, 0xF2F1#16⟩ := by decide +kernel

/-- The request of V6. -/
def reqV6 : Frame8 := ⟨0xFE, 0x06, 0x00, 0x1F, 0x00, 0xB4, 0xAC, 0x74⟩

theorem test_checkWrite :
    checkWrite true reqV6 reqV6 = ⟨true, .none, 0⟩ ∧
    (checkWrite true ⟨0xFE, 0x06, 0x00, 0x1F, 0x00, 0xB5, 0xAC, 0x74⟩ reqV6).err = .valueMismatch ∧
    (checkWrite true ⟨0xFE, 0x06, 0x00, 0x1F, 0x00, 0xB4, 0xAC, 0x75⟩ reqV6).err = .crcMismatch ∧
    (checkWrite true ⟨0xFE, 0x06, 0x00, 0x1E, 0x00, 0xB4, 0xFD, 0xB4⟩ reqV6).err = .valueMismatch ∧
    (checkWrite false ⟨0xFE, 0x06, 0x00, 0x1E, 0x00, 0xB4, 0xFD, 0xB4⟩ reqV6).ok = true ∧
    (checkWrite true ⟨0xFE, 0x06, 0x01, 0x1F, 0x00, 0xB4, 0xAD, 0x88⟩ reqV6).err = .valueMismatch ∧
    (checkWrite false ⟨0xFE, 0x06, 0x01, 0x1F, 0x00, 0xB4, 0xAD, 0x88⟩ reqV6).ok = true ∧
    (checkWrite true ⟨0x01, 0x06, 0x00, 0x1F, 0x00, 0xB4, 0xB8, 0x7B⟩ reqV6).ok = true ∧
    (checkWrite true ⟨0x01, 0x06, 0x00, 0x1F, 0x00, 0xB4, 0xAC, 0x74⟩ reqV6).err = .crcMismatch := by decide +kernel

/-! ## One step of each instruction (95_test_vectors.md V9, V10, V11, V12, E3 to E8) -/

/-- After a command's first operation returned `r`. -/
def returned (w : Word) (k : Slot) (r : Ret) : State := (running cfgA w (.after k)).bindRet k r

theorem test_clrx_discards_head :
    after (·.rxq) (exec .clrx { running cfgA 0x01000000#32 (.clear .discard) with rxq := [0x00, 0x33] }) =
      some [0x33] := by decide
theorem test_clrx_completes :
    after (fun t => (t.status.word, t.result)) (exec .clrx (running cfgA 0x01000000#32 .cleared)) =
      some (0x00000106#32, 0x00000000#32) := by decide
theorem test_rir_builds :
    after (·.txbuf) (exec (.rir 0x1C#8) (running cfgA 0x041C0000#32 .start)) =
      some ⟨0xFE, 0x04, 0x00, 0x1C, 0x00, 0x01, 0xE4, 0x03⟩ := by decide +kernel
theorem test_rir_crc_mismatch_completes :
    after (fun t => (t.status.word, t.result))
      (exec (.rir 0x03#8) (returned 0x04030000#32 .r1 ⟨false, .crcMismatch, 0xFFFF#16⟩)) =
      some (0x00000432#32, 0x0000FFFF#32) := by decide
theorem test_rhr_timeout_at_101 :
    after (fun t => (t.rxcnt, t.ret1)) (exec (.rhr 0x1F#8)
      { running cfgA 0x031F0000#32 (.op .r1 .deadline) with t0 := 0xFFFFFFC0#32, now := 0x00000025#32, rxcnt := 3 }) =
      some (0, ⟨false, .timeout, 0xFFFF#16⟩) := by decide
theorem test_rhr_no_timeout_at_100 :
    after (fun t => (t.rxcnt, t.pos)) (exec (.rhr 0x1F#8)
      { running cfgA 0x031F0000#32 (.op .r1 .deadline) with t0 := 0xFFFFFFC0#32, now := 0x00000024#32, rxcnt := 3 }) =
      some (3, .op .r1 .pollBegin) := by decide
/-- The 8th byte of a write echo taken, `m` bytes having been in `RXQ` at the first poll. -/
def echoDone (a : EchoArrival) (m : Nat) : State :=
  { running (cfgEcho a) 0x061F00B4#32 (.op .r1 .full) with explen := 8, rxcnt := 8, firstAvail := some m }

/-- 70_reset_and_hazards.md R293: "succeeds only if all 8 bytes are in `RXQ` by the first poll". -/
theorem test_whr_echo_firstPoll :
    after (fun t => (t.pos, t.ret1)) (exec (.whr 0x1F#8 180#16) (echoDone .firstPoll 7)) =
      some (.after .r1, ⟨false, .timeout, 0⟩) ∧
    after State.pos (exec (.whr 0x1F#8 180#16) (echoDone .firstPoll 8)) = some (.op .r1 .check) := by decide
/-- 42_byte_collector.md R172: `if RXCNT = N: return (1, NONE)`. -/
theorem test_whr_echo_eachPoll :
    after State.pos (exec (.whr 0x1F#8 180#16) (echoDone .eachPoll 1)) = some (.op .r1 .check) := by decide
/-- 10_state.md R34: the sensor wait's sample is in `T0`; the poll wait leaves the collection's there. -/
theorem test_setabc_wait_samples_T0 :
    after (fun t => (t.t0, t.pos))
      (exec (.setabc 180#16) { running cfgA 0x150000B4#32 (.after .r1) with t0 := 7, now := 9 }) =
      some (9#32, .waitEnd) ∧
    after (fun t => (t.t0, t.tw, t.pos))
      (exec (.setabc 180#16) { running cfgA 0x150000B4#32 (.op .r1 .pollBegin) with t0 := 7, now := 9 }) =
      some (7#32, 9#32, .op .r1 .pollEnd) := by decide
theorem test_whr_wrong_value :
    after (·.ret1.err) (exec (.whr 0x1F#8 180#16)
      { running cfgA 0x061F00B4#32 (.op .r1 .check) with
        txbuf := reqV6, rxbuf := ⟨0xFE, 0x06, 0x00, 0x1F, 0x00, 0xB5, 0x6D, 0xB4⟩ }) = some .valueMismatch := by decide
theorem test_whr_completes :
    after (fun t => (t.status.word, t.result)) (exec (.whr 0x1F#8 180#16) (returned 0x061F00B4#32 .r1 ⟨true, .none, 0⟩)) =
      some (0x00000606#32, 1#32) := by decide
theorem test_init_device_id_low_failed :
    after (·.deviceId) (exec .init ((returned 0x10000000#32 .r2 ⟨false, .crcMismatch, 0xFFFF#16⟩).bindRet .r1
      ⟨true, .none, 0x0001#16⟩)) = some 0x0001FFFF#32 := by decide
theorem test_init_first_error :
    after (·.status.word) (exec .init ({ running cfgA 0x10000000#32 .finish with
      ret1 := ⟨true, .none, 1#16⟩, ret2 := ⟨false, .crcMismatch, 0xFFFF#16⟩,
      ret3 := ⟨false, .timeout, 0xFFFF#16⟩, ret4 := ⟨true, .none, 180#16⟩ })) = some 0x00001032#32 := by decide
theorem test_getco2_reads_register_3 :
    after (·.txbuf) (exec .getco2 (running cfgA 0x11000000#32 .cleared)) =
      some ⟨0xFE, 0x04, 0x00, 0x03, 0x00, 0x01, 0xD5, 0xC5⟩ := by decide +kernel
theorem test_getco2_65535_ppm :
    after (fun t => (t.status.word, t.result)) (exec .getco2 (returned 0x11000000#32 .r1 ⟨true, .none, 0xFFFF#16⟩)) =
      some (0x00001106#32, 0x0000FFFF#32) := by decide
theorem test_getid_before_init :
    after (fun t => (t.status.word, t.result)) (firstMove 0x12000000#32 (base cfgA)) =
      some (0x00001206#32, 0xFFFFFFFF#32) := by decide
theorem test_getfw_zero_extends :
    after (fun t => (t.status.word, t.result)) (firstMove 0x13000000#32 { base cfgA with fwVersion := 0x0102#16 }) =
      some (0x00001306#32, 0x00000102#32) := by decide
theorem test_getabc_before_init :
    after (fun t => (t.status.word, t.result)) (firstMove 0x14000000#32 (base cfgA)) =
      some (0x00001406#32, 0x0000FFFF#32) := by decide
theorem test_setabc_writes_abc_register :
    after (·.txbuf) (exec (.setabc 0#16) (running cfgA 0x15000000#32 .cleared)) =
      some ⟨0xFE, 0x06, 0x00, 0x1F, 0x00, 0x00, 0xAC, 0x03⟩ := by decide +kernel
theorem test_setabc_reread_differs :
    after (fun t => (t.status.word, t.result)) (exec (.setabc 180#16) ({ running cfgA 0x150000B4#32 .finish with
      ret1 := ⟨true, .none, 0⟩, ret2 := ⟨true, .none, 168#16⟩ })) = some (0x00001542#32, 0x000000A8#32) := by decide
theorem test_bgcal_valid_ffff_fails :
    after (fun t => (t.status.word, t.result)) (exec .bgcal (returned 0x16000000#32 .r3 ⟨true, .none, 0xFFFF#16⟩)) =
      some (0x00001652#32, 0x00000000#32) := by decide
theorem test_bgcal_other_bits_ignored :
    after (fun t => (t.status.word, t.result)) (exec .bgcal (returned 0x16000000#32 .r3 ⟨true, .none, 0x0021#16⟩)) =
      some (0x00001606#32, 0x00000001#32) := by decide
theorem test_illegal_completes :
    after (fun t => (t.status.word, t.result, t.seq)) (firstMove 0x17000000#32 { base cfgA with result := 7#32 }) =
      some (0x00001762#32, 7#32, .idle) := by decide

/-- The frame rows run where `withFetchWord` puts them: requests reach `TXLOG`, responses their tuple. -/
theorem test_reqRir_step :
    after (·.txlog) (step ((base cfgA).withFetchWord 64 0xC5D50100030004FE)) =
      some [⟨0xFE, 0x04, 0x00, 0x03, 0x00, 0x01, 0xD5, 0xC5⟩] := by decide +kernel
theorem test_reqRhr_step :
    after (·.txlog) (step ((base cfgA).withFetchWord 64 0xC3A101001F0003FE)) =
      some [⟨0xFE, 0x03, 0x00, 0x1F, 0x00, 0x01, 0xA1, 0xC3⟩] := by decide +kernel
theorem test_reqWhr_step :
    after (·.txlog) (step ((base cfgA).withFetchWord 64 0xC76C067C010006FE)) =
      some [⟨0xFE, 0x06, 0x00, 0x01, 0x7C, 0x06, 0x6C, 0xC7⟩] := by decide +kernel
theorem test_rspRir_step :
    after (·.ret1) (step ((base cfgA).withFetchWord 56 0x33ADF4010204FE)) = some ⟨true, .none, 500#16⟩ := by decide +kernel
theorem test_rspRhr_step :
    after (·.ret1) (step ((base cfgA).withFetchWord 56 0x27ACB4000203FE)) = some ⟨true, .none, 180#16⟩ := by decide +kernel
theorem test_rspWhr_step :
    after (·.ret1) (step ((base cfgA).withFetchWord 64 0x7BB8B4001F000601)) = some ⟨true, .none, 0⟩ := by decide +kernel

/-- Another `SLAVE_ADDR` stands in the frame that is built, and the frame is sent, though no request row has it
(93_implementation_defined.md I2). -/
theorem test_slaveAddr_parameter :
    after (fun t => (t.txbuf.b0, crc16 t.txbuf.toList 8)) (exec (.rir 0x03#8)
      (running { cfgA with slaveAddr := 0x68#8 } 0x04030000#32 .start)) = some (0x68#8, 0x0000#16) ∧
    after (·.txlog) (step { running cfgA 0x04030000#32 (.op .r1 .tx) with
      txbuf := ⟨0x68, 0x04, 0x00, 0x03, 0x00, 0x01, 0x00, 0x00⟩ }) =
      some [⟨0x68, 0x04, 0x00, 0x03, 0x00, 0x01, 0x00, 0x00⟩] := by decide +kernel

/-- The host interface (V12). -/
theorem test_host_reads :
    after (·.hostData) (hostStep (.read 0x04#8 4) (running cfgA 0x16000000#32 .start)) = some 0x00001601#32 ∧
    after (·.hostData) (hostStep (.read 0x0C#8 4) (base cfgA)) = some 0xFFFFFFFF#32 ∧
    after (·.hostData) (hostStep (.read 0xFC#8 4) (base cfgA)) = some 0x00000000#32 := by decide
theorem test_host_refusals :
    reason (hostStep (.write 0x00#8 4 0x01000000#32) (running cfgA 0x16000000#32 .start)) = some .commandWhileBusy ∧
    reason (hostStep (.read 0x04#8 2) (base cfgA)) = some .hostAccessWidth ∧
    reason (hostStep (.read 0x02#8 4) (base cfgA)) = some .hostAccessMisaligned := by decide

/-! ## Witnesses: states and operands that meet the hypotheses of each obligation, clause by clause -/

/-- A core at position `p` of `RIR 0x03` with `now - tw = e` and `now - t0 = e`, across the clock's wrap. -/
def rirAt (c : Config) (p : OpPos) (e : Nat) : State :=
  { running c 0x04030000#32 (.op .r1 p) with
    t0 := 0xFFFFFFC0#32, tw := 0xFFFFFFC0#32, now := 0xFFFFFFC0#32 + BitVec.ofNat 32 e,
    txbuf := builtFrame 0xFE#8 .readInput 0x03#8 0x0001#16, explen := 7 }

/-- The operation of `RIR 0x03`. -/
abbrev rir3 : OpCall := ⟨.readInput, 0x03#8, 0x0001#16, .r1⟩

theorem witness_TableRowsSelectCommands :
    0x04FF0000#32 &&& 0xFF00FFFF#32 = 0x04000000#32 ∧ decodeCommand 0x04FF0000#32 = .ok (.rir 0xFF#8) ∧
    0x1500FFFF#32 &&& 0xFFFF0000#32 = 0x15000000#32 ∧ decodeCommand 0x00000000#32 = .error .unassignedOpcode :=
  ⟨by decide, rfl, by decide, rfl⟩
theorem witness_SingleBitErrorsDetected :
    6 < 7 ∧ 7 < 8 ∧ 0 < ([0xFE] : List Byte).length ∧ ([0xFE] : List Byte).getD 0 0 ≠ 0x7E#8 := by decide
theorem witness_ReadCheckOutcome_malformed : (⟨0, 0xFE, 0x04, 0x02, 0x01, 0xF4, 0xAD⟩ : Frame7).b2 ≠ 0x02#8 := by decide
theorem witness_ReadCheckOutcome_crc :
    let r : Frame7 := ⟨0xFE, 0x04, 0x02, 0x01, 0xF4, 0xAD, 0x32⟩
    r.b2 = 0x02#8 ∧ (crc16 r.toList 5).toNat ≠ r.b5.toNat + r.b6.toNat * 256 := by decide +kernel
theorem witness_ReadCheckOutcome_valid :
    let r : Frame7 := ⟨0xFE, 0x04, 0x02, 0xFF, 0xFF, 0xAC, 0x94⟩
    r.b2 = 0x02#8 ∧ (crc16 r.toList 5).toNat = r.b5.toNat + r.b6.toNat * 256 := by decide +kernel
theorem witness_WriteCheckOutcome_register :
    let r : Frame8 := ⟨0xFE, 0x06, 0x00, 0x1E, 0x00, 0xB4, 0xFD, 0xB4⟩
    (r.b2 ≠ reqV6.b2 ∨ r.b3 ≠ reqV6.b3) ∧ ¬(r.b4 ≠ reqV6.b4 ∨ r.b5 ≠ reqV6.b5) := by decide
theorem witness_WriteCheckOutcome_crc :
    let r : Frame8 := ⟨0xFE, 0x06, 0x00, 0x1F, 0x00, 0xB4, 0xAC, 0x75⟩
    ¬(r.b2 ≠ reqV6.b2 ∨ r.b3 ≠ reqV6.b3) ∧ ¬(r.b4 ≠ reqV6.b4 ∨ r.b5 ≠ reqV6.b5) ∧
      (crc16 r.toList 6).toNat ≠ r.b6.toNat + r.b7.toNat * 256 := by decide +kernel
theorem witness_WriteCheckOutcome_valid :
    ¬(reqV6.b2 ≠ reqV6.b2 ∨ reqV6.b3 ≠ reqV6.b3) ∧
      (crc16 reqV6.toList 6).toNat = reqV6.b6.toNat + reqV6.b7.toNat * 256 := by decide +kernel
theorem witness_HostRegisterMap_edges : 0x18 ≤ (0x18#8).toNat ∧ 0x18 ≤ (0xFF#8).toNat ∧ ¬0x18 ≤ (0x14#8).toNat := by decide

/-- Hypotheses on the inputs and the state together: one move of each kind. -/
theorem witness_ResetInputEffect :
    ({ rirAt cfgA .tx 0 with inputs := [.reset] } : State).moves = .reset :: [] := rfl
theorem witness_HostAccessEffects_read : (0xFC#8).toNat % 4 = 0 ∧
    ({ base cfgA with inputs := [.host (.read 0xFC#8 4), .host (.read 0xFC#8 4)] } : State).moves =
      .host (.read 0xFC#8 4) :: .host (.read 0xFC#8 4) :: [] := by decide
theorem witness_HostAccessEffects_ignored : (0x08#8).toNat % 4 = 0 ∧ 0x08#8 ≠ 0x00#8 ∧
    ({ base cfgA with inputs := [.host (.write 0x08#8 4 7#32)] } : State).moves = .host (.write 0x08#8 4 7#32) :: [] := by
  decide
theorem witness_CommandAccepted :
    let s : State := { base cfgA with inputs := [.host (.write 0x00#8 4 0x11000000#32)] }
    s.moves = .host (.write 0x00#8 4 0x11000000#32) :: [] ∧ s.status.busy = false := by decide
theorem witness_RefusedExactlyOnHostViolations :
    reason (step { running cfgA 0x16000000#32 .start with inputs := [.host (.write 0x00#8 4 0#32)] }) =
      some .commandWhileBusy ∧
    reason (step { base cfgA with inputs := [.host (.write 0x00#8 4 0#32)] }) = none := by decide
theorem witness_StepRunsDecodedInstruction_command :
    let s : State := { running cfgA 0x12000000#32 .start with inputs := [.core] }
    s.moves = .core :: [] ∧ s.seq = .exec ∧ decode .command (.word s.cmdl) = .ok .getid := ⟨rfl, rfl, rfl⟩
theorem witness_StepRunsDecodedInstruction_request :
    let s : State := { rirAt cfgA .tx 0 with
      txbuf := ⟨0xFE, 0x04, 0x00, 0x03, 0x00, 0x01, 0xD5, 0xC5⟩, inputs := [.core] }
    s.moves = .core :: [] ∧ s.seq = .exec ∧ s.pos = .op .r1 .tx ∧
      decode .request (.frame s.txbuf.toList) = .ok (.reqRir 0x03#8 0xC5D5#16) := ⟨rfl, rfl, rfl, by rfl⟩
theorem witness_StepRunsDecodedInstruction_response :
    let s : State := { rirAt cfgA .check 0 with rxbuf := ⟨0xFE, 0x04, 0x02, 0x01, 0xF4, 0xAD, 0x33, 0⟩, inputs := [.core] }
    s.moves = .core :: [] ∧ s.seq = .exec ∧ s.pos = .op .r1 .check ∧ s.txbuf.b1 = FnCode.readInput.code ∧
      decode (.response .readInput) (.frame (s.rxbuf.toList.take FnCode.readInput.rspLen)) =
        .ok (.rspRir 0xFE#8 0x04#8 500#16 0x33AD#16) := ⟨rfl, rfl, rfl, rfl, by rfl⟩

/-- A byte count of 0x03 is no response row (the MALFORMED reply of 41_frame_codec.md R152), and with another
`SLAVE_ADDR` the built request is no request row: the latched command's arm runs. -/
theorem witness_StepRunsDecodedInstruction_noRow :
    let s : State := { rirAt cfgA .check 0 with rxbuf := ⟨0xFE, 0x04, 0x03, 0x01, 0xF4, 0, 0, 0⟩, inputs := [.core] }
    let u : State := { rirAt { cfgA with slaveAddr := 0x68#8 } .tx 0 with
      txbuf := builtFrame 0x68#8 .readInput 0x03#8 0x0001#16, inputs := [.core] }
    (s.moves = .core :: [] ∧ s.seq = .exec ∧ s.pos = .op .r1 .check ∧
      (∀ fn j, s.txbuf.b1 = fn.code →
        decode (.response fn) (.frame (s.rxbuf.toList.take fn.rspLen)) ≠ .ok j) ∧
      decode .command (.word s.cmdl) = .ok (.rir 0x03#8)) ∧
    (u.moves = .core :: [] ∧ u.seq = .exec ∧ u.pos = .op .r1 .tx ∧
      (∀ j, decode .request (.frame u.txbuf.toList) ≠ .ok j) ∧ decode .command (.word u.cmdl) = .ok (.rir 0x03#8)) := by
  refine ⟨⟨rfl, rfl, rfl, fun fn j hf => ?_, rfl⟩, rfl, rfl, rfl, fun j h => ?_, rfl⟩
  · cases fn <;> first | exact absurd hf (by decide) | (intro h; cases h)
  · cases h

/-- A state of the invariant at the check position of `RIR 0x03`, its response collected. -/
def checking : State :=
  { rirAt cfgA .check 0 with rxbuf := ⟨0xFE, 0x04, 0x02, 0x01, 0xF4, 0xAD, 0x33, 0⟩, rxcnt := 7 }

theorem checking_call {k : Slot} {p : OpPos} {c : OpCall} (h : checking.pos = .op k p)
    (hc : callOf checking.cfg (fetchCommand checking) k = some c) : p = .check ∧ c = rir3 := by
  cases h
  have e : (some rir3 : Option OpCall) = some c := hc
  exact ⟨rfl, (Option.some.inj e).symm⟩

theorem checking_inv : StateInv checking where
  flags := ⟨by decide, by decide, fun _ => ⟨rfl, rfl⟩, by decide, by decide⟩
  exec := fun _ =>
    { pos_rule := by decide
      rx_nonempty := fun h => absurd h (by decide)
      count := fun _ _ _ h hc => by obtain ⟨rfl, rfl⟩ := checking_call h hc; exact ⟨rfl, rfl, rfl⟩
      request := fun _ _ _ h _ hc => by obtain ⟨rfl, rfl⟩ := checking_call h hc; rfl }
  rxcnt_le := by decide
  ret_ok := by intro k h; cases k <;> exact absurd h (by decide)
  fifo_fits := fun _ h => nomatch h
  sent := fun _ h => nomatch h

theorem witness_FrameArmAgreesWithCommandArm :
    StateInv checking ∧ checking.seq = .exec ∧ fetchCommand checking = some (.rir 0x03#8) ∧
      fetch checking = some (.rspRir 0xFE#8 0x04#8 500#16 0x33AD#16) := ⟨checking_inv, rfl, rfl, by rfl⟩
theorem witness_StepKeepsInv : StateInv checking ∧ ∃ t, step checking = .next t := ⟨checking_inv, _, rfl⟩
theorem witness_NoCoreFault : StateInv checking := checking_inv
theorem witness_OnlyRequestsAreEverSent :
    StateInv checking ∧ ∃ t, Host.Core.run Sys2Proof.core 2 checking = .next t := ⟨checking_inv, _, rfl⟩

theorem witness_IdleCoreDoesNothing : (base cfgA).seq = .idle ∧ (base cfgA).moves = [] ∧
    ({ base cfgA with inputs := [.core] } : State).moves = .core :: [] := by decide
theorem witness_LineAndClockMoves :
    let s : State := { base { cfgA with rxFifoDepth := some 2 } with rxq := [0x00], inputs := [.rx 0x33#8] }
    s.moves = .rx 0x33#8 :: [] ∧ FifoRoom s.cfg (s.rxq.length + 1) :=
  ⟨rfl, fun d h => by cases h; decide⟩

/-- The waits and the deadline at their boundary values: 4 and 5, 14 and 15, 100 and 101 ms. -/
theorem witness_SendSteps :
    commandCall cfgA (.rir 0x03#8) .r1 = some rir3 ∧ (rirAt cfgA .build 0).pos = .op .r1 .build ∧
    (rirAt cfgA .settleBegin 0).pos = .op .r1 .settleBegin ∧
    (let s := rirAt cfgA .settleEnd 5; s.pos = .op .r1 .settleEnd ∧ s.cfg.tSettle ≤ (s.now - s.t0).toNat) ∧
    (let s := rirAt cfgA .settleEnd 4; s.pos = .op .r1 .settleEnd ∧ (s.now - s.t0).toNat < s.cfg.tSettle) ∧
    (rirAt cfgA .tx 0).pos = .op .r1 .tx := by decide
theorem witness_CollectSteps_take :
    (rirAt cfgA .collect 0).pos = .op .r1 .collect ∧ (rirAt cfgA .avail 0).rxq = [] ∧
    (let s : State := { rirAt cfgA .avail 0 with rxq := [0xFE] }; s.pos = .op .r1 .avail ∧ s.rxq ≠ []) ∧
    (let s : State := { rirAt cfgA .take 0 with rxq := [0xFE], rxcnt := 6 }
     s.pos = .op .r1 .take ∧ s.rxq = 0xFE#8 :: []) := by decide
theorem witness_CollectSteps_full :
    (let s : State := { rirAt cfgA .full 0 with rxcnt := 7 }; s.pos = .op .r1 .full ∧ s.rxcnt = s.explen) ∧
    (let s : State := { rirAt cfgB .full 0 with rxcnt := 6, took := true }
     s.pos = .op .r1 .full ∧ s.rxcnt ≠ s.explen ∧ s.cfg.pollMode = .sleepWhenEmpty ∧ s.took = true) ∧
    (let s : State := { rirAt cfgA .full 0 with rxcnt := 6, took := true }
     s.pos = .op .r1 .full ∧ s.rxcnt ≠ s.explen ∧ (s.cfg.pollMode = .sleepEveryPoll ∨ s.took = false)) := by decide
theorem witness_CollectSteps_echo :
    ((echoDone .firstPoll 7).pos = .op .r1 .full ∧ (echoDone .firstPoll 7).rxcnt = (echoDone .firstPoll 7).explen ∧
      EchoTooLate (echoDone .firstPoll 7)) ∧
    (echoDone .firstPoll 8).rxcnt = (echoDone .firstPoll 8).explen ∧ ¬EchoTooLate (echoDone .firstPoll 8) ∧
    ¬EchoTooLate { rirAt cfgA .full 0 with rxcnt := 7 } := by
  refine ⟨⟨rfl, rfl, rfl, rfl, rfl, 7, rfl, by decide⟩, rfl, ?_, ?_⟩
  · rintro ⟨-, -, -, m, hm, hlt⟩
    cases hm
    exact absurd hlt (by decide)
  · rintro ⟨h, -⟩
    exact absurd h (by decide)
theorem witness_CollectSteps_deadline :
    (let s := rirAt cfgA .deadline 100; s.pos = .op .r1 .deadline ∧ (s.now - s.t0).toNat ≤ s.cfg.tDeadline) ∧
    (let s := rirAt cfgA .deadline 101; s.pos = .op .r1 .deadline ∧ s.cfg.tDeadline < (s.now - s.t0).toNat) := by decide
theorem witness_CollectSteps_poll :
    (rirAt cfgA .pollBegin 0).pos = .op .r1 .pollBegin ∧
    (let s := rirAt cfgA .pollEnd 15; s.pos = .op .r1 .pollEnd ∧ s.cfg.tPoll ≤ (s.now - s.tw).toNat) ∧
    (let s := rirAt cfgA .pollEnd 14; s.pos = .op .r1 .pollEnd ∧ (s.now - s.tw).toNat < s.cfg.tPoll) := by decide
theorem witness_CheckSteps :
    commandCall checking.cfg (.rir 0x03#8) .r1 = some rir3 ∧ checking.pos = .op .r1 .check := by decide

/-- `CLRX` at a position of `CLEAR`, `e` ms after the settle wait's start. -/
def clearAt (c : Config) (p : ClearPos) (q : List Byte) (e : Nat) : State :=
  { running c 0x01000000#32 (.clear p) with rxq := q, now := BitVec.ofNat 32 e }

theorem witness_ClearSteps_restart :
    commandClears .clrx = true ∧ (clearAt cfgR .test [] 0).cfg.transportHasRestart = true ∧
    (clearAt cfgA .test [] 0).cfg.transportHasRestart = false ∧ (clearAt cfgA .test [] 0).pos = .clear .test ∧
    (clearAt cfgR .restart [0x33] 0).pos = .clear .restart ∧ (clearAt cfgR .settleBegin [] 0).pos = .clear .settleBegin ∧
    (let s := clearAt cfgR .settleEnd [] 20
     s.pos = .clear .settleEnd ∧ s.cfg.tRestartSettle ≤ (s.now - s.t0).toNat) ∧
    (let s := clearAt cfgR .settleEnd [] 19
     s.pos = .clear .settleEnd ∧ (s.now - s.t0).toNat < s.cfg.tRestartSettle) := by decide
theorem witness_ClearSteps_drain :
    (let s := clearAt cfgA .avail [] 0; s.pos = .clear .avail ∧ s.rxq = []) ∧
    (let s := clearAt cfgA .avail [0x33] 0; s.pos = .clear .avail ∧ s.rxq ≠ []) ∧
    (let s := clearAt cfgA .discard [0x00, 0x33] 0; s.pos = .clear .discard ∧ s.rxq = 0x00#8 :: [0x33]) := by decide
theorem witness_RegisterCommandSteps :
    (running cfgA 0x01000000#32 .cleared).pos = .cleared ∧ (running cfgA 0x04030000#32 (.after .r1)).pos = .after .r1 ∧
    (let s := running cfgA 0x11000000#32 .start; s.pos = .start ∧ s.cfg.transportHasRestart = false) ∧
    (let s := running cfgR 0x11000000#32 .start; s.pos = .start ∧ s.cfg.transportHasRestart = true) := by decide
theorem witness_CachedGetters : (running cfgA 0x12000000#32 .start).pos = .start := rfl
theorem witness_InitSteps :
    (let s := running cfgA 0x10000000#32 .start; s.pos = .start ∧ s.cfg.clearBeforeInit = true) ∧
    (let s := running { cfgA with clearBeforeInit := false } 0x10000000#32 .start
     s.pos = .start ∧ s.cfg.clearBeforeInit = false) ∧
    (∀ p ∈ [Pos.cleared, .after .r1, .after .r2, .after .r3, .after .r4, .finish],
      (running cfgA 0x10000000#32 p).pos = p) ∧
    (let s := (returned 0x10000000#32 .r3 ⟨false, .timeout, 0xFFFF#16⟩)
     s.ret1.err = .none ∧ s.ret2.err = .none ∧ s.ret3.err ≠ .none) ∧
    (let s := (returned 0x10000000#32 .r2 ⟨false, .malformed, 0xFFFF#16⟩); s.ret1.err = .none ∧ s.ret2.err ≠ .none) ∧
    (returned 0x10000000#32 .r1 ⟨false, .timeout, 0xFFFF#16⟩).ret1.err ≠ .none ∧
    (let s := (returned 0x10000000#32 .r4 ⟨true, .none, 180#16⟩)
     s.ret1.err = .none ∧ s.ret2.err = .none ∧ s.ret3.err = .none) := by decide

/-- `SETABC 180` or `BGCAL` with the tuples `a` and `b` of its first two operations, at position `p`. -/
def writing (w : Word) (p : Pos) (a b : Ret) (e : Nat) : State :=
  { running cfgA w p with ret1 := a, ret2 := b, now := BitVec.ofNat 32 e }

theorem witness_SetabcSteps_waits :
    (let s := running cfgA 0x150000B4#32 .start; s.pos = .start ∧ s.cfg.clearBeforeSetabc = true) ∧
    (let s := running { cfgA with clearBeforeSetabc := false } 0x150000B4#32 .start
     s.pos = .start ∧ s.cfg.clearBeforeSetabc = false) ∧
    (∀ p ∈ [Pos.cleared, .after .r1, .after .r2, .finish], (running cfgA 0x150000B4#32 p).pos = p) ∧
    (let s := writing 0x150000B4#32 .waitEnd ⟨true, .none, 0⟩ ⟨true, .none, 0⟩ 50
     s.pos = .waitEnd ∧ s.cfg.tAbcApply ≤ (s.now - s.t0).toNat) ∧
    (let s := writing 0x150000B4#32 .waitEnd ⟨true, .none, 0⟩ ⟨true, .none, 0⟩ 49
     s.pos = .waitEnd ∧ (s.now - s.t0).toNat < s.cfg.tAbcApply) := by decide
theorem witness_SetabcSteps_outcomes :
    (writing 0x150000B4#32 .finish ⟨false, .timeout, 0⟩ ⟨true, .none, 180#16⟩ 0).ret1.ok = false ∧
    (let s := writing 0x150000B4#32 .finish ⟨true, .none, 0⟩ ⟨false, .timeout, 0xFFFF#16⟩ 0
     s.ret1.ok = true ∧ s.ret2.ok = false) ∧
    (let s := writing 0x150000B4#32 .finish ⟨true, .none, 0⟩ ⟨true, .none, 168#16⟩ 0
     s.ret1.ok = true ∧ s.ret2.ok = true ∧ s.ret2.value ≠ 180#16) ∧
    (let s := writing 0x150000B4#32 .finish ⟨true, .none, 0⟩ ⟨true, .none, 180#16⟩ 0
     s.ret1.ok = true ∧ s.ret2.ok = true ∧ s.ret2.value = 180#16) := by decide
theorem witness_BgcalSteps_writes :
    (running cfgA 0x16000000#32 .start).cfg.transportHasRestart = false ∧
    (running cfgR 0x16000000#32 .start).cfg.transportHasRestart = true ∧
    (∀ p ∈ [Pos.start, .cleared, .waitBegin], (running cfgA 0x16000000#32 p).pos = p) ∧
    (let s := writing 0x16000000#32 (.after .r1) ⟨false, .timeout, 0⟩ ⟨true, .none, 0⟩ 0
     s.pos = .after .r1 ∧ s.ret1.ok = false) ∧
    (let s := writing 0x16000000#32 (.after .r1) ⟨true, .none, 0⟩ ⟨true, .none, 0⟩ 0
     s.pos = .after .r1 ∧ s.ret1.ok = true) ∧
    (let s := writing 0x16000000#32 (.after .r2) ⟨true, .none, 0⟩ ⟨false, .valueMismatch, 0⟩ 0
     s.pos = .after .r2 ∧ s.ret2.ok = false) ∧
    (let s := writing 0x16000000#32 (.after .r2) ⟨true, .none, 0⟩ ⟨true, .none, 0⟩ 0
     s.pos = .after .r2 ∧ s.ret2.ok = true) ∧
    (let s := writing 0x16000000#32 .waitEnd ⟨true, .none, 0⟩ ⟨true, .none, 0⟩ 3000
     s.pos = .waitEnd ∧ s.cfg.tCalWait ≤ (s.now - s.t0).toNat) ∧
    (let s := writing 0x16000000#32 .waitEnd ⟨true, .none, 0⟩ ⟨true, .none, 0⟩ 2999
     s.pos = .waitEnd ∧ (s.now - s.t0).toNat < s.cfg.tCalWait) := by decide +kernel
theorem witness_BgcalSteps_acknowledgment :
    (let s := returned 0x16000000#32 .r3 ⟨false, .timeout, 0xFFFF#16⟩
     s.pos = .after .r3 ∧ s.ret3.value = 0xFFFF#16 ∧ s.ret3.ok = false) ∧
    (let s := returned 0x16000000#32 .r3 ⟨true, .none, 0xFFFF#16⟩; s.ret3.value = 0xFFFF#16 ∧ s.ret3.ok = true) ∧
    (let s := returned 0x16000000#32 .r3 ⟨true, .none, 0x0020#16⟩
     s.ret3.value ≠ 0xFFFF#16 ∧ s.ret3.value &&& s.cfg.calAckMask ≠ 0) ∧
    (let s := returned 0x16000000#32 .r3 ⟨true, .none, 0xFFDF#16⟩
     s.ret3.value ≠ 0xFFFF#16 ∧ s.ret3.value &&& s.cfg.calAckMask = 0) := by decide
theorem witness_IllegalCommandCompletes :
    let s : State := { running cfgA 0x01000001#32 .start with inputs := [.core] }
    s.moves = .core :: [] ∧ s.seq = .exec ∧ s.pos = .start ∧ decodeCommand s.cmdl = .error .reservedField :=
  ⟨rfl, rfl, rfl, rfl⟩
theorem witness_RequestFramesAreSent : (rirAt cfgA .tx 0).pos = .op .r1 .tx := rfl
theorem witness_ReadResponsesAreChecked : checking.pos = .op .r1 .check ∧
    0x33AD#16 = crc16 [0xFE#8, 0x04#8, 0x02#8, hiByte 500#16, loByte 500#16] 5 ∧
    0x32AD#16 ≠ crc16 [0xFE#8, 0x04#8, 0x02#8, hiByte 500#16, loByte 500#16] 5 := by decide +kernel
theorem witness_WriteResponsesAreChecked :
    let s : State := { running cfgA 0x061F00B4#32 (.op .r1 .check) with txbuf := reqV6 }
    s.pos = .op .r1 .check ∧ s.txbuf = builtFrame 0xFE#8 .writeSingle 0x1F#8 180#16 ∧ s.cfg.echoCheckRegister = true ∧
      0x74AC#16 = crc16 [0xFE#8, 0x06#8, 0x00#8, 0x1F#8, hiByte 180#16, loByte 180#16] 6 ∧
      0x75AC#16 ≠ crc16 [0xFE#8, 0x06#8, 0x00#8, 0x1F#8, hiByte 180#16, loByte 180#16] 6 := by decide +kernel

/-- Each way a position can be one of a command's rule. -/
theorem witness_CommandsGoOnAtEveryPosition :
    Instr.bgcal.place = .command ∧ (running cfgA 0x12000000#32 .start).pos = .start ∧
    commandClears .clrx = true ∧ (clearAt cfgA .discard [0x33] 0).rxq ≠ [] ∧
    atRxRead (clearAt cfgA .discard [0x33] 0).pos = true ∧ (commandCall cfgA .init .r4).isSome = true ∧
    (commandCall cfgA .bgcal .r3).isSome = true ∧ commandWaits .bgcal = true ∧ commandFinishes .init = true := by decide

theorem witness_InstructionFrame : ∃ t, exec (.rir 0x03#8) (rirAt cfgA .tx 0) = .next t := ⟨_, rfl⟩
theorem witness_steps : ∃ t, step { rirAt cfgA .tx 0 with inputs := [.core] } = .next t ∧ t.txlog ≠ [] := ⟨_, rfl, by decide +kernel⟩
theorem witness_SnapshotWriters : ∃ t, step (returned 0x10000000#32 .r3 ⟨true, .none, 0x0102#16⟩) = .next t ∧
    t.fwVersion ≠ (base cfgA).fwVersion := ⟨_, rfl, by decide⟩
theorem witness_FlagsAreWrittenOnlyAndReadByTheHost :
    (∀ a l, (returned 0x04030000#32 .r1 ⟨true, .none, 1#16⟩).moves ≠ .host a :: l) ∧
    ∃ t, step (returned 0x04030000#32 .r1 ⟨true, .none, 1#16⟩) = .next t ∧ t.status.done = true :=
  ⟨(by intro a l h; cases h), _, rfl, by decide⟩
theorem witness_CommandStaysLatched : (rirAt cfgA .tx 0).status.busy = true ∧ ∃ t, step (rirAt cfgA .tx 0) = .next t :=
  ⟨rfl, _, rfl⟩
theorem witness_FramesSentStaySent : ∃ t, step (rirAt cfgA .tx 0) = .next t ∧ t.txlog = [builtFrame 0xFE#8 .readInput 0x03#8 1#16] :=
  ⟨_, rfl, by decide +kernel⟩
theorem witness_SettleWaitBeforeEveryFrame :
    ∃ t, step (rirAt cfgA .settleEnd 5) = .next t ∧ t.pos = .op .r1 .tx ∧ (rirAt cfgA .settleEnd 5).pos ≠ .op .r1 .tx :=
  ⟨_, rfl, by decide, by decide⟩
theorem witness_CollectorTakesBytesInOrder :
    let s : State := { rirAt cfgA .take 0 with rxq := [0xAD, 0x33], rxcnt := 6 }
    commandCall s.cfg (.rir 0x03#8) .r1 = some rir3 ∧ s.pos = .op .r1 .take ∧ OpPos.take ≠ .collect ∧ s.rxcnt < 8 ∧
      (rirAt cfgA .deadline 100).now - (rirAt cfgA .deadline 100).t0 = 100#32 ∧
      ∃ t, exec (.rir 0x03#8) s = .next t := ⟨rfl, rfl, by decide, by decide, by decide, _, rfl⟩
theorem witness_ClearDrainsQuietLine :
    let s := clearAt cfgA .avail [0x00, 0x33] 0
    s.seq = .exec ∧ fetchCommand s = some .clrx ∧ commandClears .clrx = true ∧ s.pos = .clear .avail ∧ s.moves = [] :=
  ⟨rfl, rfl, rfl, rfl, rfl⟩
/-- Bytes before every `RxAvail()`, time and host accesses among them, listed once, and repeating for ever. -/
def feeding : List DrainRound :=
  [⟨[.tick 1, .rx 0x44#8], [.rx 0x45#8]⟩, ⟨[.rx 0x46#8, .host (.read 0x04#8 4)], [.tick 5, .host (.write 0xFC#8 4 1)]⟩]
theorem feeding_feeds : ∀ r ∈ feeding, r.Feeds := by
  intro r hr
  simp only [feeding, List.mem_cons, List.not_mem_nil, or_false] at hr
  rcases hr with rfl | rfl
  · exact ⟨by decide, 0x44#8, by decide⟩
  · exact ⟨by decide, 0x46#8, by decide⟩
theorem witness_ClearHangsUnderEndlessBytes_rounds :
    let s : State := { clearAt cfgA .avail [] 0 with inputs := drainRounds feeding }
    let u : State := { clearAt cfgA .avail [] 0 with repeating := drainRounds feeding }
    s.seq = .exec ∧ fetchCommand s = some .clrx ∧ s.pos = .clear .avail ∧ FifoRoom s.cfg 1 ∧
      s.moves = drainRounds feeding ∧ u.seq = .exec ∧ fetchCommand u = some .clrx ∧ u.pos = .clear .avail ∧
      FifoRoom u.cfg 1 ∧ u.inputs = [] ∧ feeding ≠ [] ∧ u.repeating = drainRounds feeding :=
  ⟨rfl, rfl, rfl, (by intro d h; cases h), rfl, rfl, rfl, rfl, (by intro d h; cases h), rfl, by decide, rfl⟩
/-- A backlog in `RXQ` keeps up too, on a line that then goes silent: two iterations. -/
theorem witness_ClearHangsUnderEndlessBytes_line :
    let s := clearAt cfgA .avail [0x00, 0x33] 0
    s.seq = .exec ∧ fetchCommand s = some .clrx ∧ s.pos = .clear .avail ∧
      ∀ m < 4, ∀ t, Host.Core.run Sys2Proof.core m s = .next t → LineKeepsUp t := by
  refine ⟨rfl, rfl, rfl, fun m hm t h => ?_⟩
  have : m = 0 ∨ m = 1 ∨ m = 2 ∨ m = 3 := by omega
  rcases this with rfl | rfl | rfl | rfl <;> cases h <;>
    exact ⟨(by intro e he; cases he), fun _ hp => by first | (cases hp; done) | (intro hq; cases hq)⟩

/-- A round that repeats begins again: 42_byte_collector.md R179 needs a line that never stops. -/
theorem test_repeating_round :
    after (fun t => (t.inputs, t.rxq)) (Host.Core.run Sys2Proof.core 2
      { base cfgA with repeating := [.rx 0x44#8] }) = some ([], [0x44, 0x44]) := by decide +kernel

/-! ## A fair schedule: the core moves and the clock advances by 1 ms, for ever -/

/-- `checking` in a poll wait, three bytes collected. -/
def polling : State := { checking with pos := .op .r1 .pollEnd, rxcnt := 3, repeating := [.core, .tick 1] }

theorem polling_inv : StateInv polling := by
  refine checking_inv.move rfl rfl rfl rfl (fun _ => ?_) (by decide) checking_inv.ret_ok (by decide) checking_inv.sent
  exact .ofOp (o := rir3) rfl rfl (by simp) ⟨rfl, by decide⟩ fun _ => rfl

theorem polling_moves (n : Nat) : ∀ s : State, s.repeating = [.core, .tick 1] → (s.inputs = [] ∨ s.inputs = [.tick 1]) →
    (s.dropMoves n).repeating = [.core, .tick 1] ∧ ((s.dropMoves n).inputs = [] ∨ (s.dropMoves n).inputs = [.tick 1]) := by
  induction n with
  | zero => exact fun _ hr hi => ⟨hr, hi⟩
  | succ n ih =>
    intro s hr hi
    refine ih s.dropMove hr ?_
    obtain hi | hi := hi
    · exact .inr (by simp [State.dropMove, State.moves, State.entries, hi, hr, State.writeTurn, State.setInputs])
    · exact .inl (by simp [State.dropMove, State.moves, State.entries, hi, State.writeTurn, State.setInputs])

theorem polling_fair : FairSchedule 1 polling := by
  refine ⟨round_clockFair rfl (by decide) (by decide), fun n => ?_, fun n => ?_⟩ <;>
    obtain ⟨hr, hi | hi⟩ := polling_moves n polling rfl (.inl rfl)
  · exact ⟨0, by simp [State.dropMoves, State.nextMove, State.moves, State.entries, hi, hr, State.writeTurn], Nat.zero_le _⟩
  · exact ⟨1, by simp [State.dropMoves, State.dropMove, State.setInputs, State.nextMove, State.moves, State.entries, hi, hr,
      State.writeTurn], by simp [State.timeOver, State.nextMove, State.moves, State.entries, hi, State.writeTurn, Input.ms]⟩
  · exact .inl (by simp [State.nextMove, State.moves, State.entries, hi, hr, State.writeTurn])
  · exact .inr (by simp [State.nextMove, State.moves, State.entries, hi, State.writeTurn, sparesCore])

theorem witness_WaitsAndCollectionsEnd :
    (StateInv polling ∧ polling.seq = .exec ∧ FairSchedule 1 polling ∧ NoWrap polling.cfg 1) ∧
      inWait polling.pos = true ∧ polling.pos = .op .r1 .pollEnd ∧ inCollectLoop .pollEnd = true :=
  ⟨⟨polling_inv, rfl, polling_fair, by decide, by decide⟩, rfl, rfl, rfl⟩
theorem witness_WaitsAndCollectionsEnd_free :
    let s : State := { base cfgA with inputs := [.rx 0x44#8, .free 0] }
    s.entries = [.rx 0x44#8] ++ .free 0 :: [] ∧ ∀ e ∈ [Input.rx 0x44#8], e.isMove = true := ⟨rfl, by decide⟩

/-- The hypotheses on the parameters and the state that the runs under the ideal schedule share. -/
def IdealReady (s : State) : Prop :=
  SourceTimes s.cfg ∧ FifoRoom s.cfg 8 ∧ FifoRoom s.cfg 7 ∧ s.rxq = [] ∧ s.status.busy = false ∧
    s.cfg.transportHasRestart = false ∧ s.cfg.clearBeforeInit = true ∧ s.cfg.clearBeforeSetabc = true ∧
    s.cfg.calAckReadFn = 0x03#8 ∧ s.cfg.calAckMask = 0x0020#16

/-- The idle core with the agents' moves `l` to come. -/
def ideal (l : List Input) : State := { base cfgA with inputs := l }

theorem ideal_ready (l : List Input) : IdealReady (ideal l) := by
  refine ⟨⟨rfl, rfl, rfl, rfl, rfl⟩, ?_, ?_, rfl, rfl, rfl, rfl, rfl, rfl, rfl⟩ <;> intro d h <;> cases h

theorem witness_IdealRegisterRead :
    let l := .host (.write 0x00#8 4 (commandWord 0x04#8 0x03#8 0)) ::
      (opMoves cfgA (readReply 0xFE#8 0x04#8 500#16) ++ cores 1)
    IdealReady (ideal l) ∧ (ideal l).moves = l := ⟨ideal_ready _, rfl⟩
theorem witness_IdealRegisterWrite :
    let l := .host (.write 0x00#8 4 (commandWord 0x06#8 0x1F#8 180#16)) ::
      (opMoves cfgA (echoReply 0xFE#8 0x1F#8 180#16) ++ cores 1)
    IdealReady (ideal l) ∧ (ideal l).moves = l := ⟨ideal_ready _, rfl⟩
theorem witness_SilentReadTimesOut (holding : Bool) :
    let l := .host (.write 0x00#8 4 (commandWord (if holding then 0x03#8 else 0x04#8) 0x03#8 0)) ::
      (silentMoves cfgA ++ cores 1)
    IdealReady (ideal l) ∧ (ideal l).moves = l := ⟨ideal_ready _, rfl⟩
theorem witness_IdealGetco2 :
    let l := .host (.write 0x00#8 4 0x11000000#32) ::
      (clearMoves ++ opMoves cfgA (readReply 0xFE#8 0x04#8 0xFFFF#16) ++ cores 1)
    IdealReady (ideal l) ∧ (ideal l).moves = l := ⟨ideal_ready _, rfl⟩
theorem witness_IdealInit :
    let l := .host (.write 0x00#8 4 0x10000000#32) ::
      (cores 1 ++ clearMoves ++ opMoves cfgA (readReply 0xFE#8 0x04#8 1#16) ++
        opMoves cfgA (readReply 0xFE#8 0x04#8 2#16) ++ cores 1 ++ opMoves cfgA (readReply 0xFE#8 0x04#8 0x0102#16) ++
        cores 1 ++ opMoves cfgA (readReply 0xFE#8 0x03#8 180#16) ++ cores 2)
    IdealReady (ideal l) ∧ (ideal l).moves = l := ⟨ideal_ready _, rfl⟩
/-- Both outcomes: the re-read equals the hours, or differs. -/
theorem witness_IdealSetabc (v : Half) (_ : v = 180#16 ∨ v = 168#16) :
    let l := .host (.write 0x00#8 4 (commandWord 0x15#8 0 180#16)) ::
      (cores 1 ++ clearMoves ++ opMoves cfgA (echoReply cfgA.slaveAddr cfgA.regAbc 180#16) ++ waitMoves cfgA.tAbcApply ++
        opMoves cfgA (readReply 0xFE#8 0x03#8 v) ++ cores 2)
    IdealReady (ideal l) ∧ (ideal l).moves = l := ⟨ideal_ready _, rfl⟩
/-- Every outcome: bit 0x0020 set, clear, and the sentinel. -/
theorem witness_IdealBgcal (v : Half) (_ : v = 0x0020#16 ∨ v = 0xFFDF#16 ∨ v = 0xFFFF#16) :
    let l := .host (.write 0x00#8 4 0x16000000#32) ::
      (clearMoves ++ opMoves cfgA (echoReply cfgA.slaveAddr cfgA.regCalAck 0x0000#16) ++ cores 1 ++
        opMoves cfgA (echoReply cfgA.slaveAddr cfgA.regCalCmd cfgA.calCmd) ++ cores 1 ++ waitMoves cfgA.tCalWait ++
        opMoves cfgA (readReply 0xFE#8 0x03#8 v) ++ cores 1)
    IdealReady (ideal l) ∧ (ideal l).moves = l := ⟨ideal_ready _, rfl⟩
/-- 95_test_vectors.md V10's last row: the acknowledgment read with function 0x04. -/
theorem witness_IdealBgcal_readInput :
    let c := { cfgA with calAckReadFn := 0x04#8 }
    let l := .host (.write 0x00#8 4 0x16000000#32) ::
      (clearMoves ++ opMoves c (echoReply c.slaveAddr c.regCalAck 0x0000#16) ++ cores 1 ++
        opMoves c (echoReply c.slaveAddr c.regCalCmd c.calCmd) ++ cores 1 ++ waitMoves c.tCalWait ++
        opMoves c (readReply 0xFE#8 0x04#8 0x0020#16) ++ cores 1)
    let s : State := { base c with inputs := l }
    SourceTimes s.cfg ∧ FifoRoom s.cfg 8 ∧ s.rxq = [] ∧ s.status.busy = false ∧ s.cfg.transportHasRestart = false ∧
      s.cfg.calAckMask = 0x0020#16 ∧ s.moves = l ∧ s.cfg.calAckReadFn ≠ 0x03#8 ∧
      builtFrame s.cfg.slaveAddr .readInput s.cfg.regCalAck 0x0001#16 =
        ⟨0xFE, 0x04, 0x00, 0x00, 0x00, 0x01, 0x25, 0xC5⟩ :=
  ⟨⟨rfl, rfl, rfl, rfl, rfl⟩, (by intro d h; cases h), rfl, rfl, rfl, rfl, rfl, by decide, by decide +kernel⟩
theorem witness_CommandOperations :
    Instr.clrx.place = .command ∧ commandCall cfgA .clrx .r1 = none ∧
    (running cfgA 0x01000000#32 (.op .r1 .build)).pos = .op .r1 .build ∧ Slot.r2 ≠ .r1 := by decide
theorem witness_ClrxRun :
    let s : State := { base cfgA with
      rxq := [0x00, 0x33], inputs := .host (.write 0x00#8 4 0x01000000#32) :: cores (2 * 2 + 3) }
    s.status.busy = false ∧ s.cfg.transportHasRestart = false ∧
      s.moves = .host (.write 0x00#8 4 0x01000000#32) :: cores (2 * s.rxq.length + 3) := ⟨rfl, rfl, rfl⟩

end Sys2Proof.Tests
end

section
/-! PROOFS. Waits and collections end under a fair schedule (00_scope.md R27, 42_byte_collector.md R177): the lemmas of
Laws/Fair.lean, read at a state of the invariant. -/
namespace Sys2Proof.Machine

/-- Under a fair schedule the core leaves the wait it is in, with the command unchanged and nothing sent
(00_scope.md R27). -/
theorem leaves_wait {g : Nat} {s : State} (hI : StateInv s) (hs : s.seq = .exec) (hf : FairSchedule g s)
    (hw : NoWrap s.cfg g) (hp : inWait s.pos = true) :
    ∃ n t, Host.Core.run Sys2Proof.core n s = .next t ∧ t.pos ≠ s.pos ∧ t.seq = .exec ∧ t.cmdl = s.cmdl ∧
      t.txlog = s.txlog := by
  obtain ⟨b, T, p, hne, hT, hend⟩ := inWait_coreStep hI hs hp
  obtain ⟨n, u, hrun, hk, -⟩ := wait_ends (hw.waits T hT) hf hend
  exact ⟨n + 1, u.goto p, hrun.run, hne, hk.seq.trans hs, hk.cmdl, hk.txlog⟩

/-- A state of the invariant at a position of a register operation has that operation in progress. -/
theorem exists_atOp {k : Slot} {p : OpPos} {s : State} (hI : StateInv s) (hs : s.seq = .exec) (hp : s.pos = .op k p) :
    ∃ o, AtOp o p s ∧ o.slot = k := by
  have hr := (hI.exec hs).pos_rule
  rw [hp] at hr
  obtain ⟨o, ho⟩ := Option.isSome_iff_exists.mp hr
  have hk := callOf_slot ho
  subst hk
  exact ⟨o, ⟨hI, hs, hp, ho⟩, rfl⟩

/-- Settles O52: a free schedule is fair by its form, a wait ends by `wait_ends`, and a collection by the induction
over the clock of `AtOp.collection_ends`. -/
theorem waitsAndCollectionsEnd : Obligations.WaitsAndCollectionsEnd := by
  unfold Obligations.WaitsAndCollectionsEnd
  refine ⟨fun s l r n he hl => ⟨freeSchedule_clockFair he hl, fun k => freeSchedule_cores k he hl⟩,
    fun gap s hI hs hf hw => ⟨leaves_wait hI hs hf hw, fun k p hp hloop => ?_⟩⟩
  obtain ⟨o, hop, rfl⟩ := exists_atOp hI hs hp
  obtain ⟨n, t, hrun, hend⟩ := hop.collection_ends hloop hf (hw.waits _ (by simp)) hw.collection
  exact ⟨n, t, hrun.run, hend⟩

end Sys2Proof.Machine
end

section
/-! PROOFS. `STATUS` (10_state.md R39, R40, R46): its layout as a word, its three writers, and that no move but the
host's reads it. -/
namespace Sys2Proof.Machine

/-- Settles O16: the fields are appended, and an append multiplies by 2 to the width of what follows. -/
theorem statusWordLayout : Obligations.StatusWordLayout := by
  unfold Obligations.StatusWordLayout
  refine ⟨fun f => ?_, rfl, rfl, rfl, rfl, rfl, rfl, rfl⟩
  simp only [Status.word, toNat_append_mul, BitVec.toNat_ofBool, BitVec.toNat_ofNat]
  omega

/-! ## Two runs that differ in `STATUS` alone -/

/-- The state with another `STATUS`. -/
def State.withStatus (f : Status) (s : State) : State := { s with status := f }

@[simp] theorem State.withStatus_pos (f : Status) (s : State) : (s.withStatus f).pos = s.pos := rfl
@[simp] theorem State.withStatus_rxq (f : Status) (s : State) : (s.withStatus f).rxq = s.rxq := rfl
@[simp] theorem State.withStatus_seq (f : Status) (s : State) : (s.withStatus f).seq = s.seq := rfl

/-- The answers of a micro-step of the core in `s` and in `s` with `STATUS` = `f`: both leave `STATUS` as it was, or
both complete with the same outcome, or both fault. -/
inductive SameButStatus (f : Status) (s : State) : Result → Result → Prop where
  | kept (t : State) (h : t.status = s.status) : SameButStatus f s (.next t) (.next (t.withStatus f))
  | completed (ok : Bool) (err : ErrKind) (r : Word) :
    SameButStatus f s (.next (s.complete ok err r)) (.next ((s.withStatus f).complete ok err r))
  | fault (r : Fault) : SameButStatus f s (.fault r) (.fault r)

section
variable (f : Status) (s : State)

theorem endWait_sameButStatus (b : Word) (n : Nat) (p : Pos) :
    SameButStatus f s (endWait b n p s) (endWait b n p (s.withStatus f)) := by
  cases hw : s.waitOver b n with
  | true => rw [endWait_over hw, endWait_over (s := s.withStatus f) hw]; exact .kept _ rfl
  | false => rw [endWait_early hw, endWait_early (s := s.withStatus f) hw]; exact .kept s rfl

theorem clearStep_sameButStatus (p : ClearPos) :
    SameButStatus f s (clearStep p s) (clearStep p (s.withStatus f)) := by
  cases p with
  | settleEnd => exact endWait_sameButStatus f s _ _ _
  | discard =>
    simp only [clearStep, State.withStatus_rxq]
    split
    · exact .fault _
    · exact .kept _ rfl
  | _ => exact .kept _ rfl

theorem transmit_sameButStatus (r : Frame8) :
    SameButStatus f s (transmit r s) (transmit r (s.withStatus f)) := by
  simp only [transmit, State.withStatus_pos]
  split
  · exact .kept _ rfl
  · exact .fault _

theorem receiveRead_sameButStatus (r : Frame7) :
    SameButStatus f s (receiveRead r s) (receiveRead r (s.withStatus f)) := by
  simp only [receiveRead, State.withStatus_pos]
  split
  · rename_i k _
    cases k <;> exact .kept _ rfl
  · exact .fault _

theorem receiveWrite_sameButStatus (r : Frame8) :
    SameButStatus f s (receiveWrite r s) (receiveWrite r (s.withStatus f)) := by
  simp only [receiveWrite, State.withStatus_pos]
  split
  · rename_i k _
    cases k <;> exact .kept _ rfl
  · exact .fault _

theorem checkStep_sameButStatus (fn : FnCode) :
    SameButStatus f s (checkStep fn s) (checkStep fn (s.withStatus f)) := by
  cases fn with
  | readInput => exact receiveRead_sameButStatus f s _
  | readHolding => exact receiveRead_sameButStatus f s _
  | writeSingle => exact receiveWrite_sameButStatus f s _

/-- A timeout, or going on, as a test that does not read `STATUS` says. -/
theorem timeout_sameButStatus (o : OpCall) (b : Bool) (p : Pos) :
    SameButStatus f s (.next (if b then timedOut o s else s.goto p))
      (.next (if b then timedOut o (s.withStatus f) else (s.withStatus f).goto p)) := by
  obtain ⟨_, _, _, k⟩ := o
  cases b with
  | true => cases k <;> exact .kept _ rfl
  | false => exact .kept _ rfl

theorem opStep_sameButStatus (o : OpCall) (p : OpPos) :
    SameButStatus f s (opStep o p s) (opStep o p (s.withStatus f)) := by
  cases p with
  | settleEnd => exact endWait_sameButStatus f s _ _ _
  | tx => exact transmit_sameButStatus f s _
  | take =>
    simp only [opStep, State.withStatus_rxq]
    split
    · exact .fault _
    · exact .kept _ rfl
  | full => exact timeout_sameButStatus f s o s.echoLate _
  | deadline => exact timeout_sameButStatus f s o s.deadlinePassed _
  | pollEnd => exact endWait_sameButStatus f s _ _ _
  | check => exact checkStep_sameButStatus f s _
  | _ => exact .kept _ rfl

/-- A write of `BGCAL` that failed completes at once, else the command goes on. -/
theorem failedWrite_sameButStatus (r : Ret) (p : Pos) :
    SameButStatus f s
      (if r.ok = false then .next (s.complete false r.err 0x00000000#32) else .next (s.goto p))
      (if r.ok = false then .next ((s.withStatus f).complete false r.err 0x00000000#32)
        else .next ((s.withStatus f).goto p)) := by
  split
  · exact .completed _ _ _
  · exact .kept _ rfl

theorem exec_sameButStatus (i : Instr) : SameButStatus f s (exec i s) (exec i (s.withStatus f)) := by
  cases i with
  | clrx =>
    simp only [exec, execClrx, State.withStatus_pos]
    split
    exacts [clearStep_sameButStatus f s _, clearStep_sameButStatus f s _, .completed _ _ _, .fault _]
  | rhr a =>
    simp only [exec, execRhr, State.withStatus_pos]
    split
    exacts [opStep_sameButStatus f s _ _, opStep_sameButStatus f s _ _, .completed _ _ _, .fault _]
  | rir a =>
    simp only [exec, execRir, State.withStatus_pos]
    split
    exacts [opStep_sameButStatus f s _ _, opStep_sameButStatus f s _ _, .completed _ _ _, .fault _]
  | whr a v =>
    simp only [exec, execWhr, State.withStatus_pos]
    split
    exacts [opStep_sameButStatus f s _ _, opStep_sameButStatus f s _ _, .completed _ _ _, .fault _]
  | init =>
    simp only [exec, execInit, State.withStatus_pos]
    split
    exacts [.kept _ rfl, clearStep_sameButStatus f s _, opStep_sameButStatus f s _ _, opStep_sameButStatus f s _ _,
      opStep_sameButStatus f s _ _, .kept _ rfl, .kept _ rfl, .kept _ rfl, .completed _ _ _, .fault _]
  | getco2 =>
    simp only [exec, execGetco2, State.withStatus_pos]
    split
    exacts [clearStep_sameButStatus f s _, clearStep_sameButStatus f s _, opStep_sameButStatus f s _ _,
      opStep_sameButStatus f s _ _, .completed _ _ _, .fault _]
  | getid =>
    simp only [exec, execGetid, State.withStatus_pos]
    split
    exacts [.completed _ _ _, .fault _]
  | getfw =>
    simp only [exec, execGetfw, State.withStatus_pos]
    split
    exacts [.completed _ _ _, .fault _]
  | getabc =>
    simp only [exec, execGetabc, State.withStatus_pos]
    split
    exacts [.completed _ _ _, .fault _]
  | setabc h =>
    simp only [exec, execSetabc, State.withStatus_pos]
    split
    exacts [.kept _ rfl, clearStep_sameButStatus f s _, opStep_sameButStatus f s _ _, opStep_sameButStatus f s _ _,
      .kept _ rfl, endWait_sameButStatus f s _ _ _, opStep_sameButStatus f s _ _, .kept _ rfl, .completed _ _ _,
      .fault _]
  | bgcal =>
    simp only [exec, execBgcal, State.withStatus_pos]
    split
    exacts [clearStep_sameButStatus f s _, clearStep_sameButStatus f s _, opStep_sameButStatus f s _ _,
      opStep_sameButStatus f s _ _, failedWrite_sameButStatus f s _ _, opStep_sameButStatus f s _ _,
      failedWrite_sameButStatus f s _ _, .kept _ rfl, endWait_sameButStatus f s _ _ _, opStep_sameButStatus f s _ _,
      .completed _ _ _, .fault _]
  | reqRir a c => exact transmit_sameButStatus f s _
  | reqRhr a c => exact transmit_sameButStatus f s _
  | reqWhr a v c => exact transmit_sameButStatus f s _
  | rspRir b g v c => exact receiveRead_sameButStatus f s _
  | rspRhr b g v c => exact receiveRead_sameButStatus f s _
  | rspWhr b g a v c => exact receiveWrite_sameButStatus f s _

/-- The core's micro-step, fetch included, is the same under any `STATUS`. -/
theorem coreStep_sameButStatus : SameButStatus f s (coreStep s) (coreStep (s.withStatus f)) := by
  have hf : fetch (s.withStatus f) = fetch s := rfl
  simp only [coreStep, State.withStatus_seq, hf]
  split
  · exact .kept s rfl
  · cases fetch s with
    | some i => exact exec_sameButStatus f s i
    | none =>
      simp only [runFetched, execIllegal, State.withStatus_pos]
      split
      exacts [.completed _ _ _, .fault _]

variable {f s}

/-- Where one run goes on to `t`, the other goes on to `t` but for `STATUS`. -/
theorem SameButStatus.next {t : State} {r : Result} (h : SameButStatus f s (.next t) r) :
    ∃ g, r = .next (t.withStatus g) ∧ ((t.status = s.status ∧ g = f) ∨
      (g = { t.status with lastop := f.lastop } ∧ t.status.lastop = s.status.lastop) ∨ g = t.status) := by
  cases h with
  | kept _ ht => exact ⟨f, rfl, .inl ⟨ht, rfl⟩⟩
  | completed ok err r => exact ⟨_, rfl, .inr (.inl ⟨rfl, rfl⟩)⟩

/-- A micro-step that treats every `STATUS` alike writes it only by completing. -/
theorem SameButStatus.status {t : State} {r : Result} (h : SameButStatus f s (.next t) r) : t.status = s.status ∨
    (t.seq = .idle ∧ t.status.busy = false ∧ t.status.done = true ∧ t.status.lastop = s.status.lastop) := by
  cases h with
  | kept _ ht => exact .inl ht
  | completed ok err r => exact .inr ⟨rfl, rfl, rfl, rfl⟩

/-- The core writes `STATUS` only by completing the command in execution (10_state.md R37). -/
theorem coreStep_status {t : State} (h : coreStep s = .next t) : t.status = s.status ∨
    (s.seq = .exec ∧ t.seq = .idle ∧ t.status.busy = false ∧ t.status.done = true ∧
      t.status.lastop = s.status.lastop) := by
  cases hs : s.seq with
  | idle =>
    simp only [coreStep, hs] at h
    cases h
    exact .inl rfl
  | exec => exact (SameButStatus.status (h ▸ coreStep_sameButStatus s.status s)).imp_right fun hc => ⟨rfl, hc⟩

/-- No move but the host's reads `STATUS`; the reset input sets all of it. -/
theorem agentStep_withStatus {e : Input} {t : State} (hhost : ∀ a, e ≠ .host a) (h : agentStep e s = .next t) :
    ∃ g, agentStep e (s.withStatus f) = .next (t.withStatus g) ∧ ((t.status = s.status ∧ g = f) ∨
      (g = { t.status with lastop := f.lastop } ∧ t.status.lastop = s.status.lastop) ∨ g = t.status) := by
  cases e with
  | core => exact SameButStatus.next (h ▸ coreStep_sameButStatus f s)
  | host a => exact absurd rfl (hhost a)
  | reset => cases h; exact ⟨_, rfl, .inr (.inr rfl)⟩
  | _ => cases h; exact ⟨f, rfl, .inl ⟨rfl, rfl⟩⟩

end

/-- Settles O41: the writers are the cases of `step_next`, the core's by `coreStep_status`; that no move but the host's
reads `STATUS` is `agentStep_withStatus`. -/
theorem flagsAreWrittenOnlyAndReadByTheHost : Obligations.FlagsAreWrittenOnlyAndReadByTheHost := by
  unfold Obligations.FlagsAreWrittenOnlyAndReadByTheHost
  refine ⟨fun s t h => ?_, fun s t f hhost h => ?_⟩
  · obtain ⟨u, ⟨-, rfl⟩ | ⟨l, -, rfl⟩, hc⟩ | ⟨b, l, -, rfl⟩ | ⟨ms, l, -, rfl⟩ | ⟨off, l, -, -, rfl⟩ |
      ⟨off, v, l, -, -, -, rfl⟩ | ⟨v, l, hl, -, rfl⟩ | ⟨l, hl, rfl⟩ := step_next h
    case inr.inr.inr.inr.inr.inl => exact .inr (.inl ⟨v, l, hl, rfl⟩)
    case inr.inr.inr.inr.inr.inr => exact .inr (.inr (.inr ⟨l, hl, rfl⟩))
    case inl.inl => exact (coreStep_status hc).imp_right fun hd => .inr (.inl hd)
    case inl.inr => exact (coreStep_status hc).imp_right fun hd => .inr (.inl hd)
    all_goals exact .inl rfl
  · change ∃ g, step (s.withStatus f) = .next (t.withStatus g) ∧ _
    have hm : (s.withStatus f).moves = s.moves := rfl
    simp only [step, systemStep, hm] at h ⊢
    cases hl : s.moves with
    | nil =>
      rw [hl] at h
      exact SameButStatus.next (h ▸ coreStep_sameButStatus f s)
    | cons e l =>
      rw [hl] at h
      exact agentStep_withStatus (s := s.setInputs l) (fun a he => hhost a l (he ▸ hl)) h

end Sys2Proof.Machine
end

section
/-! PROOFS. The micro-steps of `SEND`, of `CLEAR()`, and of `SETABC` and `BGCAL` outside their register operations
(42_byte_collector.md R170, R178; 44_register_mux.md R227, R228). -/
namespace Sys2Proof.Machine

/-! ## `SEND` -/

/-- `BUILD_REQ`: the request goes to `TXBUF` and its CRC to `ACC` (41_frame_codec.md R150). -/
theorem opStep_build (o : OpCall) (s : State) : opStep o .build s = .next { s with
    txbuf := builtFrame s.cfg.slaveAddr o.fn o.addr o.value,
    acc := crc16 (builtFrame s.cfg.slaveAddr o.fn o.addr o.value).toList 6,
    pos := .op o.slot .settleBegin } := by
  rw [crc16_builtFrame]
  rfl

/-- Settles O25: at a position of a register operation the command's arm is `opStep` (`exec_op`), whatever the
command. -/
theorem sendSteps : Obligations.SendSteps := by
  unfold Obligations.SendSteps
  intro i k o s h
  obtain rfl := commandCall_slot h
  refine ⟨fun hp => ?_, fun hp => ?_, fun hp hw => ?_, fun hp hw => ?_, fun hp => ?_⟩ <;> rw [exec_op h hp]
  · exact opStep_build o s
  · rfl
  · exact endWait_over (waitOver_of_le hw)
  · exact endWait_early (waitOver_of_lt hw)
  · exact transmit_at hp

/-! ## `CLEAR()` -/

section
variable {s : State}

theorem clearStep_test_restart (h : s.cfg.transportHasRestart = true) :
    clearStep .test s = .next (s.goto (.clear .restart)) := by
  simp only [clearStep, h, if_true]

theorem clearStep_test_noRestart (h : s.cfg.transportHasRestart = false) :
    clearStep .test s = .next (s.goto (.clear .avail)) := by
  simp only [clearStep, h, Bool.false_eq_true, if_false]

theorem clearStep_avail_empty (h : s.rxq = []) : clearStep .avail s = .next (s.goto .cleared) := by
  simp only [clearStep, h, List.isEmpty_nil, if_true]

theorem clearStep_avail_byte (h : s.rxq ≠ []) : clearStep .avail s = .next (s.goto (.clear .discard)) := by
  simp only [clearStep, List.isEmpty_eq_false_iff.2 h, Bool.false_eq_true, if_false]

theorem clearStep_discard {b : Byte} {q : List Byte} (h : s.rxq = b :: q) :
    clearStep .discard s = .next ((s.setRxq q).goto (.clear .avail)) := by
  simp only [clearStep, h]

end

/-- Settles O28: at a position of `CLEAR()` the command's arm is `clearStep` (`exec_clear`), whatever the command; a
restart keeps a sublist of `RXQ` by `keepFrom_sublist`. -/
theorem clearSteps : Obligations.ClearSteps := by
  unfold Obligations.ClearSteps
  intro i s h
  refine ⟨fun hp hr => ?_, fun hp hr => ?_, fun hp => ⟨s.restart.rxq, keepFrom_sublist _ _ _, ?_⟩, fun hp => ?_,
    fun hp hw => ?_, fun hp hw => ?_, fun hp hq => ?_, fun hp hq => ?_, fun b q hp hq => ?_⟩ <;> rw [exec_clear h hp]
  · exact clearStep_test_restart hr
  · exact clearStep_test_noRestart hr
  · rfl
  · rfl
  · exact endWait_over (waitOver_of_le hw)
  · exact endWait_early (waitOver_of_lt hw)
  · exact clearStep_avail_empty hq
  · exact clearStep_avail_byte hq
  · exact clearStep_discard hq

/-! ## `SETABC`: its arm at each position outside its operations, and its outcome -/

section
variable {h : Half} {s : State} {w r : Ret}

theorem exec_setabc_start (hp : s.pos = .start) : exec (.setabc h) s =
    .next (s.goto (if s.cfg.clearBeforeSetabc then .clear .test else .op .r1 .build)) := by
  simp only [exec, execSetabc, hp]

theorem exec_setabc_cleared (hp : s.pos = .cleared) :
    exec (.setabc h) s = opStep (setabcCall s.cfg h .r1) .build s := by
  simp only [exec, execSetabc, hp]

theorem exec_setabc_afterWrite (hp : s.pos = .after .r1) :
    exec (.setabc h) s = .next (s.beginWait.goto .waitEnd) := by
  simp only [exec, execSetabc, hp]

theorem exec_setabc_waitEnd (hp : s.pos = .waitEnd) :
    exec (.setabc h) s = endWait s.t0 s.cfg.tAbcApply (.op .r2 .build) s := by
  simp only [exec, execSetabc, hp]

theorem exec_setabc_afterReread (hp : s.pos = .after .r2) :
    exec (.setabc h) s = .next ((s.setAbcPeriod s.ret2.value).goto .finish) := by
  simp only [exec, execSetabc, hp]

theorem exec_setabc_finish (hp : s.pos = .finish) : exec (.setabc h) s =
    .next (s.complete (setabcOk h s.ret1 s.ret2) (setabcErr h s.ret1 s.ret2) (zext32 s.ret2.value)) := by
  simp only [exec, execSetabc, hp]

theorem setabcOutcome_writeFailed (hw : w.ok = false) :
    setabcOk h w r = false ∧ setabcErr h w r = w.err := by
  simp [setabcOk, setabcErr, hw]

theorem setabcOutcome_rereadFailed (hw : w.ok = true) (hr : r.ok = false) :
    setabcOk h w r = false ∧ setabcErr h w r = r.err := by
  simp [setabcOk, setabcErr, hw, hr]

theorem setabcOutcome_mismatch (hw : w.ok = true) (hr : r.ok = true) (hv : r.value ≠ h) :
    setabcOk h w r = false ∧ setabcErr h w r = .valueMismatch := by
  simp [setabcOk, setabcErr, hw, hr, hv]

theorem setabcOutcome_success (hw : w.ok = true) (hr : r.ok = true) (hv : r.value = h) :
    setabcOk h w r = true ∧ setabcErr h w r = .none := by
  simp [setabcOk, setabcErr, hw, hr, hv]

end

/-- Settles O32: the arm at each position, and the outcome in each of the four cases of R227. -/
theorem setabcSteps : Obligations.SetabcSteps := by
  unfold Obligations.SetabcSteps
  intro s h
  refine ⟨fun hp hc => ?_, fun hp hc => ?_, fun hp => ?_, exec_setabc_afterWrite, fun hp hw => ?_, fun hp hw => ?_,
    exec_setabc_afterReread, fun hp => ⟨_, _, exec_setabc_finish hp, setabcOutcome_writeFailed,
      setabcOutcome_rereadFailed, setabcOutcome_mismatch, setabcOutcome_success⟩⟩
  · rw [exec_setabc_start hp, hc]; rfl
  · rw [exec_setabc_start hp, hc]; rfl
  · rw [exec_setabc_cleared hp]; exact opStep_build _ s
  · rw [exec_setabc_waitEnd hp]; exact endWait_over (waitOver_of_le hw)
  · rw [exec_setabc_waitEnd hp]; exact endWait_early (waitOver_of_lt hw)

/-! ## `BGCAL`: its arm at each position outside its operations, and its outcome -/

section
variable {s : State} {m : Half} {r : Ret}

theorem exec_bgcal_start (hp : s.pos = .start) : exec .bgcal s = clearStep .test s := by
  simp only [exec, execBgcal, hp]

theorem exec_bgcal_cleared (hp : s.pos = .cleared) :
    exec .bgcal s = opStep (bgcalCall s.cfg .r1) .build s := by
  simp only [exec, execBgcal, hp]

theorem exec_bgcal_firstWriteFailed (hp : s.pos = .after .r1) (hk : s.ret1.ok = false) :
    exec .bgcal s = .next (s.complete false s.ret1.err 0x00000000#32) := by
  simp only [exec, execBgcal, hp, hk, if_true]

theorem exec_bgcal_firstWritten (hp : s.pos = .after .r1) (hk : s.ret1.ok = true) :
    exec .bgcal s = .next (s.goto (.op .r2 .build)) := by
  simp only [exec, execBgcal, hp, hk, Bool.true_eq_false, if_false]

theorem exec_bgcal_secondWriteFailed (hp : s.pos = .after .r2) (hk : s.ret2.ok = false) :
    exec .bgcal s = .next (s.complete false s.ret2.err 0x00000000#32) := by
  simp only [exec, execBgcal, hp, hk, if_true]

theorem exec_bgcal_secondWritten (hp : s.pos = .after .r2) (hk : s.ret2.ok = true) :
    exec .bgcal s = .next (s.goto .waitBegin) := by
  simp only [exec, execBgcal, hp, hk, Bool.true_eq_false, if_false]

theorem exec_bgcal_waitBegin (hp : s.pos = .waitBegin) : exec .bgcal s = .next (s.beginWait.goto .waitEnd) := by
  simp only [exec, execBgcal, hp]

theorem exec_bgcal_waitEnd (hp : s.pos = .waitEnd) :
    exec .bgcal s = endWait s.t0 s.cfg.tCalWait (.op .r3 .build) s := by
  simp only [exec, execBgcal, hp]

theorem exec_bgcal_acknowledgment (hp : s.pos = .after .r3) : exec .bgcal s =
    .next (s.complete (calAcknowledged s.cfg.calAckMask s.ret3) (calErr s.cfg.calAckMask s.ret3)
      (boolWord (calAcknowledged s.cfg.calAckMask s.ret3))) := by
  simp only [exec, execBgcal, hp]

theorem calOutcome_readFailed (hv : r.value = sentinel) (hr : r.ok = false) :
    calAcknowledged m r = false ∧ calErr m r = r.err := by
  simp [calAcknowledged, calErr, hv, hr]

theorem calOutcome_readSentinel (hv : r.value = sentinel) (hr : r.ok = true) :
    calAcknowledged m r = false ∧ calErr m r = .notAcknowledged := by
  simp [calAcknowledged, calErr, hv, hr]

theorem calOutcome_bitSet (hv : r.value ≠ sentinel) (hm : r.value &&& m ≠ 0) :
    calAcknowledged m r = true ∧ calErr m r = .none := by
  have ha : calAcknowledged m r = true := by simpa [calAcknowledged, hv] using hm
  exact ⟨ha, calAcknowledged_noError ha⟩

theorem calOutcome_bitClear (hv : r.value ≠ sentinel) (hm : r.value &&& m = 0) :
    calAcknowledged m r = false ∧ calErr m r = .notAcknowledged := by
  simp [calAcknowledged, calErr, hv, hm]

end

/-- Settles O33: the arm at each position, and the outcome in each of the four cases of R228. -/
theorem bgcalSteps : Obligations.BgcalSteps := by
  unfold Obligations.BgcalSteps
  intro s
  refine ⟨fun hp hr => ?_, fun hp hr => ?_, fun hp => ?_, exec_bgcal_firstWriteFailed, exec_bgcal_firstWritten,
    exec_bgcal_secondWriteFailed, exec_bgcal_secondWritten, exec_bgcal_waitBegin, fun hp hw => ?_, fun hp hw => ?_,
    fun hp => ⟨_, _, exec_bgcal_acknowledgment hp, calOutcome_readFailed, calOutcome_readSentinel, calOutcome_bitSet,
      calOutcome_bitClear⟩⟩
  · rw [exec_bgcal_start hp]; exact clearStep_test_noRestart hr
  · rw [exec_bgcal_start hp]; exact clearStep_test_restart hr
  · rw [exec_bgcal_cleared hp]; exact opStep_build _ s
  · rw [exec_bgcal_waitEnd hp]; exact endWait_over (waitOver_of_le hw)
  · rw [exec_bgcal_waitEnd hp]; exact endWait_early (waitOver_of_lt hw)

end Sys2Proof.Machine
end

section
/-! PROOFS. The host register space (20_memory.md R72 to R74): what an aligned 32-bit access does, and which steps are
refused. -/
namespace Sys2Proof.Machine

/-! ## A host access that keeps the duty -/

section
variable {off : Byte} {s : State}

theorem hostRead_aligned (h : off.toNat % 4 = 0) : hostRead off 4 s = .next (s.answerHost (readReg off s)) := by
  simp only [hostRead, hostDuty_none.2 ⟨rfl, h⟩]

theorem hostWrite_ignored (v : Word) (h : off.toNat % 4 = 0) (h0 : off ≠ 0x00#8) : hostWrite off 4 v s = .next s := by
  simp only [hostWrite, hostDuty_none.2 ⟨rfl, h⟩, if_neg h0]

theorem hostWrite_command (v : Word) (hb : s.status.busy = false) :
    hostWrite 0x00#8 4 v s = .next (s.accept v) := by
  have hd : hostDuty 0x00#8 4 = none := by decide
  simp only [hostWrite, hd, hb, if_true, Bool.false_eq_true, if_false]

end

/-! ## The host accesses that are refused -/

theorem hostDuty_eq_some {off : Byte} {width : Nat} :
    (∃ r, hostDuty off width = some r) ↔ width ≠ 4 ∨ off.toNat % 4 ≠ 0 := by
  rw [← Option.ne_none_iff_exists', Ne, hostDuty_none, Decidable.not_and_iff_not_or_not]

theorem hostRead_refused {off : Byte} {width : Nat} {s : State} :
    (∃ r, hostRead off width s = .refused r) ↔ width ≠ 4 ∨ off.toNat % 4 ≠ 0 := by
  rw [← hostDuty_eq_some]
  cases hd : hostDuty off width <;> simp [hostRead, hd]

theorem hostWrite_refused {off : Byte} {width : Nat} {v : Word} {s : State} :
    (∃ r, hostWrite off width v s = .refused r) ↔
      width ≠ 4 ∨ off.toNat % 4 ≠ 0 ∨ (off = 0x00#8 ∧ s.status.busy = true) := by
  rw [← or_assoc, ← hostDuty_eq_some]
  cases hd : hostDuty off width with
  | some r => simp [hostWrite, hd]
  | none =>
    by_cases h0 : off = 0x00#8
    · subst h0
      cases hb : s.status.busy <;> simp [hostWrite, hd, hb]
    · simp [hostWrite, hd, h0]

theorem hostStep_refused {a : HostAccess} {s : State} : (∃ r, hostStep a s = .refused r) ↔ HostViolation s a := by
  cases a with
  | read off width => exact hostRead_refused
  | write off width v => exact hostWrite_refused

/-- A duty does not depend on the moves still to come. -/
@[simp] theorem hostViolation_setInputs {a : HostAccess} {s : State} {l : List Input} :
    HostViolation (s.setInputs l) a ↔ HostViolation s a := by
  cases a <;> rfl

/-! ## The step -/

/-- The step where a host access is next. -/
theorem step_host {s : State} {a : HostAccess} {l : List Input} (h : s.moves = .host a :: l) :
    step s = hostStep a (s.setInputs l) := by
  simp only [step, systemStep, h, agentStep]

/-- An aligned 32-bit read answers the host and leaves the core as it was. -/
theorem step_read {s : State} {off : Byte} {l : List Input} (h4 : off.toNat % 4 = 0)
    (h : s.moves = .host (.read off 4) :: l) : step s = .next ((s.setInputs l).answerHost (readReg off s)) := by
  rw [step_host h, hostStep, hostRead_aligned h4, readReg_setInputs]

/-- Whatever word a read gave the host, a read that follows returns the register as it was, in the state one read
leaves. -/
theorem step_read_again {s : State} {off : Byte} {l : List Input} (h4 : off.toNat % 4 = 0) (w : Word) :
    step ((s.setInputs (.host (.read off 4) :: l)).answerHost w) =
      .next ((s.setInputs l).answerHost (readReg off s)) :=
  step_read (s := (s.setInputs (.host (.read off 4) :: l)).answerHost w) h4 rfl

/-- A host access that is next is refused exactly where it breaks a duty. -/
theorem step_host_refused {s : State} {a : HostAccess} {l : List Input} (h : s.moves = .host a :: l) :
    (∃ r, step s = .refused r) ↔ HostViolation s a := by
  rw [step_host h, hostStep_refused, hostViolation_setInputs]

/-- No agent's move but the host's is refused. -/
theorem agentStep_refused {e : Input} {s : State} {r : Refusal} (h : agentStep e s = .refused r) :
    ∃ a, e = .host a := by
  cases e with
  | host a => exact ⟨a, rfl⟩
  | core => exact absurd h (coreStep_not_refused s r)
  | _ => cases h

/-- A refused step is a host access. -/
theorem step_refused {s : State} {r : Refusal} (h : step s = .refused r) : ∃ a l, s.moves = .host a :: l := by
  cases hm : s.moves with
  | nil => exact absurd (step_idle_inputs hm ▸ h) (coreStep_not_refused s r)
  | cons e l =>
    simp only [step, systemStep, hm] at h
    obtain ⟨a, rfl⟩ := agentStep_refused h
    exact ⟨a, l, rfl⟩

/-! ## The statements -/

/-- Settles O17: an access at an aligned offset keeps the host's duty, and a read that follows a read leaves the state one
read leaves (`step_read_again`). -/
theorem hostAccessEffects : Obligations.HostAccessEffects := by
  unfold Obligations.HostAccessEffects
  intro s l off v h4
  refine ⟨step_read h4, fun h => ?_, fun h h0 => ?_, fun h h0 hb => ?_⟩
  · rw [run_succ (step_read h4 h), run_succ (step_read_again h4 _)]
    rfl
  · rw [step_host h, hostStep, hostWrite_ignored v h4 h0]
    rfl
  · subst h0
    have hs : step s = .next ((s.setInputs l).accept v) := by
      rw [step_host h, hostStep, hostWrite_command (s := s.setInputs l) v hb]
    exact ⟨_, hs, rfl, rfl, rfl⟩

/-- Settles O19: only a host access is refused (`step_refused`), and exactly one that breaks a duty
(`step_host_refused`). -/
theorem refusedExactlyOnHostViolations : Obligations.RefusedExactlyOnHostViolations := by
  unfold Obligations.RefusedExactlyOnHostViolations
  intro s
  constructor
  · rintro ⟨r, h⟩
    obtain ⟨a, l, hm⟩ := step_refused h
    exact ⟨a, l, hm, (step_host_refused hm).1 ⟨r, h⟩⟩
  · rintro ⟨a, l, hm, hv⟩
    exact (step_host_refused hm).2 hv

end Sys2Proof.Machine
end

section
/-! SUPPORT. The frame of every instruction, from the frames of the micro-steps the commands share; and what follows for
steps and runs, that they keep the parameters and, from a state of the invariant, the invariant. -/
namespace Sys2Proof.Machine

/-! ## Every instruction keeps its frame -/

variable {i : Instr} {s t : State} {k : Slot}

/-- A micro-step of the command's register operation `k`, at its position or as the operation begins. -/
theorem opCall_frame {o : OpCall} {p : OpPos} (h : opStep o p s = .next t) (hp : s.pos = .op k p ∨ p = .build)
    (ho : commandCall s.cfg i k = some o) : Frame i s t := by
  obtain rfl := commandCall_slot ho
  exact (opStep_frame ho hp h).1

theorem setDeviceId_frame (v : Word) (p : Pos) : Frame i s ((s.setDeviceId v).goto p) := by constructor <;> simp

theorem setFwVersion_frame (v : Half) (p : Pos) : Frame i s ((s.setFwVersion v).goto p) := by constructor <;> simp

theorem setAbcPeriod_frame (v : Half) (p : Pos) : Frame i s ((s.setAbcPeriod v).goto p) := by constructor <;> simp

theorem execClrx_frame (h : execClrx s = .next t) : Frame .clrx s t := by
  unfold execClrx at h
  split at h
  · exact (clearStep_frame (.inr rfl) h).1
  next hp => exact (clearStep_frame (.inl hp) h).1
  · cases h; exact (complete_frame _ _ _).1
  · cases h

theorem execRir_frame {a : Byte} (h : execRir a s = .next t) : Frame (.rir a) s t := by
  unfold execRir at h
  split at h
  · exact opCall_frame (k := .r1) h (.inr rfl) rfl
  next hp => exact opCall_frame h (.inl hp) rfl
  · cases h; exact (complete_frame _ _ _).1
  · cases h

theorem execRhr_frame {a : Byte} (h : execRhr a s = .next t) : Frame (.rhr a) s t := by
  unfold execRhr at h
  split at h
  · exact opCall_frame (k := .r1) h (.inr rfl) rfl
  next hp => exact opCall_frame h (.inl hp) rfl
  · cases h; exact (complete_frame _ _ _).1
  · cases h

theorem execWhr_frame {a : Byte} {v : Half} (h : execWhr a v s = .next t) : Frame (.whr a v) s t := by
  unfold execWhr at h
  split at h
  · exact opCall_frame (k := .r1) h (.inr rfl) rfl
  next hp => exact opCall_frame h (.inl hp) rfl
  · cases h; exact (complete_frame _ _ _).1
  · cases h

theorem execInit_frame (h : execInit s = .next t) : Frame .init s t := by
  unfold execInit at h
  split at h
  · cases h; exact (goto_frame _).1
  next hp => exact (clearStep_frame (.inl hp) h).1
  · exact opCall_frame (k := .r1) h (.inr rfl) rfl
  next hp => exact opCall_frame h (.inl hp) rfl
  · exact opCall_frame (k := .r2) h (.inr rfl) rfl
  · cases h; exact setDeviceId_frame _ _
  · cases h; exact setFwVersion_frame _ _
  · cases h; exact setAbcPeriod_frame _ _
  · cases h; exact (complete_frame _ _ _).1
  · cases h

theorem execGetco2_frame (h : execGetco2 s = .next t) : Frame .getco2 s t := by
  unfold execGetco2 at h
  split at h
  · exact (clearStep_frame (.inr rfl) h).1
  next hp => exact (clearStep_frame (.inl hp) h).1
  · exact opCall_frame (k := .r1) h (.inr rfl) rfl
  next hp => exact opCall_frame h (.inl hp) rfl
  · cases h; exact (complete_frame _ _ _).1
  · cases h

theorem execGetid_frame (h : execGetid s = .next t) : Frame .getid s t := by
  unfold execGetid at h
  split at h
  · cases h; exact (complete_frame _ _ _).1
  · cases h

theorem execGetfw_frame (h : execGetfw s = .next t) : Frame .getfw s t := by
  unfold execGetfw at h
  split at h
  · cases h; exact (complete_frame _ _ _).1
  · cases h

theorem execGetabc_frame (h : execGetabc s = .next t) : Frame .getabc s t := by
  unfold execGetabc at h
  split at h
  · cases h; exact (complete_frame _ _ _).1
  · cases h

theorem execSetabc_frame {v : Half} (h : execSetabc v s = .next t) : Frame (.setabc v) s t := by
  unfold execSetabc at h
  split at h
  · cases h; exact (goto_frame _).1
  next hp => exact (clearStep_frame (.inl hp) h).1
  · exact opCall_frame (k := .r1) h (.inr rfl) rfl
  next hp => exact opCall_frame h (.inl hp) rfl
  next hp => cases h; exact (beginWait_frame _ (by rw [hp]; rfl)).1
  · exact (endWait_frame h).1
  next hp => exact opCall_frame h (.inl hp) rfl
  · cases h; exact setAbcPeriod_frame _ _
  · cases h; exact (complete_frame _ _ _).1
  · cases h

theorem execBgcal_frame (h : execBgcal s = .next t) : Frame .bgcal s t := by
  unfold execBgcal at h
  split at h
  · exact (clearStep_frame (.inr rfl) h).1
  next hp => exact (clearStep_frame (.inl hp) h).1
  · exact opCall_frame (k := .r1) h (.inr rfl) rfl
  next hp => exact opCall_frame h (.inl hp) rfl
  · split at h <;> cases h
    exacts [(complete_frame _ _ _).1, (goto_frame _).1]
  next hp => exact opCall_frame h (.inl hp) rfl
  · split at h <;> cases h
    exacts [(complete_frame _ _ _).1, (goto_frame _).1]
  next hp => cases h; exact (beginWait_frame _ (by rw [hp]; rfl)).1
  · exact (endWait_frame h).1
  next hp => exact opCall_frame h (.inl hp) rfl
  · cases h; exact (complete_frame _ _ _).1
  · cases h

/-- Every micro-step of an instruction, command or wire frame, keeps the frame. -/
theorem exec_frame (h : exec i s = .next t) : Frame i s t := by
  cases i with
  | clrx => exact execClrx_frame h
  | rhr a => exact execRhr_frame h
  | rir a => exact execRir_frame h
  | whr a v => exact execWhr_frame h
  | init => exact execInit_frame h
  | getco2 => exact execGetco2_frame h
  | getid => exact execGetid_frame h
  | getfw => exact execGetfw_frame h
  | getabc => exact execGetabc_frame h
  | setabc v => exact execSetabc_frame h
  | bgcal => exact execBgcal_frame h
  | reqRir a crc => exact (transmit_frame (.inr rfl) h).1
  | reqRhr a crc => exact (transmit_frame (.inr rfl) h).1
  | reqWhr a v crc => exact (transmit_frame (.inr rfl) h).1
  | rspRir b f v crc => exact (receiveRead_frame h).1
  | rspRhr b f v crc => exact (receiveRead_frame h).1
  | rspWhr b f a v crc => exact (receiveWrite_frame h).1

/-! ## Every step keeps the parameters and the invariant -/

theorem coreStep_cfg (h : coreStep s = .next t) : t.cfg = s.cfg := by
  obtain ⟨-, rfl⟩ | ⟨-, i, -, he⟩ | ⟨-, -, -, rfl⟩ := coreStep_next h
  · rfl
  · exact (exec_frame he).cfg
  · rfl

theorem step_cfg (h : step s = .next t) : t.cfg = s.cfg := by
  obtain ⟨u, ⟨-, rfl⟩ | ⟨l, -, rfl⟩, hc⟩ | ⟨b, l, -, rfl⟩ | ⟨ms, l, -, rfl⟩ | ⟨off, l, -, -, rfl⟩ |
    ⟨off, v, l, -, -, -, rfl⟩ | ⟨v, l, -, -, rfl⟩ | ⟨l, -, rfl⟩ := step_next h
  case inl.inl => exact coreStep_cfg hc
  case inl.inr => exact coreStep_cfg (s := s.setInputs l) hc
  all_goals rfl

/-- A micro-step of the core keeps the invariant: in `EXEC` it is the latched command's. -/
theorem StateInv.coreStep (hI : StateInv s) (h : coreStep s = .next t) : StateInv t := by
  cases hs : s.seq with
  | idle =>
    simp only [Machine.coreStep, hs] at h
    cases h
    exact hI
  | exec =>
    obtain ⟨u, hu, hk⟩ := commandStep_keeps hI hs
    rw [coreStep_eq_commandStep hs (hI.exec hs), hu] at h
    cases h
    exact hk

theorem StateInv.step (hI : StateInv s) (h : step s = .next t) : StateInv t := by
  obtain ⟨u, ⟨-, rfl⟩ | ⟨l, -, rfl⟩, hc⟩ | ⟨b, l, -, rfl⟩ | ⟨ms, l, -, rfl⟩ | ⟨off, l, -, -, rfl⟩ |
    ⟨off, v, l, -, -, -, rfl⟩ | ⟨v, l, -, -, rfl⟩ | ⟨l, -, rfl⟩ := step_next h
  · exact hI.coreStep hc
  · exact (hI.setInputs l).coreStep hc
  · exact (hI.setInputs l).lineAppend b
  · exact (hI.setInputs l).tick ms
  · exact (hI.setInputs l).answerHost _
  · exact hI.setInputs l
  · exact (hI.setInputs l).accept v
  · exact (hI.setInputs l).coreReset

/-! ## Every run keeps them -/

/-- What every step keeps holds after every run. -/
theorem run_keeps {P : State → Prop} (hP : ∀ {s t}, P s → Machine.step s = .next t → P t) (n : Nat) :
    ∀ {s t : State}, P s → Host.Core.run Sys2Proof.core n s = .next t → P t := by
  induction n with
  | zero => intro s t hs h; cases h; exact hs
  | succ n ih =>
    intro s t hs h
    simp only [Host.Core.run] at h
    split at h
    next u hu => exact ih (hP hs hu) h
    · cases h
    · cases h

theorem run_cfg {n : Nat} (h : Host.Core.run Sys2Proof.core n s = .next t) : t.cfg = s.cfg :=
  run_keeps (P := fun u => u.cfg = s.cfg) (fun hc hu => (step_cfg hu).trans hc) n rfl h

theorem StateInv.run {n : Nat} (hI : StateInv s) (h : Host.Core.run Sys2Proof.core n s = .next t) : StateInv t :=
  run_keeps StateInv.step n hI h

end Sys2Proof.Machine
end

section
/-! PROOFS. Only requests are ever sent (30_encoding.md R118). -/
namespace Sys2Proof.Machine

/-- The bytes of a frame the core may send (30_encoding.md R110, R118). -/
theorem IsRequest.bytes {slave : Byte} {f : Frame8} (h : IsRequest slave f) :
    f.b0 = slave ∧ f.b2 = 0x00#8 ∧ (f.b1 = 0x03#8 ∨ f.b1 = 0x04#8 ∨ f.b1 = 0x06#8) ∧
    (f.b1 ≠ 0x06#8 → f.b4 = 0x00#8 ∧ f.b5 = 0x01#8) ∧ crc16 f.toList 6 = joinBytes f.b7 f.b6 := by
  obtain ⟨a, v, rfl | rfl | rfl⟩ := h
  · exact ⟨rfl, rfl, .inr (.inl rfl), fun _ => ⟨rfl, rfl⟩, builtFrame_crc _ _ _ _⟩
  · exact ⟨rfl, rfl, .inl rfl, fun _ => ⟨rfl, rfl⟩, builtFrame_crc _ _ _ _⟩
  · exact ⟨rfl, rfl, .inr (.inr rfl), fun hw => absurd rfl hw, builtFrame_crc _ _ _ _⟩

/-- Settles O49: the state after the run is of the invariant, so every frame in its `TXLOG` is a request to the
slave its parameters name, and these are the first state's. -/
theorem onlyRequestsAreEverSent : Obligations.OnlyRequestsAreEverSent := by
  unfold Obligations.OnlyRequestsAreEverSent
  refine ⟨rfl, fun n s t hI h f hf => ?_⟩
  rw [← run_cfg h]
  exact ((hI.run h).sent f hf).bytes

end Sys2Proof.Machine
end

section
/-! PROOFS. The residue of a message followed by its own CRC, and the detection of a changed byte (40_crc.md R143,
R144). -/
namespace Sys2Proof

theorem crc16_length (m : List Byte) : crc16 m m.length = crcFrom 0xFFFF#16 m := by
  rw [crc16, List.take_length]

theorem crc16_append_left (m l : List Byte) : crc16 (m ++ l) m.length = crc16 m m.length := by
  rw [crc16, List.take_left, crc16_length]

/-- Settles O6: after `m` the accumulator is the CRC itself, and its own two bytes, low byte first, clear it. -/
theorem crcResidueIsZero : Obligations.CrcResidueIsZero := by
  unfold Obligations.CrcResidueIsZero
  intro m
  generalize hc : crc16 m m.length = c
  calc crc16 (m ++ [loByte c, hiByte c]) (m.length + 2)
      = crcFrom 0xFFFF#16 (m ++ [loByte c, hiByte c]) := by simpa using crc16_length (m ++ [loByte c, hiByte c])
    _ = crcFrom c [loByte c, hiByte c] := by rw [crcFrom_append, ← crc16_length, hc]
    _ = 0#16 := crcFrom_own_bytes c

/-- Up to the changed byte the accumulator is the same; the byte makes it differ, and no later byte undoes that. -/
theorem crcFrom_set_ne (a : Half) {m : List Byte} {i : Nat} {b : Byte} (hi : i < m.length)
    (hb : m.getD i 0 ≠ b) : crcFrom a (m.set i b) ≠ crcFrom a m := by
  induction m generalizing a i with
  | nil => exact absurd hi (Nat.not_lt_zero i)
  | cons x m ih =>
    cases i with
    | zero => exact fun h => hb (crcByte_injective_byte (crcFrom_injective m h)).symm
    | succ i => exact ih (crcByte a x) (Nat.lt_of_succ_lt_succ hi) hb

theorem crc16_set_ne {m : List Byte} {i : Nat} {b : Byte} (hi : i < m.length) (hb : m.getD i 0 ≠ b) :
    crc16 (m.set i b) m.length ≠ crc16 m m.length := by
  have hset : crc16 (m.set i b) m.length = crcFrom 0xFFFF#16 (m.set i b) := by
    simpa using crc16_length (m.set i b)
  rw [hset, crc16_length]
  exact crcFrom_set_ne _ hi hb

/-- In a frame that carries the right CRC, low byte first, a change of any one byte, of the payload or of the CRC,
makes the recomputed CRC differ from the received one. -/
theorem recomputed_ne_received_of_set {m : List Byte} {lo hi b : Byte} {i : Nat}
    (hcrc : crc16 m m.length = joinBytes hi lo) (hlen : i < m.length + 2) (hb : (m ++ [lo, hi]).getD i 0 ≠ b) :
    crc16 ((m ++ [lo, hi]).set i b) m.length ≠
      joinBytes (((m ++ [lo, hi]).set i b).getD (m.length + 1) 0) (((m ++ [lo, hi]).set i b).getD m.length 0) := by
  obtain hm | rfl | rfl : i < m.length ∨ i = m.length ∨ i = m.length + 1 := by omega
  · have hne := crc16_set_ne hm (by rwa [List.getD_append _ _ _ _ hm] at hb)
    have hpre := crc16_append_left (m.set i b) [lo, hi]
    rw [List.length_set] at hpre
    rw [List.set_append_left _ _ hm, hpre]
    simpa [List.getD_append_right, hcrc] using hne
  all_goals
    simpa [List.set_append_right, List.getD_append_right, crc16_append_left, hcrc, joinBytes_inj] using hb

theorem flipBit_ne (b : Byte) {j : Nat} (hj : j < 8) : b ≠ b ^^^ (1#8 <<< j) := by
  intro h
  have hbit := congrArg (fun v => v.getLsbD j) h
  simp [hj] at hbit

/-- Settles O7: the example response carries the right CRC, so `recomputed_ne_received_of_set` speaks of its flipped
bits; the second clause is `crc16_set_ne`. -/
theorem singleBitErrorsDetected : Obligations.SingleBitErrorsDetected := by
  unfold Obligations.SingleBitErrorsDetected
  refine ⟨fun i hi j hj => ?_, fun m i b => crc16_set_ne⟩
  have hcrc : crc16 [0xFE, 0x04, 0x02, 0x01, 0xF4] 5 = joinBytes 0x33 0xAD := by decide +kernel
  exact recomputed_ne_received_of_set hcrc hi (flipBit_ne _ hj)

end Sys2Proof
end

section
/-! PROOFS. The request builder and the read check as functions of bytes (41_frame_codec.md R150 to R152). -/
namespace Sys2Proof.Machine

/-- Settles O8: the CRC bytes are `builtFrame_crc`; the other five are the builder's own operands, and the value's
two bytes joined are the value. -/
theorem builtFrameCarriesItsCrc : Obligations.BuiltFrameCarriesItsCrc := by
  unfold Obligations.BuiltFrameCarriesItsCrc
  intro slave fn a v t
  have hcrc : (crc16 t.toList 6).toNat = t.b6.toNat + t.b7.toNat * 256 :=
    eq_joinBytes_iff.1 (builtFrame_crc slave fn a v)
  have hval : t.b4.toNat * 256 + t.b5.toNat = v.toNat :=
    calc t.b4.toNat * 256 + t.b5.toNat
        = (joinBytes (hiByte v) (loByte v)).toNat := (joinBytes_toNat _ _).symm
      _ = v.toNat := by rw [joinBytes_hi_lo]
  exact ⟨hcrc, rfl, rfl, rfl, rfl, hval⟩

theorem checkRead_of_byteCount_ne {r : Frame7} (hcount : r.b2 ≠ 0x02#8) :
    checkRead r = ⟨false, .malformed, sentinel⟩ :=
  if_pos hcount

theorem checkRead_of_crc_ne {r : Frame7} (hcount : r.b2 = 0x02#8)
    (hcrc : crc16 r.toList 5 ≠ joinBytes r.b6 r.b5) : checkRead r = ⟨false, .crcMismatch, sentinel⟩ := by
  rw [checkRead, if_neg (not_not_intro hcount), if_pos hcrc]

theorem checkRead_of_valid {r : Frame7} (hcount : r.b2 = 0x02#8)
    (hcrc : crc16 r.toList 5 = joinBytes r.b6 r.b5) : checkRead r = ⟨true, .none, joinBytes r.b3 r.b4⟩ := by
  rw [checkRead, if_neg (not_not_intro hcount), if_neg (not_not_intro hcrc)]

/-- Settles O9: one clause for each of the check's three answers, the comparison of CRCs read as one of numbers. -/
theorem readCheckOutcome : Obligations.ReadCheckOutcome := by
  unfold Obligations.ReadCheckOutcome
  intro r
  refine ⟨checkRead_of_byteCount_ne, fun hcount hcrc => ?_, fun hcount hcrc => ?_⟩
  · exact checkRead_of_crc_ne hcount (mt eq_joinBytes_iff.1 hcrc)
  · rw [checkRead_of_valid hcount (eq_joinBytes_iff.2 hcrc)]
    exact ⟨rfl, rfl, joinBytes_toNat _ _⟩

end Sys2Proof.Machine
end

section
/-! PROOFS. The collector's micro-steps (42_byte_collector.md R172, R174): the operation's micro-step at each position
of `COLLECT`, in each of its cases. -/
namespace Sys2Proof.Machine

section
variable {o : OpCall} {s : State}

/-- The length each function's response has (30_encoding.md R116). -/
theorem rspLen_eq (fn : FnCode) : fn.rspLen = if fn = .writeSingle then 8 else 7 := by cases fn <;> rfl

theorem opStep_collect : opStep o .collect s = .next { s with
    explen := if o.fn = .writeSingle then 8 else 7, rxcnt := 0, t0 := s.now, firstAvail := none,
    pos := .op o.slot .avail } := by
  rw [← rspLen_eq]
  rfl

theorem opStep_avail_empty (hq : s.rxq = []) : opStep o .avail s = .next { s with
    took := false, firstAvail := some (s.firstAvail.getD 0), pos := .op o.slot .full } := by
  simp [opStep, State.readAvail, State.goto, hq]

theorem opStep_avail_byte (hq : s.rxq ≠ []) : opStep o .avail s = .next (s.readAvail.goto (.op o.slot .take)) := by
  simp only [opStep, List.isEmpty_eq_false_iff.2 hq, Bool.false_eq_true, if_false]

theorem opStep_take {b : Byte} {q : List Byte} (hq : s.rxq = b :: q) :
    opStep o .take s = .next ((s.takeByte b q).goto (.op o.slot .full)) := by
  simp only [opStep, hq]

/-- The completion test succeeds. -/
theorem opStep_full_complete (hn : s.rxcnt = s.explen) (hl : ¬EchoTooLate s) :
    opStep o .full s = .next (s.goto (.op o.slot .check)) := by
  rw [opStep_full (Bool.eq_false_iff.2 fun e => hl (echoLate_iff_tooLate.1 e).2), afterFull, if_pos hn]

theorem opStep_full_tooLate (hn : s.rxcnt = s.explen) (hl : EchoTooLate s) :
    opStep o .full s = .next (timedOut o s) := by
  simp only [opStep, echoLate_iff_tooLate.2 ⟨hn, hl⟩, if_true]

/-- A byte taken in `SLEEP_WHEN_EMPTY` mode: on to the next poll at once. -/
theorem opStep_full_pollAgain (hn : s.rxcnt ≠ s.explen) (hm : s.cfg.pollMode = .sleepWhenEmpty)
    (ht : s.took = true) : opStep o .full s = .next (s.goto (.op o.slot .avail)) := by
  rw [opStep_full (echoLate_of_short hn), afterFull, if_neg hn, if_pos ⟨hm, ht⟩]

theorem opStep_full_testDeadline (hn : s.rxcnt ≠ s.explen)
    (hm : s.cfg.pollMode = .sleepEveryPoll ∨ s.took = false) :
    opStep o .full s = .next (s.goto (.op o.slot .deadline)) := by
  have hno : ¬(s.cfg.pollMode = .sleepWhenEmpty ∧ s.took = true) := by
    rintro ⟨hw, ht⟩
    simp [hw, ht] at hm
  rw [opStep_full (echoLate_of_short hn), afterFull, if_neg hn, if_neg hno]

theorem opStep_deadline_early (h : s.deadlinePassed = false) :
    opStep o .deadline s = .next (s.goto (.op o.slot .pollBegin)) := by
  simp only [opStep, h, Bool.false_eq_true, if_false]

theorem opStep_deadline_passed (h : s.deadlinePassed = true) : opStep o .deadline s = .next (timedOut o s) := by
  simp only [opStep, h, if_true]

end

/-- A micro-step that times out leaves some eight bytes in `RXBUF`, and returns the sentinel where the operation is a
read. -/
theorem exists_timeout_of_timedOut {o : OpCall} {s : State} {r : Result} (h : r = .next (timedOut o s)) :
    ∃ f v, (o.fn ≠ .writeSingle → v = 0xFFFF#16) ∧ r = .next (({ s with
      rxcnt := 0, rxbuf := f, draws := s.draws + 1, pos := .after o.slot } : State).bindRet o.slot
        ⟨false, .timeout, v⟩) := by
  obtain ⟨fn, addr, value, k⟩ := o
  refine ⟨State.freeFrame s.draws, (timeoutRet fn).value, fun hr => ?_, h.trans ?_⟩
  · cases fn with
    | writeSingle => exact absurd rfl hr
    | readHolding => rfl
    | readInput => rfl
  · cases fn <;> cases k <;> rfl

/-- Settles O26: at a position of a register operation the command's arm is `opStep` (`exec_op`), whatever the command,
and each clause is `opStep` in one case of one position. -/
theorem collectSteps : Obligations.CollectSteps := by
  unfold Obligations.CollectSteps
  intro i k o s h
  obtain rfl := commandCall_slot h
  refine ⟨fun hp => ?_, fun hp hq => ?_, fun hp hq => ?_, fun b q hp hq => ?_, fun hp hn hl => ?_, fun hp hn hl => ?_,
    fun hp hn hm ht => ?_, fun hp hn hm => ?_, fun hp hd => ?_, fun hp hd => ?_, fun hp => ?_, fun hp hw => ?_,
    fun hp hw => ?_⟩ <;> rw [exec_op h hp]
  · exact opStep_collect
  · exact opStep_avail_empty hq
  · exact opStep_avail_byte hq
  · exact opStep_take hq
  · exact opStep_full_complete hn hl
  · exact exists_timeout_of_timedOut (opStep_full_tooLate hn hl)
  · exact opStep_full_pollAgain hn hm ht
  · exact opStep_full_testDeadline hn hm
  · exact opStep_deadline_early (deadlinePassed_of_le hd)
  · exact exists_timeout_of_timedOut (opStep_deadline_passed (deadlinePassed_of_lt hd))
  · rfl
  · exact endWait_over (waitOver_of_le hw)
  · exact endWait_early (waitOver_of_lt hw)

end Sys2Proof.Machine
end

section
/-! PROOFS. `CLEAR()` never returns while the line keeps up with its drain loop (42_byte_collector.md R179): the runs of
the steps in Laws/Drain.lean. -/
namespace Sys2Proof.Machine

section
variable {i : Instr}

/-- While the line keeps up the drain loop goes on, for any number of steps. -/
theorem DrainLoop.run_of_keepsUp (hc : commandClears i = true) (n : Nat) : ∀ {s : State}, DrainLoop i s →
    (∀ m < n, ∀ t, Host.Core.run Sys2Proof.core m s = .next t → LineKeepsUp t) →
    ∃ t, Host.Core.run Sys2Proof.core n s = .next t ∧ DrainLoop i t ∧ Quiet s t := by
  induction n with
  | zero => exact fun h _ => ⟨_, rfl, h, .refl _⟩
  | succ n ih =>
    intro s h hk
    obtain ⟨u, hu, hl, hq⟩ := h.step hc (hk 0 n.succ_pos s rfl)
    obtain ⟨t, ht, hlt, hqt⟩ := ih hl fun m hm t ht => hk (m + 1) (Nat.succ_lt_succ hm) t ((run_succ hu).trans ht)
    exact ⟨t, (run_succ hu).trans ht, hlt, hq.trans hqt⟩

/-- Rounds to come have a move to come. -/
theorem RoundsToCome.moves_ne_nil {s : State} (h : RoundsToCome s) : s.moves ≠ [] := by
  obtain ⟨-, pre, mid, rs, hm, -⟩ | ⟨-, mid, rs, hm, -⟩ := h <;> simp [hm]

/-- Where all the moves to come are those of rounds, the core is back at `RxAvail()` when they have been made. -/
theorem DrainLoop.run_rounds (hc : commandClears i = true) (n : Nat) : ∀ {s : State}, DrainLoop i s →
    FifoRoom s.cfg 1 → RoundsToCome s → s.moves.length = n →
    ∃ t, Host.Core.run Sys2Proof.core n s = .next t ∧ DrainLoop i t ∧ Quiet s t ∧ t.pos = .clear .avail ∧
      t.inputs = [] := by
  induction n with
  | zero => exact fun _ _ hR hn => absurd (List.length_eq_zero_iff.1 hn) hR.moves_ne_nil
  | succ n ih =>
    intro s h hr hR hn
    obtain ⟨u, hu, hl, hq, hin, hnext⟩ := h.rounds hc hr hR
    have hlen : u.inputs.length = n := by rw [hin, List.length_tail, hn]; rfl
    obtain ⟨hm, hRu⟩ | ⟨hnil, hp⟩ := hnext
    · obtain ⟨t, ht, hlt, hqt, hend⟩ := ih hl (by rwa [hq.cfg]) hRu (by rw [hm, hlen])
      exact ⟨t, (run_succ hu).trans ht, hlt, hq.trans hqt, hend⟩
    · obtain rfl : n = 0 := by rw [← hlen, hnil]; rfl
      exact ⟨u, run_succ hu, hl, hq, hp, hnil⟩

/-- The core is in the drain loop, with rounds to come, and the rounds `rs` after them for ever. -/
structure EndlessRounds (i : Instr) (rs : List DrainRound) (s : State) : Prop where
  loop : DrainLoop i s
  room : FifoRoom s.cfg 1
  again : s.repeating = drainRounds rs
  toCome : RoundsToCome s

/-- A state at `RxAvail()` whose listed moves are used up has the repeating rounds to come. -/
theorem roundsToCome_of_repeating {s : State} {rs : List DrainRound} (hf : ∀ r ∈ rs, r.Feeds) (hne : rs ≠ [])
    (hp : s.pos = .clear .avail) (hin : s.inputs = []) (hrep : s.repeating = drainRounds rs) : RoundsToCome s := by
  obtain ⟨r, rs, rfl⟩ := List.exists_cons_of_ne_nil hne
  have he : s.entries = drainRounds (r :: rs) := by rw [State.entries, hin]; exact hrep
  exact roundsToCome_of_cons hp hf (moves_of_rounds (hf r (by simp)) he)

theorem EndlessRounds.step {rs : List DrainRound} (hc : commandClears i = true) (hf : ∀ r ∈ rs, r.Feeds)
    (hne : rs ≠ []) {s t : State} (h : EndlessRounds i rs s) (hs : Machine.step s = .next t) :
    EndlessRounds i rs t := by
  obtain ⟨u, hu, hl, hq, -, hnext⟩ := h.loop.rounds hc h.room h.toCome
  obtain rfl : u = t := by rw [hu] at hs; cases hs; rfl
  have hrep := hq.repeating.trans h.again
  have hcome : RoundsToCome u := by
    obtain ⟨-, hR⟩ | ⟨hin, hp⟩ := hnext
    · exact hR
    · exact roundsToCome_of_repeating hf hne hp hin hrep
  exact ⟨hl, by rw [hq.cfg]; exact h.room, hrep, hcome⟩

/-- Rounds that repeat for ever keep the core in the drain loop: the line keeps up in every state of the run. -/
theorem EndlessRounds.run {rs : List DrainRound} (hc : commandClears i = true) (hf : ∀ r ∈ rs, r.Feeds)
    (hne : rs ≠ []) {s : State} (h : EndlessRounds i rs s) (n : Nat) :
    ∃ t, Host.Core.run Sys2Proof.core n s = .next t ∧ DrainLoop i t ∧ Quiet s t :=
  h.loop.run_of_keepsUp hc n fun m _ _ ht => (run_keeps (EndlessRounds.step hc hf hne) m h ht).toCome.keepsUp

end

/-- What the host sees of a state of the drain loop reached quietly. -/
theorem DrainLoop.inLoop {i : Instr} {s t : State} (h : DrainLoop i t) (hq : Quiet s t) :
    (t.pos = .clear .avail ∨ t.pos = .clear .discard) ∧
      t.seq = .exec ∧ t.status = s.status ∧ t.result = s.result ∧ t.txlog = s.txlog :=
  ⟨h.place.imp_right And.left, h.exec, hq.status, hq.result, hq.txlog⟩

/-- Settles O51: the loop goes on while the line keeps up (`DrainLoop.run_of_keepsUp`); listed rounds come back to
`RxAvail()` by induction on their moves (`DrainLoop.run_rounds`), and with rounds that repeat the line keeps up for
ever (`EndlessRounds.run`). -/
theorem clearHangsUnderEndlessBytes : Obligations.ClearHangsUnderEndlessBytes := by
  unfold Obligations.ClearHangsUnderEndlessBytes
  intro i s hs hi hc hp
  have hloop : DrainLoop i s := ⟨hs, hi, .inl hp⟩
  refine ⟨fun n hk => ?_, fun rs hf hr => ⟨fun hm => ?_, fun hin hne hrep n => ?_⟩⟩
  · obtain ⟨t, ht, hl, hq⟩ := hloop.run_of_keepsUp hc n hk
    exact ⟨t, ht, hl.inLoop hq⟩
  · cases rs with
    | nil =>
      have hnil : s.moves = [] := hm
      exact ⟨s, by rw [hnil]; rfl, hp, hs, rfl, rfl, rfl, (moves_eq_nil.1 hnil).1⟩
    | cons r rs =>
      obtain ⟨t, ht, hl, hq, hpt, hin⟩ := hloop.run_rounds hc _ hr (roundsToCome_of_cons hp hf hm) rfl
      exact ⟨t, ht, hpt, hl.exec, hq.status, hq.result, hq.txlog, hin⟩
  · have hend : EndlessRounds i rs s := ⟨hloop, hr, hrep, roundsToCome_of_repeating hf hne hp hin hrep⟩
    obtain ⟨t, ht, hl, hq⟩ := hend.run hc hf hne n
    exact ⟨t, ht, hl.inLoop hq⟩

end Sys2Proof.Machine
end

section
/-! PROOFS. The firmware version's two bytes, as the host reads them (44_register_mux.md R229). -/
namespace Sys2Proof.Machine

theorem readReg_fwVersion (s : State) : readReg 0x10#8 s = zext32 s.fwVersion := rfl

/-- Zero extension leaves a half word's bits in their places. -/
theorem extractLsb'_zext32 (v : Half) {start len : Nat} (h : start + len ≤ 32) :
    (zext32 v).extractLsb' start len = v.extractLsb' start len :=
  BitVec.extractLsb'_setWidth_of_le h

theorem fwVersion_eq_joinBytes (s : State) : joinBytes (fwMajor s) (fwMinor s) = s.fwVersion :=
  joinBytes_hi_lo s.fwVersion

/-- Settles O15: the register is its two bytes joined, and the zero extension the host reads keeps them in place. -/
theorem firmwareMajorAndMinor : Obligations.FirmwareMajorAndMinor := by
  unfold Obligations.FirmwareMajorAndMinor
  intro s
  refine ⟨?_, ?_, ?_⟩
  · rw [← joinBytes_toNat, fwVersion_eq_joinBytes]
  · rw [readReg_fwVersion, extractLsb'_zext32 _ (by decide), fwMajor, hiByte]
  · rw [readReg_fwVersion, extractLsb'_zext32 _ (by decide), fwMinor, loByte]

end Sys2Proof.Machine
end

section
/-! PROOFS. The reset input at any time (70_reset_and_hazards.md R280). -/
namespace Sys2Proof.Machine

/-- The step where the reset input is next, whatever the core is doing. -/
theorem step_reset {s : State} {l : List Input} (h : s.moves = .reset :: l) :
    step s = .next (s.setInputs l).coreReset := by
  simp only [step, systemStep, h, agentStep]

/-- Settles O13: the step is `coreReset` (`step_reset`), and each register after it is given by that register's
`coreReset_` law: the reset state's value for the core's own, the old value for the rest. -/
theorem resetInputEffect : Obligations.ResetInputEffect := by
  unfold Obligations.ResetInputEffect
  intro s l h
  refine ⟨_, step_reset h, ?_⟩
  simp [State.reset]

end Sys2Proof.Machine
end

section
/-! PROOFS. The encodings of 30_encoding.md: encoder and decoder are inverse to each other, and the masks of
opcode_table.json select exactly the words that decode to their row. -/
namespace Sys2Proof

/-- Settles O2: a command's word is made of three fields, of which the decoder tests those the encoder wrote; a frame
is the encoder's own bytes, read back by the decoder of its place. -/
theorem encodeThenDecode : Obligations.EncodeThenDecode := by
  unfold Obligations.EncodeThenDecode
  intro i
  cases i with
  | reqRir a crc => exact decodeRequest_requestFrame_input a crc
  | reqRhr a crc => exact decodeRequest_requestFrame_holding a crc
  | reqWhr a v crc => exact decodeRequest_requestFrame_write a v crc
  | rspRir s f v crc => exact decodeResponse_input s f v crc
  | rspRhr s f v crc => exact decodeResponse_holding s f v crc
  | rspWhr s f a v crc => exact decodeResponse_write s f a v crc
  | _ => exact (decodeCommand_commandWord _ _ _).trans rfl

/-! ## What decodes has the length of its place -/

theorem exists_frame8_of_decodeRequest {l : List Byte} {i : Instr} (h : decodeRequest l = .ok i) :
    ∃ f : Frame8, l = f.toList := by
  unfold decodeRequest at h
  split at h
  · exact ⟨⟨_, _, _, _, _, _, _, _⟩, rfl⟩
  · cases h

theorem exists_frame7_of_decodeResponse {fn : FnCode} {l : List Byte} {i : Instr} (hfn : fn ≠ .writeSingle)
    (h : decodeResponse fn l = .ok i) : ∃ r : Frame7, l = r.toList := by
  unfold decodeResponse at h
  split at h
  · exact ⟨⟨_, _, _, _, _, _, _⟩, rfl⟩
  · exact ⟨⟨_, _, _, _, _, _, _⟩, rfl⟩
  · exact absurd rfl hfn
  · cases h

theorem exists_frame8_of_decodeResponse {l : List Byte} {i : Instr} (h : decodeResponse .writeSingle l = .ok i) :
    ∃ r : Frame8, l = r.toList := by
  unfold decodeResponse at h
  split at h
  · rename_i hfn; cases hfn
  · rename_i hfn; cases hfn
  · exact ⟨⟨_, _, _, _, _, _, _, _⟩, rfl⟩
  · cases h

/-! ## What decodes is the encoder's -/

theorem place_encode_of_decodeRequest {l : List Byte} {i : Instr} (h : decodeRequest l = .ok i) :
    i.place = .request ∧ encode i = .frame l := by
  obtain ⟨f, rfl⟩ := exists_frame8_of_decodeRequest h
  obtain ⟨a, crc, rfl, rfl⟩ | ⟨a, crc, rfl, rfl⟩ | ⟨a, v, crc, rfl, rfl⟩ := decodeRequest_ok h <;> exact ⟨rfl, rfl⟩

theorem place_encode_of_decodeResponse {fn : FnCode} {l : List Byte} {i : Instr} (h : decodeResponse fn l = .ok i) :
    i.place = .response fn ∧ encode i = .frame l := by
  cases fn with
  | readInput =>
    obtain ⟨r, rfl⟩ := exists_frame7_of_decodeResponse (by decide) h
    obtain ⟨s, f, v, crc, rfl, rfl⟩ := decodeResponse_input_ok h
    exact ⟨rfl, rfl⟩
  | readHolding =>
    obtain ⟨r, rfl⟩ := exists_frame7_of_decodeResponse (by decide) h
    obtain ⟨s, f, v, crc, rfl, rfl⟩ := decodeResponse_holding_ok h
    exact ⟨rfl, rfl⟩
  | writeSingle =>
    obtain ⟨r, rfl⟩ := exists_frame8_of_decodeResponse h
    obtain ⟨s, f, a, v, crc, rfl, rfl⟩ := decodeResponse_write_ok h
    exact ⟨rfl, rfl⟩

theorem place_of_isCommand {i : Instr} (h : i.isCommand = true) : i.place = .command := eq_of_beq h

/-- Settles O3: place by place, what decodes is the encoder's. -/
theorem decodeThenEncode : Obligations.DecodeThenEncode := by
  unfold Obligations.DecodeThenEncode
  intro p c i h
  cases p with
  | command =>
    cases c with
    | word w =>
      obtain ⟨henc, hcmd⟩ := decodeCommand_ok h
      exact ⟨place_of_isCommand hcmd, henc⟩
    | frame l => cases h
  | request =>
    cases c with
    | word w => cases h
    | frame l => exact place_encode_of_decodeRequest h
  | response fn =>
    cases c with
    | word w => cases h
    | frame l => exact place_encode_of_decodeResponse h

/-- Settles O1: each written-out code is decoded by evaluation. -/
theorem writtenOutCodesDecode : Obligations.WrittenOutCodesDecode := by
  unfold Obligations.WrittenOutCodesDecode
  decide +kernel

/-! ## The command rows of opcode_table.json -/

section
variable {w : Word} {o a : Byte} {v : Half} {i : Instr}

theorem commandWord_eq_iff : commandWord o a v = w ↔ opcField w = o ∧ addrField w = a ∧ valField w = v := by
  constructor
  · rintro rfl; simp
  · rintro ⟨rfl, rfl, rfl⟩; exact commandWord_fields w

/-- A word decodes to a command iff it is the word the encoder writes for it. -/
theorem decodeCommand_eq_ok_iff (hi : i.place = .command) : decodeCommand w = .ok i ↔ encode i = .word w := by
  refine ⟨fun h => (decodeCommand_ok h).1, fun h => ?_⟩
  have := encodeThenDecode i
  rwa [hi, h] at this

/-- A word masked field by field. -/
theorem and_commandWord_eq_iff {mo ma : Byte} {mv : Half} : w &&& commandWord mo ma mv = commandWord o a v ↔
    opcField w &&& mo = o ∧ addrField w &&& ma = a ∧ valField w &&& mv = v := by
  conv_lhs => rw [← commandWord_fields w, commandWord_and, commandWord_inj]

/-- A field the row marks "must be 0" (30_encoding.md R103). -/
theorem reservedField {n : Nat} (x : BitVec n) : x &&& BitVec.allOnes n = 0 ↔ x = 0 := by
  rw [BitVec.and_allOnes]

/-- A field that is an operand, whatever its value. -/
theorem operandField {n : Nat} (x : BitVec n) : x &&& 0#n = 0 ↔ x = x := by
  simp

/-- A row of the table: its mask takes the opcode whole, and the other two fields each as reserved or as operand. -/
theorem row_selects {mask m : Word} {ma : Byte} {mv : Half} (ha : addrField w &&& ma = 0 ↔ addrField w = a)
    (hv : valField w &&& mv = 0 ↔ valField w = v) (hmask : mask = commandWord (BitVec.allOnes 8) ma mv)
    (hm : m = commandWord o 0 0) (h : encode i = .word (commandWord o a v)) (hi : i.place = .command) :
    w &&& mask = m ↔ decodeCommand w = .ok i := by
  rw [decodeCommand_eq_ok_iff hi, h, hmask, hm, Code.word.injEq, commandWord_eq_iff, and_commandWord_eq_iff,
    BitVec.and_allOnes, ha, hv]

/-- The commands a word can decode to, its own fields being the operands. -/
theorem decodeCommand_ok_cases (h : decodeCommand w = .ok i) :
    i = .clrx ∨ i = .rhr (addrField w) ∨ i = .rir (addrField w) ∨ i = .whr (addrField w) (valField w) ∨ i = .init ∨
      i = .getco2 ∨ i = .getid ∨ i = .getfw ∨ i = .getabc ∨ i = .setabc (valField w) ∨ i = .bgcal := by
  obtain ⟨henc, hcmd⟩ := decodeCommand_ok h
  have fields : ∀ {o a v}, Code.word (commandWord o a v) = .word w → a = addrField w ∧ v = valField w := by
    intro o a v e
    cases e
    simp
  cases i with
  | rhr a => obtain ⟨rfl, -⟩ := fields henc; simp
  | rir a => obtain ⟨rfl, -⟩ := fields henc; simp
  | whr a v => obtain ⟨rfl, rfl⟩ := fields henc; simp
  | setabc v => obtain ⟨-, rfl⟩ := fields henc; simp
  | reqRir _ _ | reqRhr _ _ | reqWhr _ _ _ | rspRir _ _ _ _ | rspRhr _ _ _ _ | rspWhr _ _ _ _ _ => cases hcmd
  | _ => simp

end

/-- Settles O4: mask and match act field by field, and a word decodes to a command iff its fields are those the
encoder writes; so each row's test is one on fields, and the last clause follows from the eleven rows. -/
theorem tableRowsSelectCommands : Obligations.TableRowsSelectCommands := by
  unfold Obligations.TableRowsSelectCommands
  intro w
  have clrx : w &&& 0xFFFFFFFF#32 = 0x01000000#32 ↔ decodeCommand w = .ok .clrx :=
    row_selects (reservedField _) (reservedField _) rfl rfl rfl rfl
  have rhr : w &&& 0xFF00FFFF#32 = 0x03000000#32 ↔ decodeCommand w = .ok (.rhr (addrField w)) :=
    row_selects (operandField _) (reservedField _) rfl rfl rfl rfl
  have rir : w &&& 0xFF00FFFF#32 = 0x04000000#32 ↔ decodeCommand w = .ok (.rir (addrField w)) :=
    row_selects (operandField _) (reservedField _) rfl rfl rfl rfl
  have whr : w &&& 0xFF000000#32 = 0x06000000#32 ↔ decodeCommand w = .ok (.whr (addrField w) (valField w)) :=
    row_selects (operandField _) (operandField _) rfl rfl rfl rfl
  have init : w &&& 0xFFFFFFFF#32 = 0x10000000#32 ↔ decodeCommand w = .ok .init :=
    row_selects (reservedField _) (reservedField _) rfl rfl rfl rfl
  have getco2 : w &&& 0xFFFFFFFF#32 = 0x11000000#32 ↔ decodeCommand w = .ok .getco2 :=
    row_selects (reservedField _) (reservedField _) rfl rfl rfl rfl
  have getid : w &&& 0xFFFFFFFF#32 = 0x12000000#32 ↔ decodeCommand w = .ok .getid :=
    row_selects (reservedField _) (reservedField _) rfl rfl rfl rfl
  have getfw : w &&& 0xFFFFFFFF#32 = 0x13000000#32 ↔ decodeCommand w = .ok .getfw :=
    row_selects (reservedField _) (reservedField _) rfl rfl rfl rfl
  have getabc : w &&& 0xFFFFFFFF#32 = 0x14000000#32 ↔ decodeCommand w = .ok .getabc :=
    row_selects (reservedField _) (reservedField _) rfl rfl rfl rfl
  have setabc : w &&& 0xFFFF0000#32 = 0x15000000#32 ↔ decodeCommand w = .ok (.setabc (valField w)) :=
    row_selects (reservedField _) (operandField _) rfl rfl rfl rfl
  have bgcal : w &&& 0xFFFFFFFF#32 = 0x16000000#32 ↔ decodeCommand w = .ok .bgcal :=
    row_selects (reservedField _) (reservedField _) rfl rfl rfl rfl
  refine ⟨clrx, rhr, rir, whr, init, getco2, getid, getfw, getabc, setabc, bgcal, ?_⟩
  simp only [List.forall_mem_cons, List.not_mem_nil, ne_eq, clrx, rhr, rir, whr, init, getco2, getid, getfw, getabc,
    setabc, bgcal]
  cases hd : decodeCommand w with
  | error e => simp
  | ok i => rcases decodeCommand_ok_cases hd with rfl | rfl | rfl | rfl | rfl | rfl | rfl | rfl | rfl | rfl | rfl <;> simp

end Sys2Proof
end

section
/-! PROOFS. The CRC's tabulated values, the write check as a function of bytes, and the check micro-steps
(40_crc.md; 41_frame_codec.md R152, R153; 43_register_access.md R201 to R203). -/
namespace Sys2Proof.Machine

/-- Settles O5: twelve values, evaluated. -/
theorem crcVectors : Obligations.CrcVectors := by
  unfold Obligations.CrcVectors
  decide +kernel

/-! ## The write check -/

section
variable {e : Bool} {r t : Frame8}

theorem checkWrite_of_mismatch (h : echoMismatch e r t = true) : checkWrite e r t = ⟨false, .valueMismatch, 0⟩ :=
  if_pos h

theorem checkWrite_of_crc_ne (h : echoMismatch e r t = false) (hcrc : crc16 r.toList 6 ≠ joinBytes r.b7 r.b6) :
    checkWrite e r t = ⟨false, .crcMismatch, 0⟩ := by
  rw [checkWrite, if_neg (Bool.eq_false_iff.1 h), if_pos hcrc]

theorem checkWrite_of_valid (h : echoMismatch e r t = false) (hcrc : crc16 r.toList 6 = joinBytes r.b7 r.b6) :
    checkWrite e r t = ⟨true, .none, 0⟩ := by
  rw [checkWrite, if_neg (Bool.eq_false_iff.1 h), if_neg (not_not_intro hcrc)]

end

/-- Settles O10: one clause for each of the check's three answers; the echo tests are `echoMismatch_iff`, and the
comparison of CRCs is read as one of numbers. -/
theorem writeCheckOutcome : Obligations.WriteCheckOutcome := by
  unfold Obligations.WriteCheckOutcome
  intro e r t registerDiffers valueDiffers
  have matches_of : ¬registerDiffers → ¬valueDiffers → echoMismatch e r t = false := fun hr hv =>
    Bool.eq_false_iff.2 fun h => (echoMismatch_iff.1 h).elim hr hv
  refine ⟨fun h => ?_, fun hr hv hcrc => ?_, fun hr hv hcrc => ?_⟩
  · rw [checkWrite_of_mismatch (echoMismatch_iff.2 h)]; exact ⟨rfl, rfl⟩
  · rw [checkWrite_of_crc_ne (matches_of hr hv) (mt eq_joinBytes_iff.1 hcrc)]; exact ⟨rfl, rfl⟩
  · rw [checkWrite_of_valid (matches_of hr hv) (eq_joinBytes_iff.2 hcrc)]; exact ⟨rfl, rfl⟩

/-- Two values with the same two bytes are one value. -/
theorem eq_of_bytes {v w : Half} (hhi : hiByte v = hiByte w) (hlo : loByte v = loByte w) : v = w := by
  rw [← joinBytes_hi_lo v, hhi, hlo, joinBytes_hi_lo]

/-- The echo tests on a write response to the request of register `ta` and value `tv`. -/
theorem echoMismatch_request {e : Bool} {slave fn sl a ta : Byte} {v tv crc : Half} :
    echoMismatch e (writeResponseFrame slave fn a v crc) (builtFrame sl .writeSingle ta tv) = true ↔
      (e = true ∧ a ≠ ta) ∨ v ≠ tv := by
  have hv : hiByte v ≠ hiByte tv ∨ loByte v ≠ loByte tv ↔ v ≠ tv := by
    constructor
    · rintro h rfl; simp at h
    · intro h
      by_contra hb
      simp only [not_or, not_not] at hb
      exact h (eq_of_bytes hb.1 hb.2)
  rw [echoMismatch_iff, ← hv]
  simp [writeResponseFrame, builtFrame, requestFrame]

/-- Settles O11: the echo tests pass iff the values are equal (`echoMismatch_request`), and a built frame's CRC is
right (`builtFrame_crc`). -/
theorem onlyTheRightEchoPasses : Obligations.OnlyTheRightEchoPasses := by
  unfold Obligations.OnlyTheRightEchoPasses
  intro e slave a v w
  have hm : echoMismatch e (builtFrame slave .writeSingle a w) (builtFrame slave .writeSingle a v) = true ↔
      (e = true ∧ a ≠ a) ∨ w ≠ v := echoMismatch_request (slave := slave) (fn := FnCode.writeSingle.code)
  by_cases h : w = v
  · have hf := Bool.eq_false_iff.2 (mt hm.1 (by simp [h]))
    exact iff_of_true (by rw [checkWrite_of_valid hf (builtFrame_crc _ _ _ _)]) h
  · exact iff_of_false (by rw [checkWrite_of_mismatch (hm.2 (.inr h))]; exact Bool.false_ne_true) h

/-! ## The check micro-steps -/

/-- The CRC's register and the operation's tuple are written, and the position goes on. -/
theorem goto_bindRet_setAcc (s : State) (a : Half) (k : Slot) (r : Ret) (p : Pos) :
    ((s.setAcc a).bindRet k r).goto p = ({ s with acc := a, pos := p } : State).bindRet k r := by
  cases k <;> rfl

/-- Settles O27: at the check position the command's arm is `checkStep` (`exec_op`), which is the read check for the two
read functions and the write check for the third. -/
theorem checkSteps : Obligations.CheckSteps := by
  unfold Obligations.CheckSteps
  intro i k o s ho hp
  rw [exec_op ho hp]
  simp only [opStep, checkStep]
  cases o.fn with
  | readInput => exact ⟨_, (receiveRead_at hp).trans (congrArg _ (goto_bindRet_setAcc _ _ _ _ _))⟩
  | readHolding => exact ⟨_, (receiveRead_at hp).trans (congrArg _ (goto_bindRet_setAcc _ _ _ _ _))⟩
  | writeSingle => exact ⟨_, (receiveWrite_at hp).trans (congrArg _ (goto_bindRet_setAcc _ _ _ _ _))⟩

/-- A read response's CRC is that of its first five bytes. -/
theorem crc16_readResponseFrame (slave fn : Byte) (v crc : Half) :
    crc16 (readResponseFrame slave fn v crc).toList 5 = crc16 [slave, fn, 0x02#8, hiByte v, loByte v] 5 := rfl

/-- A write response's CRC is that of its first six bytes. -/
theorem crc16_writeResponseFrame (slave fn a : Byte) (v crc : Half) :
    crc16 (writeResponseFrame slave fn a v crc).toList 6 =
      crc16 [slave, fn, 0x00#8, a, hiByte v, loByte v] 6 := rfl

/-- Settles O36: both rows are the read check of their own frame, whose byte count is right, so its answer turns on the
CRC alone. -/
theorem readResponsesAreChecked : Obligations.ReadResponsesAreChecked := by
  unfold Obligations.ReadResponsesAreChecked
  intro s k slave fn v crc hp
  have hstep : receiveRead (readResponseFrame slave fn v crc) s = .next (({ s with
      acc := crc16 [slave, fn, 0x02#8, hiByte v, loByte v] 5, pos := .after k } : State).bindRet k
        (checkRead (readResponseFrame slave fn v crc))) :=
    (receiveRead_at hp).trans (congrArg _ (goto_bindRet_setAcc _ _ _ _ _))
  have hcrc : joinBytes (readResponseFrame slave fn v crc).b6 (readResponseFrame slave fn v crc).b5 = crc :=
    joinBytes_hi_lo crc
  refine ⟨_, fun h => ?_, fun h => ?_, hstep, hstep⟩
  · rw [checkRead_of_valid rfl (by rw [crc16_readResponseFrame, hcrc, h])]
    exact congrArg (Ret.mk true .none) (joinBytes_hi_lo v)
  · exact checkRead_of_crc_ne rfl (by rw [crc16_readResponseFrame, hcrc]; exact h.symm)

/-- Settles O37: the row is the write check of its own frame against the request in `TXBUF`, whose echo tests are
`echoMismatch_request`. -/
theorem writeResponsesAreChecked : Obligations.WriteResponsesAreChecked := by
  unfold Obligations.WriteResponsesAreChecked
  intro s k slave fn a ta v tv crc hp htx
  have hm := echoMismatch_request (e := s.cfg.echoCheckRegister) (slave := slave) (fn := fn) (sl := s.cfg.slaveAddr)
    (a := a) (ta := ta) (v := v) (tv := tv) (crc := crc)
  have matches_of : ¬(s.cfg.echoCheckRegister = true ∧ a ≠ ta) → v = tv → _ = false := fun ha hv =>
    Bool.eq_false_iff.2 fun h => (hm.1 h).elim ha (not_not_intro hv)
  have hcrc : joinBytes (writeResponseFrame slave fn a v crc).b7 (writeResponseFrame slave fn a v crc).b6 = crc :=
    joinBytes_hi_lo crc
  refine ⟨_, _, (receiveWrite_at hp).trans (congrArg _ (goto_bindRet_setAcc _ _ _ _ _)), fun h => ?_,
    fun ha hv h => ?_, fun ha hv h => ?_⟩ <;> rw [htx]
  · rw [checkWrite_of_mismatch (hm.2 h)]; exact ⟨rfl, rfl⟩
  · rw [checkWrite_of_crc_ne (matches_of ha hv) (by rw [crc16_writeResponseFrame, hcrc]; exact h.symm)]
    exact ⟨rfl, rfl⟩
  · rw [checkWrite_of_valid (matches_of ha hv) (by rw [crc16_writeResponseFrame, hcrc, h])]; exact ⟨rfl, rfl⟩

end Sys2Proof.Machine
end

section
/-! PROOFS. The invariant holds at reset and every step keeps it, and from a state of the invariant no step faults
(60_exceptions.md R266); the frame arms and the command arms are one machine; every command goes on at every position of
its rule. -/
namespace Sys2Proof.Machine

/-- Settles O46: the reset state is that of the reset input, but for the agents' part: idle, nothing sent, `RXQ`
empty. -/
theorem invAtReset : Obligations.InvAtReset := by
  unfold Obligations.InvAtReset
  exact {
    flags := by constructor <;> decide
    exec := fun h => nomatch h
    rxcnt_le := by decide
    ret_ok := fun k => by cases k <;> exact fun h => nomatch h
    fifo_fits := fun _ _ => Nat.zero_le _
    sent := fun _ h => nomatch h }

/-- Settles O47: `StateInv.step`, an agent's move at a time; the core's is the latched command's (`commandStep_keeps`). -/
theorem stepKeepsInv : Obligations.StepKeepsInv := by
  unfold Obligations.StepKeepsInv
  exact fun s t hI h => hI.step h

/-! ## No fault -/

section
variable {s : State}

/-- From a state of the invariant the core's micro-step goes on. -/
theorem coreStep_goes (hI : StateInv s) : ∃ t, coreStep s = .next t := by
  cases hs : s.seq with
  | idle => exact ⟨s, by simp only [coreStep, hs]⟩
  | exec =>
    obtain ⟨t, ht, -⟩ := commandStep_keeps hI hs
    exact ⟨t, (coreStep_eq_commandStep hs (hI.exec hs)).trans ht⟩

theorem hostStep_not_fault (a : HostAccess) (r : Fault) : hostStep a s ≠ .fault r := by
  cases a with
  | read off width =>
    simp only [hostStep, hostRead]
    split <;> simp
  | write off width v =>
    simp only [hostStep, hostWrite]
    split
    · simp
    · split
      · split <;> simp
      · simp

/-- From a state of the invariant no agent's move faults. -/
theorem agentStep_not_fault (hI : StateInv s) (e : Input) (r : Fault) : agentStep e s ≠ .fault r := by
  cases e with
  | core =>
    obtain ⟨t, ht⟩ := coreStep_goes hI
    simp [agentStep, ht]
  | host a => exact hostStep_not_fault a r
  | _ => simp [agentStep]

theorem step_not_fault (hI : StateInv s) (r : Fault) : step s ≠ .fault r := by
  cases hm : s.moves with
  | nil =>
    obtain ⟨t, ht⟩ := coreStep_goes hI
    simp [step_idle_inputs hm, ht]
  | cons e l =>
    simp only [step, systemStep, hm]
    exact agentStep_not_fault (hI.setInputs l) e r

end

/-- Settles O48: no step faults (`step_not_fault`), and one that is refused is a host access that breaks a duty
(`refusedExactlyOnHostViolations`). -/
theorem noCoreFault : Obligations.NoCoreFault := by
  unfold Obligations.NoCoreFault
  intro s hI
  cases h : step s with
  | next t => exact .inl ⟨t, rfl⟩
  | fault r => exact absurd h (step_not_fault hI r)
  | refused r =>
    obtain ⟨a, l, hm, hv⟩ := (refusedExactlyOnHostViolations s).1 ⟨r, h⟩
    exact .inr ⟨r, a, l, rfl, hm, hv⟩

/-- Settles O21: both arms are the core's micro-step, one as it is fetched and one by `coreStep_eq_commandStep`. -/
theorem frameArmAgreesWithCommandArm : Obligations.FrameArmAgreesWithCommandArm := by
  unfold Obligations.FrameArmAgreesWithCommandArm
  intro s i j hI hs hi hj
  calc exec j s = coreStep s := by rw [coreStep_exec hs, hj, runFetched]
    _ = commandStep s := coreStep_eq_commandStep hs (hI.exec hs)
    _ = exec i s := by rw [commandStep, hi, runFetched]

/-! ## Every command goes on -/

section
variable {i : Instr} {s : State}

/-- At its first position a command builds a request, tests for the restart, chooses its way, or completes. -/
theorem exec_start_goes (hi : i.place = .command) (hp : s.pos = .start) : ∃ t, exec i s = .next t := by
  cases i with
  | reqRir _ _ | reqRhr _ _ | reqWhr _ _ _ | rspRir _ _ _ _ | rspRhr _ _ _ _ | rspWhr _ _ _ _ _ => cases hi
  | _ =>
    simp only [exec, execClrx, execRir, execRhr, execWhr, execInit, execGetco2, execGetid, execGetfw, execGetabc,
      execSetabc, execBgcal, hp]
    exact ⟨_, rfl⟩

/-- After `CLEAR()` a command completes (`CLRX`) or builds its first request. -/
theorem exec_cleared_goes (hi : commandClears i = true) (hp : s.pos = .cleared) : ∃ t, exec i s = .next t := by
  cases i <;> cases hi <;>
    simp only [exec, execClrx, execInit, execGetco2, execSetabc, execBgcal, hp] <;> exact ⟨_, rfl⟩

/-- After a register operation a command completes, or goes on to the next thing it does. -/
theorem exec_after_goes {k : Slot} (hk : (commandCall s.cfg i k).isSome = true) (hp : s.pos = .after k) :
    ∃ t, exec i s = .next t := by
  cases i <;> cases k <;> cases hk <;>
    simp only [exec, execRir, execRhr, execWhr, execInit, execGetco2, execSetabc, execBgcal, hp]
  case bgcal.r1.refl => split <;> exact ⟨_, rfl⟩
  case bgcal.r2.refl => split <;> exact ⟨_, rfl⟩
  all_goals exact ⟨_, rfl⟩

end

/-- Settles O38: position by position; inside `CLEAR()` and the register operations by `clearStep_goes` and
`opStep_goes`, which ask for a byte where one is taken. -/
theorem commandsGoOnAtEveryPosition : Obligations.CommandsGoOnAtEveryPosition := by
  unfold Obligations.CommandsGoOnAtEveryPosition
  intro i s hi hpos hread
  obtain hp | ⟨p, hp, hc⟩ | ⟨hp, hc⟩ | ⟨k, p, hp, hk⟩ | ⟨k, hp, hk⟩ | ⟨hp, rfl⟩ | ⟨hp, hw⟩ | ⟨hp, hf⟩ := hpos
  · exact exec_start_goes hi hp
  · rw [exec_clear hc hp]
    exact clearStep_goes fun hd => hread (by rw [hp, hd]; rfl)
  · exact exec_cleared_goes hc hp
  · obtain ⟨o, ho⟩ := Option.isSome_iff_exists.1 hk
    rw [exec_op ho hp]
    exact opStep_goes hp fun ht => hread (by rw [hp, ht]; rfl)
  · exact exec_after_goes hk hp
  · exact ⟨_, exec_bgcal_waitBegin hp⟩
  · cases i with
    | setabc h => exact ⟨_, exec_setabc_waitEnd hp⟩
    | bgcal => exact ⟨_, exec_bgcal_waitEnd hp⟩
    | _ => cases hw
  · cases i with
    | init => exact ⟨s.complete (initOk s) (initErr s) 0x00000000#32, by simp only [exec, execInit, hp]⟩
    | setabc h => exact ⟨_, exec_setabc_finish hp⟩
    | _ => cases hf

end Sys2Proof.Machine
end

section
/-! PROOFS. What no instruction and no step changes (10_state.md R31 to R49; 20_memory.md R80, R84; 42_byte_collector.md
R170, R173): the inversion of an instruction's micro-step, and the statements that follow from it and from the frame of
every instruction. -/
namespace Sys2Proof.Machine

/-! ## Everything an instruction's micro-step can do -/

/-- The micro-steps of the instruction `i` in `s`, each with what is true of the place where it is made. -/
inductive MicroStep (i : Instr) (s : State) : State → Prop where
  | operation {k : Slot} {o : OpCall} {p : OpPos} {t : State} (ho : commandCall s.cfg i k = some o)
      (hp : s.pos = .op k p ∨ p = .build) (h : opStep o p s = .next t) : MicroStep i s t
  | clear {p : ClearPos} {t : State} (h : clearStep p s = .next t) : MicroStep i s t
  | waitEnds {b : Word} {n : Nat} {k : Slot} {t : State} (h : endWait b n (.op k .build) s = .next t) : MicroStep i s t
  | waitBegins : MicroStep i s (s.beginWait.goto .waitEnd)
  | goes (p : Pos) (hp : ∀ k, p ≠ .op k .tx) : MicroStep i s (s.goto p)
  | completes (ok : Bool) (err : ErrKind) (r : Word) : MicroStep i s (s.complete ok err r)
  | deviceId (v : Word) (hi : i = .init) (hp : s.pos = .after .r2) :
      MicroStep i s ((s.setDeviceId v).goto (.op .r3 .build))
  | fwVersion (v : Half) (hi : i = .init) (hp : s.pos = .after .r3) :
      MicroStep i s ((s.setFwVersion v).goto (.op .r4 .build))
  | abcPeriod (v : Half) (h : (i = .init ∧ s.pos = .after .r4) ∨ ((∃ h, i = .setabc h) ∧ s.pos = .after .r2)) :
      MicroStep i s ((s.setAbcPeriod v).goto .finish)
  | transmits {f : Frame8} {t : State} (h : transmit f s = .next t) : MicroStep i s t
  | checksRead {r : Frame7} {t : State} (h : receiveRead r s = .next t) : MicroStep i s t
  | checksWrite {r : Frame8} {t : State} (h : receiveWrite r s = .next t) : MicroStep i s t

section
variable {i : Instr} {s t : State}

theorem execClrx_microStep (h : execClrx s = .next t) : MicroStep .clrx s t := by
  unfold execClrx at h
  split at h
  · exact .clear h
  · exact .clear h
  · cases h; exact .completes _ _ _
  · cases h

theorem execRir_microStep {a : Byte} (h : execRir a s = .next t) : MicroStep (.rir a) s t := by
  unfold execRir at h
  split at h
  · exact .operation (k := .r1) rfl (.inr rfl) h
  next hp => exact .operation rfl (.inl hp) h
  · cases h; exact .completes _ _ _
  · cases h

theorem execRhr_microStep {a : Byte} (h : execRhr a s = .next t) : MicroStep (.rhr a) s t := by
  unfold execRhr at h
  split at h
  · exact .operation (k := .r1) rfl (.inr rfl) h
  next hp => exact .operation rfl (.inl hp) h
  · cases h; exact .completes _ _ _
  · cases h

theorem execWhr_microStep {a : Byte} {v : Half} (h : execWhr a v s = .next t) : MicroStep (.whr a v) s t := by
  unfold execWhr at h
  split at h
  · exact .operation (k := .r1) rfl (.inr rfl) h
  next hp => exact .operation rfl (.inl hp) h
  · cases h; exact .completes _ _ _
  · cases h

theorem execInit_microStep (h : execInit s = .next t) : MicroStep .init s t := by
  unfold execInit at h
  split at h
  · cases h; exact .goes _ (by intro k; split <;> simp)
  · exact .clear h
  · exact .operation (k := .r1) rfl (.inr rfl) h
  next hp => exact .operation rfl (.inl hp) h
  · exact .operation (k := .r2) rfl (.inr rfl) h
  next hp => cases h; exact .deviceId _ rfl hp
  next hp => cases h; exact .fwVersion _ rfl hp
  next hp => cases h; exact .abcPeriod _ (.inl ⟨rfl, hp⟩)
  · cases h; exact .completes _ _ _
  · cases h

theorem execGetco2_microStep (h : execGetco2 s = .next t) : MicroStep .getco2 s t := by
  unfold execGetco2 at h
  split at h
  · exact .clear h
  · exact .clear h
  · exact .operation (k := .r1) rfl (.inr rfl) h
  next hp => exact .operation rfl (.inl hp) h
  · cases h; exact .completes _ _ _
  · cases h

theorem execGetid_microStep (h : execGetid s = .next t) : MicroStep .getid s t := by
  unfold execGetid at h
  split at h <;> cases h
  exact .completes _ _ _

theorem execGetfw_microStep (h : execGetfw s = .next t) : MicroStep .getfw s t := by
  unfold execGetfw at h
  split at h <;> cases h
  exact .completes _ _ _

theorem execGetabc_microStep (h : execGetabc s = .next t) : MicroStep .getabc s t := by
  unfold execGetabc at h
  split at h <;> cases h
  exact .completes _ _ _

theorem execSetabc_microStep {v : Half} (h : execSetabc v s = .next t) : MicroStep (.setabc v) s t := by
  unfold execSetabc at h
  split at h
  · cases h; exact .goes _ (by intro k; split <;> simp)
  · exact .clear h
  · exact .operation (k := .r1) rfl (.inr rfl) h
  next hp => exact .operation rfl (.inl hp) h
  · cases h; exact .waitBegins
  · exact .waitEnds h
  next hp => exact .operation rfl (.inl hp) h
  next hp => cases h; exact .abcPeriod _ (.inr ⟨⟨v, rfl⟩, hp⟩)
  · cases h; exact .completes _ _ _
  · cases h

theorem execBgcal_microStep (h : execBgcal s = .next t) : MicroStep .bgcal s t := by
  unfold execBgcal at h
  split at h
  · exact .clear h
  · exact .clear h
  · exact .operation (k := .r1) rfl (.inr rfl) h
  next hp => exact .operation rfl (.inl hp) h
  · split at h <;> cases h
    exacts [.completes _ _ _, .goes _ (by simp)]
  next hp => exact .operation rfl (.inl hp) h
  · split at h <;> cases h
    exacts [.completes _ _ _, .goes _ (by simp)]
  · cases h; exact .waitBegins
  · exact .waitEnds h
  next hp => exact .operation rfl (.inl hp) h
  · cases h; exact .completes _ _ _
  · cases h

/-- An instruction's micro-step is one of those listed. -/
theorem exec_microStep (h : exec i s = .next t) : MicroStep i s t := by
  cases i with
  | clrx => exact execClrx_microStep h
  | rhr a => exact execRhr_microStep h
  | rir a => exact execRir_microStep h
  | whr a v => exact execWhr_microStep h
  | init => exact execInit_microStep h
  | getco2 => exact execGetco2_microStep h
  | getid => exact execGetid_microStep h
  | getfw => exact execGetfw_microStep h
  | getabc => exact execGetabc_microStep h
  | setabc v => exact execSetabc_microStep h
  | bgcal => exact execBgcal_microStep h
  | reqRir a crc | reqRhr a crc | reqWhr a v crc => exact .transmits h
  | rspRir b f v crc | rspRhr b f v crc => exact .checksRead h
  | rspWhr b f a v crc => exact .checksWrite h

/-! ## The snapshot -/

/-- What a micro-step does to the snapshot: each register is written by its own writers only, right after its read
(44_register_mux.md R222, R227). -/
structure SnapshotFrame (i : Instr) (s t : State) : Prop where
  deviceId : t.deviceId = s.deviceId ∨ (i = .init ∧ s.pos = .after .r2)
  fwVersion : t.fwVersion = s.fwVersion ∨ (i = .init ∧ s.pos = .after .r3)
  abcPeriod : t.abcPeriod = s.abcPeriod ∨ (i = .init ∧ s.pos = .after .r4) ∨
    ((∃ h, i = .setabc h) ∧ s.pos = .after .r2)

theorem SnapshotKept.frame (h : SnapshotKept s t) : SnapshotFrame i s t :=
  ⟨.inl h.deviceId, .inl h.fwVersion, .inl h.abcPeriod⟩

theorem clearStep_snapshot {p : ClearPos} (h : clearStep p s = .next t) : SnapshotKept s t := by
  obtain ⟨-, rfl⟩ | ⟨-, rfl⟩ | ⟨-, rfl⟩ | ⟨-, rfl | rfl⟩ | ⟨-, rfl⟩ | ⟨-, b, q, -, rfl⟩ := clearStep_next h <;>
    exact ⟨rfl, rfl, rfl⟩

theorem MicroStep.snapshot (h : MicroStep i s t) : SnapshotFrame i s t := by
  cases h with
  | operation ho hp h =>
    obtain rfl := commandCall_slot ho
    exact (opStep_frame ho hp h).2.frame
  | clear h => exact (clearStep_snapshot h).frame
  | waitEnds h => exact (endWait_frame (i := i) h).2.frame
  | deviceId v hi hp => exact ⟨.inr ⟨hi, hp⟩, .inl rfl, .inl rfl⟩
  | fwVersion v hi hp => exact ⟨.inl rfl, .inr ⟨hi, hp⟩, .inl rfl⟩
  | abcPeriod v hw => exact ⟨.inl rfl, .inl rfl, .inr hw⟩
  | transmits h =>
    obtain ⟨k, -, rfl⟩ := transmit_next h
    exact ⟨.inl rfl, .inl rfl, .inl rfl⟩
  | checksRead h => exact (receiveRead_frame (i := i) h).2.frame
  | checksWrite h => exact (receiveWrite_frame (i := i) h).2.frame
  | _ => exact ⟨.inl rfl, .inl rfl, .inl rfl⟩

/-! ## The transmit position -/

/-- A register operation comes to its transmit position only from its settle wait, over by then. -/
theorem opStep_comesToTx {o : OpCall} {p : OpPos} {k : Slot} (h : opStep o p s = .next t) (ht : t.pos = .op k .tx)
    (hs : s.pos ≠ .op k .tx) : p = .settleEnd ∧ o.slot = k ∧ s.cfg.tSettle ≤ (s.now - s.t0).toNat := by
  cases p <;> simp only [opStep] at h
  case settleEnd =>
    obtain ⟨hw, rfl⟩ | ⟨-, rfl⟩ := endWait_next h
    · cases ht
      exact ⟨rfl, rfl, by simpa [State.waitOver] using hw⟩
    · exact absurd ht hs
  case pollEnd =>
    obtain ⟨-, rfl⟩ | ⟨-, rfl⟩ := endWait_next h
    · cases ht
    · exact absurd ht hs
  case tx =>
    obtain ⟨j, -, rfl⟩ := transmit_next h
    cases ht
  case check =>
    unfold checkStep at h
    split at h
    · obtain ⟨j, -, rfl⟩ := receiveRead_next h; cases ht
    · obtain ⟨j, -, rfl⟩ := receiveRead_next h; cases ht
    · obtain ⟨j, -, rfl⟩ := receiveWrite_next h; cases ht
  case take =>
    split at h <;> cases h
    cases ht
  case avail =>
    cases h
    simp only [State.goto_pos] at ht
    split at ht <;> cases ht
  case full =>
    cases h
    split at ht
    · cases ht
    · simp only [State.goto_pos, afterFull] at ht
      split at ht
      · cases ht
      · split at ht <;> cases ht
  case deadline =>
    cases h
    split at ht <;> cases ht
  all_goals cases h; cases ht

theorem clearStep_not_tx {p : ClearPos} {k : Slot} (h : clearStep p s = .next t) (hs : s.pos ≠ .op k .tx) :
    t.pos ≠ .op k .tx := by
  obtain ⟨-, rfl⟩ | ⟨-, rfl⟩ | ⟨-, rfl⟩ | ⟨-, rfl | rfl⟩ | ⟨-, rfl⟩ | ⟨-, b, q, -, rfl⟩ := clearStep_next h
  case inr.inr.inr.inl.inr => exact hs
  all_goals simp only [State.goto_pos]
  case inl => split <;> simp
  case inr.inr.inr.inr.inl => split <;> simp
  all_goals simp

/-- An instruction comes to a transmit position only from the settle wait of the same operation, over by then. -/
theorem MicroStep.comesToTx {k : Slot} (h : MicroStep i s t) (ht : t.pos = .op k .tx) (hs : s.pos ≠ .op k .tx) :
    s.pos = .op k .settleEnd ∧ s.cfg.tSettle ≤ (s.now - s.t0).toNat := by
  cases h with
  | operation ho hp h =>
    obtain ⟨rfl, rfl, hw⟩ := opStep_comesToTx h ht hs
    obtain hp | hp := hp
    · exact ⟨by rw [hp, commandCall_slot ho], hw⟩
    · cases hp
  | clear h => exact absurd ht (clearStep_not_tx h hs)
  | waitEnds h =>
    obtain ⟨-, rfl⟩ | ⟨-, rfl⟩ := endWait_next h
    · cases ht
    · exact absurd ht hs
  | goes p hp => exact absurd ht (hp k)
  | completes ok err r => exact absurd ht hs
  | transmits h => obtain ⟨j, -, rfl⟩ := transmit_next h; cases ht
  | checksRead h => obtain ⟨j, -, rfl⟩ := receiveRead_next h; cases ht
  | checksWrite h => obtain ⟨j, -, rfl⟩ := receiveWrite_next h; cases ht
  | _ => cases ht

end

/-! ## What no instruction changes -/

/-- Settles O39: the frame of every instruction (`exec_frame`), and of the snapshot (`MicroStep.snapshot`); where a
collection ends at its completion test it is an echo that came too late. -/
theorem instructionFrame : Obligations.InstructionFrame := by
  unfold Obligations.InstructionFrame
  intro i s t h
  have f := exec_frame h
  have g := (exec_microStep h).snapshot
  have late : s.echoLate = true → EchoTooLate s := fun e => (echoLate_iff_tooLate.1 e).2
  refine ⟨f.cfg, f.cmdl, f.now, f.hostData, f.inputs, f.repeating, f.lastop, f.done, g.deviceId, g.fwVersion,
    g.abcPeriod, f.txbuf, f.txlog, f.rxbuf.imp_right ?_, f.rxq, f.acc, f.explen, f.t0, f.tw, f.took, f.firstAvail,
    fun j => (f.ret j).imp_right (.imp_right (.imp_right (.imp_right late)))⟩
  exact fun ⟨k, hk⟩ => ⟨k, hk.imp_right (.imp_right (.imp_right (.imp_right late)))⟩

/-! ## What no step changes -/

section
variable {s t : State}

/-- A command that is fetched is the latched one: what the frame positions read is a frame. -/
theorem fetchCommand_of_fetch {i : Instr} (h : fetch s = some i) (hi : i.place = .command) :
    fetchCommand s = some i := by
  have request : fetchRequest s ≠ some i := by
    intro e
    unfold fetchRequest at e
    split at e
    · rename_i j hj
      cases e
      have := (decodeThenEncode _ _ _ hj).1
      rw [hi] at this
      cases this
    · cases e
  have response : fetchResponse s ≠ some i := by
    intro e
    unfold fetchResponse at e
    split at e
    · cases e
    · split at e
      · rename_i j hj
        cases e
        have := (decodeThenEncode _ _ _ hj).1
        rw [hi] at this
        cases this
      · cases e
  unfold fetch at h
  split at h
  · cases hr : fetchRequest s with
    | none => simpa [hr] using h
    | some j => exact absurd (by simpa [hr] using h) request
  · cases hr : fetchResponse s with
    | none => simpa [hr] using h
    | some j => exact absurd (by simpa [hr] using h) response
  · exact h

/-- The snapshot's writers among the micro-steps of the core. -/
theorem coreStep_snapshot (h : coreStep s = .next t) :
    (t.deviceId = s.deviceId ∧ t.fwVersion = s.fwVersion ∧ t.abcPeriod = s.abcPeriod) ∨
    (s.seq = .exec ∧ fetchCommand s = some .init) ∨
    (s.seq = .exec ∧ (∃ h, fetchCommand s = some (.setabc h)) ∧ t.deviceId = s.deviceId ∧ t.fwVersion = s.fwVersion) := by
  obtain ⟨-, rfl⟩ | ⟨hs, i, hi, he⟩ | ⟨-, -, -, rfl⟩ := coreStep_next h
  · exact .inl ⟨rfl, rfl, rfl⟩
  · have g := (exec_microStep he).snapshot
    by_cases hinit : i = .init
    · subst hinit
      exact .inr (.inl ⟨hs, fetchCommand_of_fetch hi rfl⟩)
    · have hd := g.deviceId.resolve_right fun e => hinit e.1
      have hf := g.fwVersion.resolve_right fun e => hinit e.1
      obtain ha | ⟨e, -⟩ | ⟨⟨v, rfl⟩, -⟩ := g.abcPeriod
      · exact .inl ⟨hd, hf, ha⟩
      · exact absurd e hinit
      · exact .inr (.inr ⟨hs, ⟨v, fetchCommand_of_fetch hi rfl⟩, hd, hf⟩)
  · exact .inl ⟨rfl, rfl, rfl⟩

theorem coreStep_cmdl (h : coreStep s = .next t) : t.cmdl = s.cmdl := by
  obtain ⟨-, rfl⟩ | ⟨-, i, -, he⟩ | ⟨-, -, -, rfl⟩ := coreStep_next h
  · rfl
  · exact (exec_frame he).cmdl
  · rfl

/-- The core sends at most one frame in a micro-step, and only at a transmit position. -/
theorem coreStep_txlog (h : coreStep s = .next t) :
    t.txlog = s.txlog ∨ ∃ f k, t.txlog = s.txlog ++ [f] ∧ s.seq = .exec ∧ s.pos = .op k .tx := by
  obtain ⟨-, rfl⟩ | ⟨hs, i, -, he⟩ | ⟨-, -, -, rfl⟩ := coreStep_next h
  · exact .inl rfl
  · exact (exec_frame he).txlog.imp_right fun ⟨k, f, hp, hf, _⟩ => ⟨f, k, hf, hs, hp⟩
  · exact .inl rfl

theorem coreStep_comesToTx {k : Slot} (h : coreStep s = .next t) (ht : t.pos = .op k .tx) (hs : s.pos ≠ .op k .tx) :
    s.pos = .op k .settleEnd ∧ s.cfg.tSettle ≤ (s.now - s.t0).toNat := by
  obtain ⟨-, rfl⟩ | ⟨-, i, -, he⟩ | ⟨-, -, -, rfl⟩ := coreStep_next h
  · exact absurd ht hs
  · exact (exec_microStep he).comesToTx ht hs
  · exact absurd ht hs

end

/-- Settles O40: the writers are the core's (`coreStep_snapshot`) and the reset input; no other agent's move writes the
snapshot. -/
theorem snapshotWriters : Obligations.SnapshotWriters := by
  unfold Obligations.SnapshotWriters
  intro s t h
  obtain ⟨u, ⟨-, rfl⟩ | ⟨l, -, rfl⟩, hc⟩ | ⟨b, l, -, rfl⟩ | ⟨ms, l, -, rfl⟩ | ⟨off, l, -, -, rfl⟩ |
    ⟨off, v, l, -, -, -, rfl⟩ | ⟨v, l, -, -, rfl⟩ | ⟨l, hl, rfl⟩ := step_next h
  case inl.inl => exact (coreStep_snapshot hc).imp_right .inr
  case inl.inr => exact (coreStep_snapshot hc).imp_right .inr
  case inr.inr.inr.inr.inr.inr => exact .inr (.inl ⟨l, hl⟩)
  all_goals exact .inl ⟨rfl, rfl, rfl⟩

/-- Settles O42: the latch is written at acceptance, which `BUSY` refuses, and by the reset input. -/
theorem commandStaysLatched : Obligations.CommandStaysLatched := by
  unfold Obligations.CommandStaysLatched
  intro s t hb h
  obtain ⟨u, ⟨-, rfl⟩ | ⟨l, -, rfl⟩, hc⟩ | ⟨b, l, -, rfl⟩ | ⟨ms, l, -, rfl⟩ | ⟨off, l, -, -, rfl⟩ |
    ⟨off, v, l, -, -, -, rfl⟩ | ⟨v, l, -, hidle, rfl⟩ | ⟨l, hl, rfl⟩ := step_next h
  case inl.inl => exact .inl (coreStep_cmdl hc)
  case inl.inr => exact .inl (coreStep_cmdl (s := s.setInputs l) hc)
  case inr.inr.inr.inr.inr.inl => exact absurd (hb.symm.trans hidle) (by decide)
  case inr.inr.inr.inr.inr.inr => exact .inr ⟨l, hl⟩
  all_goals exact .inl rfl

/-- Settles O43: only the core sends (`coreStep_txlog`). -/
theorem framesSentStaySent : Obligations.FramesSentStaySent := by
  unfold Obligations.FramesSentStaySent
  intro s t h
  obtain ⟨u, ⟨-, rfl⟩ | ⟨l, -, rfl⟩, hc⟩ | ⟨b, l, -, rfl⟩ | ⟨ms, l, -, rfl⟩ | ⟨off, l, -, -, rfl⟩ |
    ⟨off, v, l, -, -, -, rfl⟩ | ⟨v, l, -, -, rfl⟩ | ⟨l, hl, rfl⟩ := step_next h
  case inl.inl => exact coreStep_txlog hc
  case inl.inr => exact coreStep_txlog (s := s.setInputs l) hc
  all_goals exact .inl rfl

/-- Settles O44: only the core comes to a transmit position (`coreStep_comesToTx`): the host's write and the reset input
leave the first position, and no other move changes it. -/
theorem settleWaitBeforeEveryFrame : Obligations.SettleWaitBeforeEveryFrame := by
  unfold Obligations.SettleWaitBeforeEveryFrame
  intro s t k h ht hs
  rw [← and_assoc]
  refine ⟨?_, step_cfg h⟩
  obtain ⟨u, ⟨-, rfl⟩ | ⟨l, -, rfl⟩, hc⟩ | ⟨b, l, -, rfl⟩ | ⟨ms, l, -, rfl⟩ | ⟨off, l, -, -, rfl⟩ |
    ⟨off, v, l, -, -, -, rfl⟩ | ⟨v, l, -, -, rfl⟩ | ⟨l, hl, rfl⟩ := step_next h
  case inl.inl => exact coreStep_comesToTx hc ht hs
  case inl.inr => exact coreStep_comesToTx (s := s.setInputs l) hc ht hs
  case inr.inr.inr.inr.inr.inl => cases ht
  case inr.inr.inr.inr.inr.inr => cases ht
  all_goals exact absurd ht hs

/-! ## The collector loses and reorders no byte -/

/-- The bytes of the collection: those taken so far and those still in `RXQ`. -/
def collectedBytes (s : State) : List Byte := s.rxbuf.toList.take s.rxcnt ++ s.rxq

/-- A take moves the head of `RXQ` to the end of what is collected. -/
theorem collectedBytes_takeByte {s : State} {b : Byte} {q : List Byte} (hq : s.rxq = b :: q) (hn : s.rxcnt < 8) :
    collectedBytes (s.takeByte b q) = collectedBytes s := by
  simp only [collectedBytes, State.takeByte_rxbuf, State.takeByte_rxcnt, State.takeByte_rxq,
    Frame8.take_set _ _ _ hn, hq, List.append_assoc, List.singleton_append]

/-- A check changes no byte. -/
theorem collectedBytes_checkStep {fn : FnCode} {s t : State} (h : checkStep fn s = .next t) :
    collectedBytes t = collectedBytes s := by
  unfold checkStep at h
  split at h
  · obtain ⟨k, -, rfl⟩ := receiveRead_next h; simp [collectedBytes]
  · obtain ⟨k, -, rfl⟩ := receiveRead_next h; simp [collectedBytes]
  · obtain ⟨k, -, rfl⟩ := receiveWrite_next h; simp [collectedBytes]

/-- A micro-step of a register operation that begins no collection and does not time out keeps its bytes. -/
theorem collectedBytes_opStep {o : OpCall} {p : OpPos} {s t : State} (hc : p ≠ .collect)
    (hd : p = .deadline → s.deadlinePassed = false) (hf : p = .full → s.echoLate = false)
    (hn : s.rxcnt < 8 ∨ p ≠ .take) (h : opStep o p s = .next t) : collectedBytes t = collectedBytes s := by
  cases p with
  | collect => exact absurd rfl hc
  | settleEnd => obtain ⟨-, rfl⟩ | ⟨-, rfl⟩ := endWait_next h <;> rfl
  | pollEnd => obtain ⟨-, rfl⟩ | ⟨-, rfl⟩ := endWait_next h <;> rfl
  | tx => obtain ⟨k, -, rfl⟩ := transmit_next h; rfl
  | check => exact collectedBytes_checkStep h
  | take =>
    simp only [opStep] at h
    split at h
    · cases h
    · cases h
      exact collectedBytes_takeByte ‹_› (hn.resolve_right (not_not_intro rfl))
  | full =>
    rw [opStep_full (hf rfl)] at h
    cases h
    rfl
  | deadline =>
    rw [opStep_deadline_early (hd rfl)] at h
    cases h
    rfl
  | _ => cases h; rfl

/-- Settles O45: at a position of a register operation the command's arm is `opStep` (`exec_op`), which outside a timeout
only moves a byte from `RXQ` to `RXBUF`. -/
theorem collectorTakesBytesInOrder : Obligations.CollectorTakesBytesInOrder := by
  unfold Obligations.CollectorTakesBytesInOrder
  intro i k p o s t ho hp hc hd hf hn h
  rw [exec_op ho hp] at h
  refine collectedBytes_opStep hc (fun e => deadlinePassed_of_le (hd e)) (fun e => Bool.eq_false_iff.2 fun hl => ?_) hn h
  obtain ⟨hcnt, hlate⟩ := echoLate_iff_tooLate.1 hl
  exact hf e hcnt hlate

end Sys2Proof.Machine
end

section
/-! PROOFS. The registers as the host reads them, the moves of the other agents, and what the core's step runs
(10_state.md R36, R47, R51; 20_memory.md R71; 00_scope.md R24, R27; 60_exceptions.md R256). -/
namespace Sys2Proof.Machine

/-- Settles O12: each register is a field of the reset state. -/
theorem resetRegisterValues : Obligations.ResetRegisterValues := by
  unfold Obligations.ResetRegisterValues
  exact ⟨rfl, rfl, rfl, rfl, rfl, rfl, rfl, rfl⟩

theorem zext32_toNat (v : Half) : (zext32 v).toNat = v.toNat := BitVec.toNat_setWidth_of_le (by decide)

/-- From offset 0x18 on there is no register (20_memory.md R71). -/
theorem readReg_reserved {off : Byte} (s : State) (h : 0x18 ≤ off.toNat) : readReg off s = 0x00000000#32 := by
  have hne : ∀ c : Byte, c.toNat < 0x18 → off ≠ c := by
    rintro c hc rfl
    omega
  rw [readReg, if_neg (hne _ (by decide)), if_neg (hne _ (by decide)), if_neg (hne _ (by decide)),
    if_neg (hne _ (by decide)), if_neg (hne _ (by decide)), if_neg (hne _ (by decide))]

/-- Settles O14: one register at each of the six offsets below 0x18, none above (`readReg_reserved`). -/
theorem hostRegisterMap : Obligations.HostRegisterMap := by
  unfold Obligations.HostRegisterMap
  intro s off
  refine ⟨?_, ?_, ?_, ?_, ?_, ?_, readReg_reserved s⟩ <;> rintro rfl
  · rfl
  · rfl
  · rfl
  · rfl
  · exact zext32_toNat s.fwVersion
  · exact zext32_toNat s.abcPeriod

/-! ## The moves of the other agents -/

/-- Settles O18: the aligned 32-bit write of `CMD` is `State.accept` (`hostWrite_command`). -/
theorem commandAccepted : Obligations.CommandAccepted := by
  unfold Obligations.CommandAccepted
  intro s l w h hb
  rw [step_host h, hostStep, hostWrite_command (s := s.setInputs l) w hb]
  rfl

/-- With room in the FIFO the arriving byte is appended. -/
theorem queueAfter_of_room {s : State} (b : Byte) (h : FifoRoom s.cfg (s.rxq.length + 1)) :
    s.queueAfter b = s.rxq ++ [b] := by
  obtain ⟨e, -⟩ | ⟨d, hd, hfull, -⟩ := queueAfter_cases s b
  · exact e
  · have := h d hd
    omega

theorem step_tick {s : State} {ms : Nat} {l : List Input} (h : s.moves = .tick ms :: l) :
    step s = .next ((s.setInputs l).tick ms) := by
  simp only [step, systemStep, h, agentStep]

theorem step_rx {s : State} {b : Byte} {l : List Input} (h : s.moves = .rx b :: l) :
    step s = .next ((s.setInputs l).lineAppend b) := by
  simp only [step, systemStep, h, agentStep]

/-- Settles O23: the clock's move is `State.tick`, the line's `State.lineAppend`, and a byte is appended where there is
room (`queueAfter_of_room`). -/
theorem lineAndClockMoves : Obligations.LineAndClockMoves := by
  unfold Obligations.LineAndClockMoves
  intro s l
  refine ⟨fun ms h => step_tick h, fun b h hroom => ?_, fun b h => ⟨_, step_rx h⟩⟩
  rw [step_rx h, ← queueAfter_of_room b hroom]
  rfl

/-! ## The core's step -/

theorem coreStep_idle {s : State} (hs : s.seq = .idle) : coreStep s = .next s := by
  simp only [coreStep, hs]

/-- Settles O22: in `IDLE` the core's move leaves the state as it is. -/
theorem idleCoreDoesNothing : Obligations.IdleCoreDoesNothing := by
  unfold Obligations.IdleCoreDoesNothing
  intro s hs
  exact ⟨fun h => (step_idle_inputs h).trans (coreStep_idle hs),
    fun l h => (step_core h).trans (coreStep_idle (s := s.setInputs l) hs)⟩

section
variable {s : State}

/-- The core's next micro-step is that of the fetched instruction. -/
theorem coreStep_of_fetch {i : Instr} (hs : s.seq = .exec) (h : fetch s = some i) : coreStep s = exec i s := by
  rw [coreStep_exec hs, h, runFetched]

theorem fetch_elsewhere (ht : ∀ k, s.pos ≠ .op k .tx) (hc : ∀ k, s.pos ≠ .op k .check) : fetch s = fetchCommand s := by
  unfold fetch
  split
  next hp => exact absurd hp (ht _)
  next hp => exact absurd hp (hc _)
  next => rfl

theorem fetch_tx {k : Slot} (hp : s.pos = .op k .tx) :
    fetch s = (fetchRequest s).orElse fun _ => fetchCommand s := by
  simp only [fetch, hp]

theorem fetch_check {k : Slot} (hp : s.pos = .op k .check) :
    fetch s = (fetchResponse s).orElse fun _ => fetchCommand s := by
  simp only [fetch, hp]

theorem fetchRequest_of_ok {i : Instr} (h : decode .request (.frame s.txbuf.toList) = .ok i) :
    fetchRequest s = some i := by
  simp only [fetchRequest, h]

theorem fetchRequest_of_noRow (h : ∀ j, decode .request (.frame s.txbuf.toList) ≠ .ok j) : fetchRequest s = none := by
  unfold fetchRequest
  split
  next j hj => exact absurd hj (h j)
  next => rfl

theorem fetchResponse_of_ok {i : Instr} {fn : FnCode} (hfn : s.txbuf.b1 = fn.code)
    (h : decode (.response fn) (.frame (s.rxbuf.toList.take fn.rspLen)) = .ok i) : fetchResponse s = some i := by
  simp only [fetchResponse, hfn, fnOfCode_code, h]

theorem fetchResponse_of_noRow (h : ∀ fn j, s.txbuf.b1 = fn.code →
    decode (.response fn) (.frame (s.rxbuf.toList.take fn.rspLen)) ≠ .ok j) : fetchResponse s = none := by
  unfold fetchResponse
  split
  next => rfl
  next fn hfn =>
    split
    next j hj => exact absurd hj (h fn j (code_of_fnOfCode hfn))
    next => rfl

end

/-- Settles O20: the fetch by position and by what the frame buffers hold. -/
theorem stepRunsDecodedInstruction : Obligations.StepRunsDecodedInstruction := by
  unfold Obligations.StepRunsDecodedInstruction
  intro s l hm hs
  have runs : ∀ i, fetch (s.setInputs l) = some i → step s = exec i { s with inputs := l } := fun i hi =>
    (step_core hm).trans (coreStep_of_fetch (s := s.setInputs l) hs hi)
  refine ⟨fun i ht hc hi => ?_, fun i k hp hi => ?_, fun i k fn hp hfn hi => ?_, fun i k hp hno hi => ?_,
    fun i k hp hno hi => ?_⟩ <;> refine runs i ?_
  · rw [fetch_elsewhere (s := s.setInputs l) ht hc]
    exact fetchCommand_of_ok hi
  · rw [fetch_tx (s := s.setInputs l) hp, fetchRequest_of_ok (s := s.setInputs l) hi]
    rfl
  · rw [fetch_check (s := s.setInputs l) hp, fetchResponse_of_ok (s := s.setInputs l) hfn hi]
    rfl
  · rw [fetch_tx (s := s.setInputs l) hp, fetchRequest_of_noRow (s := s.setInputs l) hno]
    exact fetchCommand_of_ok hi
  · rw [fetch_check (s := s.setInputs l) hp, fetchResponse_of_noRow (s := s.setInputs l) hno]
    exact fetchCommand_of_ok hi

theorem fetchCommand_of_error {s : State} {e : DecodeError} (h : decodeCommand s.cmdl = .error e) :
    fetchCommand s = none := by
  simp only [fetchCommand, decode, h]

theorem execIllegal_start {s : State} (hp : s.pos = .start) :
    execIllegal s = .next (s.complete false .illegalCommand s.result) := by
  simp only [execIllegal, hp]

/-- Settles O34: nothing is fetched, and at the first position `ILLEGAL` completes (60_exceptions.md R256). -/
theorem illegalCommandCompletes : Obligations.IllegalCommandCompletes := by
  unfold Obligations.IllegalCommandCompletes
  intro s l e hm hs hp he
  have hf : fetch (s.setInputs l) = none := by
    rw [fetch_elsewhere (s := s.setInputs l) (by simp [hp]) (by simp [hp])]
    exact fetchCommand_of_error he
  rw [step_core hm, coreStep_exec (s := s.setInputs l) hs, hf]
  exact execIllegal_start (s := s.setInputs l) hp

end Sys2Proof.Machine
end

section
/-! PROOFS. The micro-steps of the commands outside their register operations (43_register_access.md R200 to R203;
44_register_mux.md R222 to R226), and the operations each command has. -/
namespace Sys2Proof.Machine

/-! ## The operations of every command -/

/-- At a position of an operation the command does not have its rule has no micro-step. -/
theorem exec_noOperation {i : Instr} {k : Slot} {p : OpPos} {s : State} (hi : i.place = .command)
    (hk : commandCall s.cfg i k = none) (hp : s.pos = .op k p) : exec i s = .fault .positionOutsideRule := by
  cases i with
  | reqRir _ _ | reqRhr _ _ | reqWhr _ _ _ | rspRir _ _ _ _ | rspRhr _ _ _ _ | rspWhr _ _ _ _ _ => cases hi
  | clrx => simp only [exec, execClrx, hp]
  | getid => simp only [exec, execGetid, hp]
  | getfw => simp only [exec, execGetfw, hp]
  | getabc => simp only [exec, execGetabc, hp]
  | init => cases hk
  | rhr a =>
    cases k with
    | r1 => cases hk
    | r2 | r3 | r4 => simp only [exec, execRhr, hp]
  | rir a =>
    cases k with
    | r1 => cases hk
    | r2 | r3 | r4 => simp only [exec, execRir, hp]
  | whr a v =>
    cases k with
    | r1 => cases hk
    | r2 | r3 | r4 => simp only [exec, execWhr, hp]
  | getco2 =>
    cases k with
    | r1 => cases hk
    | r2 | r3 | r4 => simp only [exec, execGetco2, hp]
  | setabc h =>
    cases k with
    | r1 | r2 => cases hk
    | r3 | r4 => simp only [exec, execSetabc, hp]
  | bgcal =>
    cases k with
    | r1 | r2 | r3 => cases hk
    | r4 => simp only [exec, execBgcal, hp]

/-- `BGCAL`'s acknowledgment read, by the function `CAL_ACK_READ_FN` names (44_register_mux.md R228). -/
theorem bgcalCall_acknowledgment (c : Config) : bgcalCall c .r3 =
    ⟨if c.calAckReadFn = 0x03#8 then .readHolding else .readInput, c.regCalAck, 0x0001#16, .r3⟩ := by
  simp only [bgcalCall]
  split <;> rfl

/-- Settles O24: the table of operations, entry by entry; where it has none, `exec_noOperation`. -/
theorem commandOperations : Obligations.CommandOperations := by
  unfold Obligations.CommandOperations
  refine ⟨fun _ _ => rfl, fun _ _ => rfl, fun _ _ _ => rfl, rfl, rfl, rfl, rfl, rfl, fun _ => rfl, fun _ => rfl, rfl, rfl,
    rfl, fun c => congrArg some (bgcalCall_acknowledgment c), fun _ _ => ⟨rfl, rfl, rfl, rfl⟩, fun c k a v hk => ?_,
    fun _ _ => ⟨rfl, rfl, rfl⟩, fun i k p s hi hk hp => exec_noOperation hi hk hp⟩
  exact ⟨if_neg hk, if_neg hk, if_neg hk, if_neg hk⟩

/-! ## `CLRX`, `RIR`, `RHR`, `WHR`, `GETCO2` and the getters: their arms at the first and last positions -/

section
variable {s : State} {a : Byte} {v : Half}

theorem exec_clrx_start (hp : s.pos = .start) : exec .clrx s = clearStep .test s := by
  simp only [exec, execClrx, hp]

theorem exec_clrx_cleared (hp : s.pos = .cleared) : exec .clrx s = .next (s.complete true .none 0x00000000#32) := by
  simp only [exec, execClrx, hp]

theorem exec_rir_start (hp : s.pos = .start) : exec (.rir a) s = opStep (rirCall a .r1) .build s := by
  simp only [exec, execRir, hp]

theorem exec_rir_read (hp : s.pos = .after .r1) :
    exec (.rir a) s = .next (s.complete s.ret1.ok s.ret1.err (zext32 s.ret1.value)) := by
  simp only [exec, execRir, hp]

theorem exec_rhr_start (hp : s.pos = .start) : exec (.rhr a) s = opStep (rhrCall a .r1) .build s := by
  simp only [exec, execRhr, hp]

theorem exec_rhr_read (hp : s.pos = .after .r1) :
    exec (.rhr a) s = .next (s.complete s.ret1.ok s.ret1.err (zext32 s.ret1.value)) := by
  simp only [exec, execRhr, hp]

theorem exec_whr_start (hp : s.pos = .start) : exec (.whr a v) s = opStep (whrCall a v .r1) .build s := by
  simp only [exec, execWhr, hp]

theorem exec_whr_written (hp : s.pos = .after .r1) :
    exec (.whr a v) s = .next (s.complete s.ret1.ok s.ret1.err (boolWord s.ret1.ok)) := by
  simp only [exec, execWhr, hp]

theorem exec_getco2_start (hp : s.pos = .start) : exec .getco2 s = clearStep .test s := by
  simp only [exec, execGetco2, hp]

theorem exec_getco2_cleared (hp : s.pos = .cleared) :
    exec .getco2 s = opStep (rirCall s.cfg.regCo2 .r1) .build s := by
  simp only [exec, execGetco2, hp]

theorem exec_getid_start (hp : s.pos = .start) : exec .getid s = .next (s.complete true .none s.deviceId) := by
  simp only [exec, execGetid, hp]

theorem exec_getfw_start (hp : s.pos = .start) :
    exec .getfw s = .next (s.complete true .none (zext32 s.fwVersion)) := by
  simp only [exec, execGetfw, hp]

theorem exec_getabc_start (hp : s.pos = .start) :
    exec .getabc s = .next (s.complete true .none (zext32 s.abcPeriod)) := by
  simp only [exec, execGetabc, hp]

theorem exec_getco2_read (hp : s.pos = .after .r1) :
    exec .getco2 s = .next (s.complete s.ret1.ok s.ret1.err (zext32 s.ret1.value)) := by
  simp only [exec, execGetco2, hp]

end

/-- Settles O29: the arm at each position, `BUILD_REQ` by `opStep_build` and the restart test by `clearStep_test_`. -/
theorem registerCommandSteps : Obligations.RegisterCommandSteps := by
  unfold Obligations.RegisterCommandSteps
  intro s a v
  refine ⟨exec_clrx_cleared, fun hp => ⟨exec_rir_read hp, exec_rhr_read hp, exec_getco2_read hp, exec_whr_written hp⟩,
    fun hp => ⟨?_, ?_, ?_, fun hr => ⟨?_, ?_⟩, fun hr => ⟨?_, ?_⟩⟩, fun hp => ?_⟩
  · rw [exec_rir_start hp]; exact opStep_build _ s
  · rw [exec_rhr_start hp]; exact opStep_build _ s
  · rw [exec_whr_start hp]; exact opStep_build _ s
  · rw [exec_clrx_start hp]; exact clearStep_test_noRestart hr
  · rw [exec_getco2_start hp]; exact clearStep_test_noRestart hr
  · rw [exec_clrx_start hp]; exact clearStep_test_restart hr
  · rw [exec_getco2_start hp]; exact clearStep_test_restart hr
  · rw [exec_getco2_cleared hp]; exact opStep_build _ s

/-- Settles O30: each getter's arm at the first position. -/
theorem cachedGetters : Obligations.CachedGetters := by
  unfold Obligations.CachedGetters
  exact fun s hp => ⟨exec_getid_start hp, exec_getfw_start hp, exec_getabc_start hp⟩

/-! ## `INIT`: its arm at each position outside its operations, and its outcome -/

section
variable {s : State}

theorem exec_init_start (hp : s.pos = .start) :
    exec .init s = .next (s.goto (if s.cfg.clearBeforeInit then .clear .test else .op .r1 .build)) := by
  simp only [exec, execInit, hp]

theorem exec_init_cleared (hp : s.pos = .cleared) : exec .init s = opStep (initCall s.cfg .r1) .build s := by
  simp only [exec, execInit, hp]

theorem exec_init_idHigh (hp : s.pos = .after .r1) : exec .init s = opStep (initCall s.cfg .r2) .build s := by
  simp only [exec, execInit, hp]

theorem exec_init_idLow (hp : s.pos = .after .r2) :
    exec .init s = .next ((s.setDeviceId (joinHalves s.ret1.value s.ret2.value)).goto (.op .r3 .build)) := by
  simp only [exec, execInit, hp]

theorem exec_init_firmware (hp : s.pos = .after .r3) :
    exec .init s = .next ((s.setFwVersion s.ret3.value).goto (.op .r4 .build)) := by
  simp only [exec, execInit, hp]

theorem exec_init_abc (hp : s.pos = .after .r4) :
    exec .init s = .next ((s.setAbcPeriod s.ret4.value).goto .finish) := by
  simp only [exec, execInit, hp]

theorem exec_init_finish (hp : s.pos = .finish) :
    exec .init s = .next (s.complete (initOk s) (initErr s) 0x00000000#32) := by
  simp only [exec, execInit, hp]

theorem initOk_iff : initOk s = true ↔
    s.ret1.ok = true ∧ s.ret2.ok = true ∧ s.ret3.ok = true ∧ s.ret4.ok = true := by
  simp [initOk, and_assoc]

/-- An error ends the search for the first one. -/
theorem firstErr_cons_error {e : ErrKind} {l : List ErrKind} (h : e ≠ .none) : firstErr (e :: l) = e := if_neg h

theorem firstErr_cons_none {e : ErrKind} {l : List ErrKind} (h : e = .none) : firstErr (e :: l) = firstErr l := if_pos h

/-- The last error of a list is what is left of it. -/
theorem firstErr_singleton (e : ErrKind) : firstErr [e] = e := by
  cases e <;> rfl

end

/-- Settles O31: the arm at each position; the error is found by passing over every `NONE` before it. -/
theorem initSteps : Obligations.InitSteps := by
  unfold Obligations.InitSteps
  intro s
  refine ⟨fun hp hc => ?_, fun hp hc => ?_, fun hp => ?_, fun hp => ?_,
    fun hp => ⟨_, joinHalves_toNat _ _, exec_init_idLow hp⟩, exec_init_firmware, exec_init_abc,
    fun hp => ⟨_, initErr s, exec_init_finish hp, initOk_iff, fun h1 => ?_, fun h1 h2 => ?_, fun h1 h2 h3 => ?_,
      fun h1 h2 h3 => ?_⟩⟩
  · rw [exec_init_start hp, hc]; rfl
  · rw [exec_init_start hp, hc]; rfl
  · rw [exec_init_cleared hp]; exact opStep_build _ s
  · rw [exec_init_idHigh hp]; exact opStep_build _ s
  · rw [initErr, firstErr_cons_error h1]
  · rw [initErr, firstErr_cons_none h1, firstErr_cons_error h2]
  · rw [initErr, firstErr_cons_none h1, firstErr_cons_none h2, firstErr_cons_error h3]
  · rw [initErr, firstErr_cons_none h1, firstErr_cons_none h2, firstErr_cons_none h3, firstErr_singleton]

/-- Settles O35: each row's arm is `Tx` of its own frame, whose eight bytes are those of R110. -/
theorem requestFramesAreSent : Obligations.RequestFramesAreSent := by
  unfold Obligations.RequestFramesAreSent
  intro s k a v crc hp
  exact ⟨transmit_at hp, transmit_at hp, transmit_at hp⟩

end Sys2Proof.Machine
end

section
/-! PROOFS. Runs of whole commands from the host's write to completion: `CLEAR()` of a quiet line, `CLRX`, and every
command with register operations under the ideal schedule (42_byte_collector.md R178; 70_reset_and_hazards.md R300). -/
namespace Sys2Proof.Machine

/-! ## `CLEAR()` on a quiet line -/

/-- While no other agent moves, `2n + 1` micro-steps drain `n` bytes. -/
theorem run_drain {i : Instr} (hc : commandClears i = true) : ∀ s : State, s.seq = .exec → fetchCommand s = some i →
    s.pos = .clear .avail → s.moves = [] →
    Host.Core.run Sys2Proof.core (2 * s.rxq.length + 1) s = .next ((s.setRxq []).goto .cleared) := by
  intro s hs hi hp hm
  generalize hq : s.rxq = q
  induction q generalizing s with
  | nil =>
    have hstep : step s = .next (s.goto .cleared) := by
      rw [step_idle_inputs hm, coreStep_clear hs hi hc hp, clearStep_avail_empty hq]
    have hset : s.setRxq [] = s := by rw [← hq]; rfl
    rw [List.length_nil, run_succ hstep, hset]
    rfl
  | cons b q ih =>
    have havail : step s = .next (s.goto (.clear .discard)) := by
      rw [step_idle_inputs hm, coreStep_clear hs hi hc hp, clearStep_avail_byte (by simp [hq])]
    have hdiscard : step (s.goto (.clear .discard)) = .next ((s.setRxq q).goto (.clear .avail)) := by
      rw [step_idle_inputs (s := s.goto (.clear .discard)) hm,
        coreStep_clear (s := s.goto (.clear .discard)) hs hi hc rfl]
      exact clearStep_discard (s := s.goto (.clear .discard)) hq
    rw [List.length_cons, show 2 * (q.length + 1) + 1 = 2 * q.length + 1 + 1 + 1 by omega, run_succ havail,
      run_succ hdiscard]
    exact ih ((s.setRxq q).goto (.clear .avail)) hs hi rfl hm rfl

/-- Settles O50: induction on the bytes in `RXQ` (`run_drain`). -/
theorem clearDrainsQuietLine : Obligations.ClearDrainsQuietLine := by
  unfold Obligations.ClearDrainsQuietLine
  exact fun i s hs hi hc hp hm => run_drain hc s hs hi hp hm

/-! ## A command in execution -/

/-- The positions at which a frame is read as the instruction (log entry 3). -/
def readsFrame : Pos → Bool
  | .op _ .tx => true
  | .op _ .check => true
  | _ => false

/-- At every other position the core runs the latched command's arm. -/
theorem coreStep_latched {i : Instr} {s : State} {p : Pos} (hs : s.seq = .exec) (hi : fetchCommand s = some i)
    (hp : s.pos = p) (hf : readsFrame p = false := by rfl) : coreStep s = exec i s := by
  subst hp
  refine coreStep_of_fetch hs ((fetch_elsewhere (fun k h => ?_) fun k h => ?_).trans hi) <;> rw [h] at hf <;> cases hf

/-- The command word `w` of `i`, accepted in `s`, is being executed in `u` with `RXQ` empty: `frames` have been sent and
`ms` milliseconds have passed. -/
structure Executing (i : Instr) (w : Word) (frames : List Frame8) (ms : Nat) (s u : State) : Prop where
  decoded : decodeCommand w = .ok i
  cfg : u.cfg = s.cfg
  cmdl : u.cmdl = w
  seq : u.seq = .exec
  status : u.status = .accepted (opcField w)
  rxq : u.rxq = []
  txlog : u.txlog = s.txlog ++ frames
  now : u.now = s.now + BitVec.ofNat 32 ms

/-- A micro-step that touches none of it. -/
structure Unseen (u v : State) : Prop where
  cfg : v.cfg = u.cfg
  cmdl : v.cmdl = u.cmdl
  seq : v.seq = u.seq
  status : v.status = u.status
  rxq : v.rxq = u.rxq
  txlog : v.txlog = u.txlog
  now : v.now = u.now

/-- The command has completed. -/
structure Ended (w : Word) (ok : Bool) (err : ErrKind) (result : Word) (frames : List Frame8) (ms : Nat)
    (s t : State) : Prop where
  status : t.status = ⟨false, true, ok, err, opcField w⟩
  result : t.result = result
  seq : t.seq = .idle
  rxq : t.rxq = []
  txlog : t.txlog = s.txlog ++ frames
  now : t.now = s.now + BitVec.ofNat 32 ms

/-- The register operation `o` has returned the tuple `r`. -/
structure Returned (o : OpCall) (r : Ret) (u t : State) : Prop where
  pos : t.pos = .after o.slot
  ret : t.ret o.slot = r
  others : ∀ j, j ≠ o.slot → t.ret j = u.ret j
  snapshot : SnapshotKept u t

theorem Executing.accepted {i : Instr} {w : Word} {s : State} (hw : decodeCommand w = .ok i) (hq : s.rxq = []) :
    Executing i w [] 0 s (s.accept w) :=
  ⟨hw, rfl, rfl, rfl, rfl, hq, (List.append_nil _).symm, (BitVec.add_zero _).symm⟩

section
variable {i : Instr} {w : Word} {frames : List Frame8} {ms : Nat} {s u : State}

theorem Executing.next {v : State} (h : Executing i w frames ms s u) (k : Unseen u v := by constructor <;> rfl) :
    Executing i w frames ms s v :=
  ⟨h.decoded, k.cfg.trans h.cfg, k.cmdl.trans h.cmdl, k.seq.trans h.seq, k.status.trans h.status, k.rxq.trans h.rxq,
    k.txlog.trans h.txlog, k.now.trans h.now⟩

theorem Executing.fetchCommand (h : Executing i w frames ms s u) : fetchCommand u = some i :=
  fetchCommand_of_ok (by rw [h.cmdl]; exact h.decoded)

theorem Executing.coreStep {p : Pos} (h : Executing i w frames ms s u) (hp : u.pos = p)
    (hf : readsFrame p = false := by rfl) : coreStep u = exec i u :=
  coreStep_latched h.seq h.fetchCommand hp hf

theorem Executing.operating {o : OpCall} (h : Executing i w frames ms s u) (ho : commandCall s.cfg i o.slot = some o) :
    Operating o u :=
  ⟨h.seq, by rw [h.fetchCommand, h.cfg]; exact ho⟩

/-- At the first position of a register operation the core builds its request. -/
theorem Executing.build {o : OpCall} (h : Executing i w frames ms s u) (ho : commandCall s.cfg i o.slot = some o)
    (hp : u.pos = .op o.slot .build) : exec i u = opStep o .build u :=
  exec_op (by rw [h.cfg]; exact ho) hp

theorem Executing.answered {o : OpCall} {r : Ret} {n : Nat} {t : State} (h : Executing i w frames ms s u)
    (a : Answered o r n u t) : Executing i w (frames ++ [builtFrame s.cfg.slaveAddr o.fn o.addr o.value]) (ms + n) s t :=
  ⟨h.decoded, a.kept.cfg.trans h.cfg, a.kept.cmdl.trans h.cmdl, a.kept.seq.trans h.seq, a.kept.status.trans h.status,
    a.rxq, by rw [a.txlog, h.txlog, h.cfg, List.append_assoc], by rw [a.now, h.now, add_ofNat_ofNat]⟩

theorem Answered.returned {o : OpCall} {r : Ret} {n : Nat} {t : State} (a : Answered o r n u t) : Returned o r u t :=
  ⟨a.pos, a.ret, a.others, a.kept.deviceId, a.kept.fwVersion, a.kept.abcPeriod⟩

/-- A register read of the command, answered by a valid response. -/
theorem Executing.read {o : OpCall} {p : Pos} (h : Executing i w frames ms s u) (slave fn : Byte) (v : Half)
    (ho : commandCall s.cfg i o.slot = some o) (hfn : o.fn = .readInput ∨ o.fn = .readHolding) (hp : u.pos = p)
    (hb : exec i u = opStep o .build u) (ht : SourceTimes s.cfg) (hroom : FifoRoom s.cfg 7)
    (hf : readsFrame p = false := by rfl) :
    ∃ t, Runs (opMoves s.cfg (readReply slave fn v)) u t ∧
      Executing i w (frames ++ [builtFrame s.cfg.slaveAddr o.fn o.addr o.value]) (ms + modeTime s.cfg 95 5) s t ∧
      Returned o ⟨true, .none, v⟩ u t := by
  rw [← h.cfg] at ht hroom
  obtain ⟨t, hr, ha⟩ := Runs.answeredRead hfn slave fn v (h.operating ho) ((h.coreStep hp hf).trans hb) ht h.rxq hroom
  rw [h.cfg] at hr ha
  exact ⟨t, hr, h.answered ha, ha.returned⟩

/-- A register write of the command, echoed exactly. -/
theorem Executing.write {o : OpCall} {p : Pos} (h : Executing i w frames ms s u)
    (ho : commandCall s.cfg i o.slot = some o) (hfn : o.fn = .writeSingle) (hp : u.pos = p)
    (hb : exec i u = opStep o .build u) (ht : SourceTimes s.cfg) (hroom : FifoRoom s.cfg 8)
    (hf : readsFrame p = false := by rfl) :
    ∃ t, Runs (opMoves s.cfg (echoReply s.cfg.slaveAddr o.addr o.value)) u t ∧
      Executing i w (frames ++ [builtFrame s.cfg.slaveAddr o.fn o.addr o.value]) (ms + modeTime s.cfg 110 5) s t ∧
      Returned o ⟨true, .none, 0⟩ u t := by
  rw [← h.cfg] at ht hroom
  obtain ⟨t, hr, ha⟩ := Runs.answeredWrite hfn (h.operating ho) ((h.coreStep hp hf).trans hb) ht h.rxq hroom
  rw [h.cfg] at hr ha
  exact ⟨t, hr, h.answered ha, ha.returned⟩

/-- A register operation of the command on a silent line. -/
theorem Executing.silent {o : OpCall} {p : Pos} (h : Executing i w frames ms s u)
    (ho : commandCall s.cfg i o.slot = some o) (hp : u.pos = p) (hb : exec i u = opStep o .build u)
    (ht : SourceTimes s.cfg) (hf : readsFrame p = false := by rfl) :
    ∃ t, Runs (silentMoves s.cfg) u t ∧
      Executing i w (frames ++ [builtFrame s.cfg.slaveAddr o.fn o.addr o.value]) (ms + 110) s t ∧
      Returned o (timeoutRet o.fn) u t ∧ t.rxcnt = 0 := by
  rw [← h.cfg] at ht
  obtain ⟨t, hr, ha, hcnt⟩ := Runs.silentOp (h.operating ho) ((h.coreStep hp hf).trans hb) ht h.rxq
  rw [h.cfg] at hr
  exact ⟨t, hr, h.answered ha, ha.returned, hcnt⟩

/-- A micro-step of the command's own. -/
theorem Executing.own {v : State} {p : Pos} (h : Executing i w frames ms s u) (hp : u.pos = p) (he : exec i u = .next v)
    (hf : readsFrame p = false := by rfl) (k : Unseen u v := by constructor <;> rfl) :
    Runs (cores 1) u v ∧ Executing i w frames ms s v :=
  ⟨Runs.core ((h.coreStep hp hf).trans he), h.next k⟩

/-- The command's `CLEAR()` of the empty `RXQ`, without a restart. -/
theorem Executing.clear {p : Pos} (h : Executing i w frames ms s u) (hc : commandClears i = true)
    (hr : s.cfg.transportHasRestart = false) (hp : u.pos = p) (hb : exec i u = clearStep .test u)
    (hf : readsFrame p = false := by rfl) :
    Runs clearMoves u (u.goto .cleared) ∧ Executing i w frames ms s (u.goto .cleared) :=
  ⟨Runs.clearEmpty h.seq h.fetchCommand hc (h.cfg ▸ hr) h.rxq ((h.coreStep hp hf).trans hb), h.next⟩

/-- The command's own wait of `n` ms, from its start sample, that lasts exactly its duration. -/
theorem Executing.wait {n : Nat} {p q : Pos} (h : Executing i w frames ms s u) (hn : n < 2 ^ 32) (hp : u.pos = p)
    (hb : exec i u = .next (u.beginWait.goto .waitEnd))
    (he : exec i ((u.beginWait.goto .waitEnd).tick n) = endWait u.now n q ((u.beginWait.goto .waitEnd).tick n))
    (hf : readsFrame p = false := by rfl) :
    ∃ t, Runs (waitMoves n) u t ∧ Executing i w frames (ms + n) s t ∧ t.pos = q ∧ (∀ j, t.ret j = u.ret j) ∧
      SnapshotKept u t := by
  have hw : Executing i w frames ms s (u.beginWait.goto .waitEnd) := h.next
  have hlatched := coreStep_latched (s := (u.beginWait.goto .waitEnd).tick n) hw.seq hw.fetchCommand rfl
  refine ⟨_, Runs.wait hn ((h.coreStep hp hf).trans hb) (hlatched.trans he), ?_, rfl, by simp, rfl, rfl, rfl⟩
  refine ⟨h.decoded, h.cfg, h.cmdl, h.seq, h.status, h.rxq, h.txlog, ?_⟩
  rw [← add_ofNat_ofNat, ← h.now]
  rfl

/-- The command completes. -/
theorem Executing.complete {ok : Bool} {err : ErrKind} {r : Word} {p : Pos} (h : Executing i w frames ms s u)
    (hp : u.pos = p) (he : exec i u = .next (u.complete ok err r)) (hf : readsFrame p = false := by rfl) :
    Runs (cores 1) u (u.complete ok err r) ∧ Ended w ok err r frames ms s (u.complete ok err r) := by
  refine ⟨Runs.core ((h.coreStep hp hf).trans he), ?_, rfl, rfl, h.rxq, h.txlog, h.now⟩
  show u.status.completed ok err = _
  rw [h.status]
  rfl

end

/-- Times of one mode add up. -/
theorem modeTime_add (c : Config) (a b a' b' : Nat) :
    modeTime c a b + modeTime c a' b' = modeTime c (a + a') (b + b') := by
  unfold modeTime
  split <;> rfl

/-- A wait of the command's own takes its time in either mode. -/
theorem modeTime_add_const (c : Config) (a b n : Nat) : modeTime c a b + n = modeTime c (a + n) (b + n) := by
  unfold modeTime
  split <;> rfl

theorem cores_add (m n : Nat) : cores (m + n) = cores m ++ cores n := List.replicate_add ..

/-- A run from the state whose moves to come are exactly `l`. -/
theorem Runs.all {l : List Input} {s t : State} (h : Runs l s t) (hm : s.moves = l) :
    Host.Core.run Sys2Proof.core s.moves.length s = .next (t.setInputs []) := by
  rw [hm]
  exact h.run hm

/-! ## `CLRX` -/

/-- Settles O53: acceptance, the restart test, the drain (`Runs.drain`), and the completion. -/
theorem clrxRun : Obligations.ClrxRun := by
  unfold Obligations.ClrxRun
  intro s hb hr hm
  have hw : decodeCommand 0x01000000#32 = .ok .clrx := by rfl
  generalize ha : s.accept 0x01000000#32 = a
  have hseq : a.seq = .exec := by subst ha; rfl
  have hcmd : fetchCommand a = some .clrx := by subst ha; exact fetchCommand_of_ok hw
  have hpos : a.pos = .start := by subst ha; rfl
  have htest : coreStep a = .next (a.goto (.clear .avail)) := by
    rw [coreStep_latched hseq hcmd hpos, exec_clrx_start hpos]
    exact clearStep_test_noRestart (by subst ha; exact hr)
  have hdrain := Runs.drain (i := .clrx) (a.goto (.clear .avail)) hseq hcmd rfl rfl
  have hx : Executing .clrx 0x01000000#32 [] 0 s (((a.goto (.clear .avail)).setRxq []).goto .cleared) := by
    subst ha
    exact ⟨hw, rfl, rfl, rfl, rfl, rfl, (List.append_nil _).symm, (BitVec.add_zero _).symm⟩
  obtain ⟨hdone, he⟩ := hx.complete rfl (exec_clrx_cleared rfl)
  have haccept : Runs [.host (.write 0x00#8 4 0x01000000#32)] s a := ha ▸ Runs.command _ hb
  have hrun := haccept.append ((Runs.core htest).append (l := cores 1) (hdrain.append hdone))
  have hq : (a.goto (.clear .avail)).rxq = s.rxq := by subst ha; rfl
  rw [hq, ← cores_add, ← cores_add, show 1 + (2 * s.rxq.length + 1 + 1) = 2 * s.rxq.length + 3 by omega] at hrun
  have hlen : s.moves.length = 2 * s.rxq.length + 4 := by simp [hm, cores]
  have hall := hrun.all hm
  rw [hlen] at hall
  refine ⟨_, hall, ?_, he.result, he.rxq, he.txlog.trans (List.append_nil _), he.now.trans (BitVec.add_zero _), he.seq⟩
  exact (congrArg Status.word he.status).trans (by decide)

/-! ## `RIR`, `RHR` and `WHR` -/

/-- `i` is one of the two register reads, and `o` its operation (43_register_access.md R201, R202). -/
structure ReadsRegister (i : Instr) (o : OpCall) : Prop where
  call : ∀ c, commandCall c i o.slot = some o
  slot : o.slot = .r1
  fn : o.fn = .readInput ∨ o.fn = .readHolding
  begins : ∀ {u : State}, u.pos = .start → exec i u = opStep o .build u
  ends : ∀ {u : State}, u.pos = .after .r1 → exec i u = .next (u.complete u.ret1.ok u.ret1.err (zext32 u.ret1.value))

/-- The command that reads a holding or an input register, its word, and its operation. -/
theorem readsRegister (holding : Bool) (a : Byte) : ReadsRegister (if holding then .rhr a else .rir a)
    ⟨if holding then .readHolding else .readInput, a, readCount, .r1⟩ := by
  cases holding with
  | false => exact ⟨fun _ => rfl, rfl, .inl rfl, exec_rir_start, exec_rir_read⟩
  | true => exact ⟨fun _ => rfl, rfl, .inr rfl, exec_rhr_start, exec_rhr_read⟩

theorem decodeCommand_read (holding : Bool) (a : Byte) :
    decodeCommand (commandWord (if holding then 0x03#8 else 0x04#8) a 0) =
      .ok (if holding then .rhr a else .rir a) := by
  rw [decodeCommand_commandWord]
  cases holding <;> rfl

section
variable {i : Instr} {o : OpCall} {w : Word} {s : State}

/-- A register read whose operation has returned completes with the tuple it returned. -/
theorem ReadsRegister.complete {r : Ret} {frames : List Frame8} {ms : Nat} {u t : State} (h : ReadsRegister i o)
    (hx : Executing i w frames ms s t) (hret : Returned o r u t) :
    Runs (cores 1) t (t.complete r.ok r.err (zext32 r.value)) ∧
      Ended w r.ok r.err (zext32 r.value) frames ms s (t.complete r.ok r.err (zext32 r.value)) := by
  have hpos : t.pos = .after .r1 := by rw [hret.pos, h.slot]
  have hr1 : t.ret1 = r := by rw [← hret.ret, h.slot]; rfl
  have he := h.ends hpos
  rw [hr1] at he
  exact hx.complete hpos he

/-- A register read answered by a valid response. -/
theorem ReadsRegister.run (h : ReadsRegister i o) (hw : decodeCommand w = .ok i) (slave fn : Byte) (v : Half)
    (ht : SourceTimes s.cfg) (hroom : FifoRoom s.cfg 7) (hq : s.rxq = []) (hb : s.status.busy = false) :
    ∃ t, Runs (.host (.write 0x00#8 4 w) :: (opMoves s.cfg (readReply slave fn v) ++ cores 1)) s t ∧
      Ended w true .none (zext32 v) [builtFrame s.cfg.slaveAddr o.fn o.addr o.value] (modeTime s.cfg 95 5) s t ∧
      SnapshotKept s t := by
  obtain ⟨t, hr, hx, hret⟩ := (Executing.accepted hw hq).read slave fn v (h.call _) h.fn rfl (h.begins rfl) ht hroom
  obtain ⟨hc, he⟩ := h.complete hx hret
  rw [Nat.zero_add] at he
  exact ⟨_, (Runs.command w hb).append (l := [_]) (hr.append hc), he, hret.snapshot.deviceId, hret.snapshot.fwVersion,
    hret.snapshot.abcPeriod⟩

/-- A register read on a silent line. -/
theorem ReadsRegister.run_silent (h : ReadsRegister i o) (hw : decodeCommand w = .ok i) (ht : SourceTimes s.cfg)
    (hq : s.rxq = []) (hb : s.status.busy = false) :
    ∃ t, Runs (.host (.write 0x00#8 4 w) :: (silentMoves s.cfg ++ cores 1)) s t ∧
      Ended w false .timeout (zext32 sentinel) [builtFrame s.cfg.slaveAddr o.fn o.addr o.value] 110 s t ∧
      t.rxcnt = 0 := by
  obtain ⟨t, hr, hx, hret, hcnt⟩ := (Executing.accepted hw hq).silent (h.call _) rfl (h.begins rfl) ht
  have hto : timeoutRet o.fn = ⟨false, .timeout, sentinel⟩ := by rcases h.fn with e | e <;> rw [e] <;> rfl
  rw [hto] at hret
  obtain ⟨hc, he⟩ := h.complete hx hret
  exact ⟨_, (Runs.command w hb).append (l := [_]) (hr.append hc), he, hcnt⟩

end

/-- Settles O54: `ReadsRegister.run` of either read. -/
theorem idealRegisterRead : Obligations.IdealRegisterRead := by
  unfold Obligations.IdealRegisterRead
  intro s a slave fn v holding ht hroom hq hb hm
  obtain ⟨t, hr, he, hk⟩ := (readsRegister holding a).run (decodeCommand_read holding a) slave fn v ht hroom hq hb
  exact ⟨t.setInputs [], hr.all hm, he.result, he.status.trans (by rw [opcField_commandWord]), he.seq, he.txlog, he.rxq,
    he.now, hk.deviceId, hk.fwVersion, hk.abcPeriod⟩

/-- Settles O56: `ReadsRegister.run_silent` of either read. -/
theorem silentReadTimesOut : Obligations.SilentReadTimesOut := by
  unfold Obligations.SilentReadTimesOut
  intro s a holding ht hq hb hm
  obtain ⟨t, hr, he, hcnt⟩ := (readsRegister holding a).run_silent (decodeCommand_read holding a) ht hq hb
  refine ⟨t.setInputs [], hr.all hm, he.result, ?_, he.seq, hcnt, he.txlog, he.now⟩
  show t.status.word = _
  rw [he.status, opcField_commandWord]
  cases holding <;> rfl

/-- Settles O55: acceptance, the write operation (`Executing.write`), and the completion. -/
theorem idealRegisterWrite : Obligations.IdealRegisterWrite := by
  unfold Obligations.IdealRegisterWrite
  intro s a v ht hroom hq hb hm
  have hx := Executing.accepted (w := commandWord 0x06#8 a v) (i := .whr a v) (decodeCommand_commandWord _ _ _) hq
  obtain ⟨t, hr, hx, hret⟩ := hx.write (o := whrCall a v .r1) rfl rfl rfl (exec_whr_start rfl) ht hroom
  have hpos : t.pos = .after .r1 := hret.pos
  have hr1 : t.ret1 = ⟨true, .none, 0⟩ := hret.ret
  obtain ⟨hc, he⟩ := hx.complete hpos (exec_whr_written hpos)
  rw [hr1] at hc he
  rw [Nat.zero_add] at he
  exact ⟨State.setInputs [] _, ((Runs.command _ hb).append (l := [_]) (hr.append hc)).all hm, he.result,
    he.status.trans (by rw [opcField_commandWord]), he.seq, he.txlog, he.rxq, he.now⟩

end Sys2Proof.Machine
end

section
/-! PROOFS. The composite commands under the ideal schedule, from the host's write to completion (44_register_mux.md R222,
R223, R227, R228; 70_reset_and_hazards.md R300). -/
namespace Sys2Proof.Machine

/-- Settles O57: acceptance, `CLEAR()`, the read of the CO2 register, and the completion. -/
theorem idealGetco2 : Obligations.IdealGetco2 := by
  unfold Obligations.IdealGetco2
  intro s slave fn v ht hroom hq hb hrestart hm
  have hx := Executing.accepted (w := 0x11000000#32) (i := .getco2) (by rfl) hq
  obtain ⟨hclear, hx⟩ := hx.clear rfl hrestart rfl (exec_getco2_start rfl)
  obtain ⟨t, hread, hx, hret⟩ := hx.read (o := rirCall s.cfg.regCo2 .r1) slave fn v rfl (.inl rfl) rfl
    (exec_getco2_cleared rfl) ht hroom
  have hpos : t.pos = .after .r1 := hret.pos
  have hr1 : t.ret1 = ⟨true, .none, v⟩ := hret.ret
  obtain ⟨hdone, he⟩ := hx.complete hpos (exec_getco2_read hpos)
  rw [hr1] at hdone he
  rw [Nat.zero_add] at he
  have hrun := (Runs.command _ hb).append (l := [_]) ((hclear.append hread).append hdone)
  exact ⟨State.setInputs [] _, hrun.all hm, (congrArg BitVec.toNat he.result).trans (zext32_toNat v), he.status, he.seq,
    he.txlog, he.now, hret.snapshot.deviceId, hret.snapshot.fwVersion, hret.snapshot.abcPeriod⟩

/-! ## `INIT` -/

/-- The way of `INIT` and `SETABC` into their first operation, where the parameter asks for a `CLEAR()` first. -/
theorem Executing.enter {i : Instr} {w : Word} {s : State} (hw : decodeCommand w = .ok i) (hq : s.rxq = [])
    (hc : commandClears i = true) (hr : s.cfg.transportHasRestart = false)
    (hstart : exec i (s.accept w) = .next ((s.accept w).goto (.clear .test))) :
    Runs (cores 1 ++ clearMoves) (s.accept w) ((s.accept w).goto .cleared) ∧
      Executing i w [] 0 s ((s.accept w).goto .cleared) := by
  obtain ⟨htest, hx⟩ := (Executing.accepted hw hq).own rfl hstart
  obtain ⟨hclear, hx⟩ := hx.clear hc hr rfl (exec_clear hc rfl)
  exact ⟨htest.append hclear, hx⟩

section
variable {w : Word} {frames : List Frame8} {ms : Nat} {s u : State}

/-- `INIT`'s reads of the device ID's two halves, and its capture of the ID. -/
theorem init_readsId (hx : Executing .init w frames ms s u) (hp : u.pos = .cleared) (hi lo : Half)
    (ht : SourceTimes s.cfg) (hroom : FifoRoom s.cfg 7) :
    ∃ t, Runs (opMoves s.cfg (readReply 0xFE#8 0x04#8 hi) ++ opMoves s.cfg (readReply 0xFE#8 0x04#8 lo) ++ cores 1) u t ∧
      Executing .init w (frames ++ [builtFrame s.cfg.slaveAddr .readInput s.cfg.regIdHi readCount] ++
        [builtFrame s.cfg.slaveAddr .readInput s.cfg.regIdLo readCount])
        (ms + modeTime s.cfg 95 5 + modeTime s.cfg 95 5) s t ∧
      t.pos = .op .r3 .build ∧ t.ret1 = ⟨true, .none, hi⟩ ∧ t.ret2 = ⟨true, .none, lo⟩ ∧
      t.deviceId = joinHalves hi lo := by
  obtain ⟨t1, hread1, hx, hret1⟩ := hx.read (o := initCall s.cfg .r1) 0xFE#8 0x04#8 hi rfl (.inl rfl) hp
    ((exec_init_cleared hp).trans (by rw [hx.cfg])) ht hroom
  have hp1 : t1.pos = .after .r1 := hret1.pos
  obtain ⟨t2, hread2, hx, hret2⟩ := hx.read (o := initCall s.cfg .r2) 0xFE#8 0x04#8 lo rfl (.inl rfl) hp1
    ((exec_init_idHigh hp1).trans (by rw [hx.cfg])) ht hroom
  have hp2 : t2.pos = .after .r2 := hret2.pos
  obtain ⟨hid, hx⟩ := hx.own hp2 (exec_init_idLow hp2)
  have h1 : t2.ret1 = ⟨true, .none, hi⟩ := (hret2.others .r1 nofun).trans hret1.ret
  have h2 : t2.ret2 = ⟨true, .none, lo⟩ := hret2.ret
  refine ⟨_, (hread1.append hread2).append hid, hx, rfl, h1, h2, ?_⟩
  show joinHalves t2.ret1.value t2.ret2.value = joinHalves hi lo
  rw [h1, h2]

/-- `INIT`'s reads of the firmware version and of the ABC period, each captured right after its read. -/
theorem init_readsFwAndAbc (hx : Executing .init w frames ms s u) (hp : u.pos = .op .r3 .build) (fw abc : Half)
    (ht : SourceTimes s.cfg) (hroom : FifoRoom s.cfg 7) :
    ∃ t, Runs (opMoves s.cfg (readReply 0xFE#8 0x04#8 fw) ++ cores 1 ++
        opMoves s.cfg (readReply 0xFE#8 0x03#8 abc) ++ cores 1) u t ∧
      Executing .init w (frames ++ [builtFrame s.cfg.slaveAddr .readInput s.cfg.regFw readCount] ++
        [builtFrame s.cfg.slaveAddr .readHolding s.cfg.regAbc readCount])
        (ms + modeTime s.cfg 95 5 + modeTime s.cfg 95 5) s t ∧
      t.pos = .finish ∧ t.ret1 = u.ret1 ∧ t.ret2 = u.ret2 ∧ t.ret3 = ⟨true, .none, fw⟩ ∧ t.ret4 = ⟨true, .none, abc⟩ ∧
      t.deviceId = u.deviceId ∧ t.fwVersion = fw ∧ t.abcPeriod = abc := by
  obtain ⟨t3, hread3, hx, hret3⟩ := hx.read (o := initCall s.cfg .r3) 0xFE#8 0x04#8 fw rfl (.inl rfl) hp
    (hx.build rfl hp) ht hroom
  have hp3 : t3.pos = .after .r3 := hret3.pos
  obtain ⟨hfw, hx⟩ := hx.own hp3 (exec_init_firmware hp3)
  obtain ⟨t4, hread4, hx, hret4⟩ := hx.read (o := initCall s.cfg .r4) 0xFE#8 0x03#8 abc rfl (.inr rfl) rfl
    (hx.build rfl rfl) ht hroom
  have hp4 : t4.pos = .after .r4 := hret4.pos
  obtain ⟨habc, hx⟩ := hx.own hp4 (exec_init_abc hp4)
  have h3 : t3.ret3 = ⟨true, .none, fw⟩ := hret3.ret
  have h4 : t4.ret4 = ⟨true, .none, abc⟩ := hret4.ret
  exact ⟨_, ((hread3.append hfw).append hread4).append habc, hx, rfl,
    (hret4.others .r1 nofun).trans (hret3.others .r1 nofun), (hret4.others .r2 nofun).trans (hret3.others .r2 nofun),
    (hret4.others .r3 nofun).trans h3, h4, hret4.snapshot.deviceId.trans hret3.snapshot.deviceId,
    hret4.snapshot.fwVersion.trans (congrArg Ret.value h3), congrArg Ret.value h4⟩

/-- Four reads that succeeded: `INIT` succeeds. -/
theorem initOutcome_success {hi lo fw abc : Half} (h1 : u.ret1 = ⟨true, .none, hi⟩) (h2 : u.ret2 = ⟨true, .none, lo⟩)
    (h3 : u.ret3 = ⟨true, .none, fw⟩) (h4 : u.ret4 = ⟨true, .none, abc⟩) :
    initOk u = true ∧ initErr u = .none := by
  simp [initOk, initErr, h1, h2, h3, h4]

end

/-- Settles O58: acceptance, `CLEAR()`, the four reads with their captures, and the completion. -/
theorem idealInit : Obligations.IdealInit := by
  unfold Obligations.IdealInit
  intro s hi lo fw abc ht hroom hq hb hrestart hbefore hm
  obtain ⟨henter, hx⟩ := Executing.enter (w := 0x10000000#32) (i := .init) (by rfl) hq rfl hrestart
    ((exec_init_start rfl).trans (by rw [State.accept_cfg, hbefore]; rfl))
  obtain ⟨t, hreadId, hx, hp, h1, h2, hid⟩ := init_readsId hx rfl hi lo ht hroom
  obtain ⟨t', hreads, hx, hp', h1', h2', h3, h4, hid', hfw, habc⟩ := init_readsFwAndAbc hx hp fw abc ht hroom
  obtain ⟨hok, herr⟩ := initOutcome_success (h1'.trans h1) (h2'.trans h2) h3 h4
  obtain ⟨hdone, he⟩ := hx.complete hp' (exec_init_finish hp')
  rw [hok, herr] at hdone he
  rw [Nat.zero_add, modeTime_add, modeTime_add, modeTime_add] at he
  have hrun := (Runs.command _ hb).append (((henter.append hreadId).append hreads).append hdone)
  simp only [List.append_assoc, List.singleton_append] at hrun
  refine ⟨State.setInputs [] _, hrun.all (hm.trans (by simp only [List.append_assoc]; rfl)), ?_, hfw, habc, he.result,
    he.status, he.seq, he.txlog, he.now⟩
  exact (congrArg BitVec.toNat (hid'.trans hid)).trans (joinHalves_toNat _ _)

/-! ## `SETABC` -/

/-- `SETABC`'s write, its wait, its re-read and the capture of the value read. -/
theorem setabc_writesAndReads {w : Word} {frames : List Frame8} {ms : Nat} {s u : State} {h : Half}
    (hx : Executing (.setabc h) w frames ms s u) (hp : u.pos = .cleared) (v : Half) (ht : SourceTimes s.cfg)
    (hroom : FifoRoom s.cfg 8) :
    ∃ t, Runs (opMoves s.cfg (echoReply s.cfg.slaveAddr s.cfg.regAbc h) ++ waitMoves s.cfg.tAbcApply ++
        opMoves s.cfg (readReply 0xFE#8 0x03#8 v) ++ cores 1) u t ∧
      Executing (.setabc h) w (frames ++ [builtFrame s.cfg.slaveAddr .writeSingle s.cfg.regAbc h] ++
        [builtFrame s.cfg.slaveAddr .readHolding s.cfg.regAbc readCount])
        (ms + modeTime s.cfg 110 5 + s.cfg.tAbcApply + modeTime s.cfg 95 5) s t ∧
      t.pos = .finish ∧ t.ret1 = ⟨true, .none, 0⟩ ∧ t.ret2 = ⟨true, .none, v⟩ ∧ t.deviceId = u.deviceId ∧
      t.fwVersion = u.fwVersion ∧ t.abcPeriod = v := by
  have hroom7 : FifoRoom s.cfg 7 := fun d hd => Nat.le_of_succ_le (hroom d hd)
  obtain ⟨t1, hwrite, hx, hret1⟩ := hx.write (o := setabcCall s.cfg h .r1) rfl rfl hp
    ((exec_setabc_cleared hp).trans (by rw [hx.cfg])) ht hroom
  have hp1 : t1.pos = .after .r1 := hret1.pos
  obtain ⟨t2, hwait, hx, hp2, hret2, hkept2⟩ := hx.wait (n := s.cfg.tAbcApply) (q := .op .r2 .build)
    (by rw [ht.abcApply]; decide) hp1 (exec_setabc_afterWrite hp1)
    ((exec_setabc_waitEnd rfl).trans (by rw [← hx.cfg]; rfl))
  obtain ⟨t3, hread, hx, hret3⟩ := hx.read (o := setabcCall s.cfg h .r2) 0xFE#8 0x03#8 v rfl (.inr rfl) hp2
    (hx.build rfl hp2) ht hroom7
  have hp3 : t3.pos = .after .r2 := hret3.pos
  obtain ⟨habc, hx⟩ := hx.own hp3 (exec_setabc_afterReread hp3)
  have hr2 : t3.ret2 = ⟨true, .none, v⟩ := hret3.ret
  exact ⟨_, ((hwrite.append hwait).append hread).append habc, hx, rfl,
    (hret3.others .r1 nofun).trans ((hret2 .r1).trans hret1.ret), hr2,
    hret3.snapshot.deviceId.trans (hkept2.deviceId.trans hret1.snapshot.deviceId),
    hret3.snapshot.fwVersion.trans (hkept2.fwVersion.trans hret1.snapshot.fwVersion), congrArg Ret.value hr2⟩

/-- Settles O59: acceptance, `CLEAR()`, the write, the wait and the re-read, and the completion, whose outcome is that of
the comparison. -/
theorem idealSetabc : Obligations.IdealSetabc := by
  unfold Obligations.IdealSetabc
  intro s h v ht hroom hq hb hrestart hbefore hm
  have hopc : opcField (commandWord 0x15#8 0 h) = 0x15#8 := opcField_commandWord _ _ _
  obtain ⟨henter, hx⟩ := Executing.enter (w := commandWord 0x15#8 0 h) (i := .setabc h)
    (decodeCommand_commandWord _ _ _) hq rfl hrestart
    ((exec_setabc_start rfl).trans (by rw [State.accept_cfg, hbefore]; rfl))
  obtain ⟨t, hops, hx, hp, h1, h2, hid, hfw, habc⟩ := setabc_writesAndReads hx rfl v ht hroom
  obtain ⟨hdone, he⟩ := hx.complete hp (exec_setabc_finish hp)
  rw [h1, h2] at hdone he
  rw [ht.abcApply, Nat.zero_add, modeTime_add_const, modeTime_add] at he
  have hrun := (Runs.command _ hb).append ((henter.append hops).append hdone)
  simp only [List.append_assoc, List.singleton_append] at hrun
  refine ⟨State.setInputs [] _, hrun.all (hm.trans (by simp only [List.append_assoc]; rfl)), habc, he.result, he.seq, hid,
    hfw, fun hv => ?_, fun hv => ?_, he.txlog, he.now⟩
  · obtain ⟨hok, herr⟩ := setabcOutcome_success (w := ⟨true, .none, 0⟩) (r := ⟨true, .none, v⟩) rfl rfl hv
    exact he.status.trans (by rw [hok, herr, hopc])
  · obtain ⟨hok, herr⟩ := setabcOutcome_mismatch (w := ⟨true, .none, 0⟩) (r := ⟨true, .none, v⟩) rfl rfl hv
    exact he.status.trans (by rw [hok, herr, hopc])

/-! ## `BGCAL` -/

section
variable {w : Word} {frames : List Frame8} {ms : Nat} {s u : State}

/-- `BGCAL`'s two writes, each echoed exactly. -/
theorem bgcal_writes (hx : Executing .bgcal w frames ms s u) (hp : u.pos = .cleared) (ht : SourceTimes s.cfg)
    (hroom : FifoRoom s.cfg 8) :
    ∃ t, Runs (opMoves s.cfg (echoReply s.cfg.slaveAddr s.cfg.regCalAck 0x0000#16) ++ cores 1 ++
        opMoves s.cfg (echoReply s.cfg.slaveAddr s.cfg.regCalCmd s.cfg.calCmd) ++ cores 1) u t ∧
      Executing .bgcal w (frames ++ [builtFrame s.cfg.slaveAddr .writeSingle s.cfg.regCalAck 0x0000#16] ++
        [builtFrame s.cfg.slaveAddr .writeSingle s.cfg.regCalCmd s.cfg.calCmd])
        (ms + modeTime s.cfg 110 5 + modeTime s.cfg 110 5) s t ∧
      t.pos = .waitBegin := by
  obtain ⟨t1, hwrite1, hx, hret1⟩ := hx.write (o := bgcalCall s.cfg .r1) rfl rfl hp
    ((exec_bgcal_cleared hp).trans (by rw [hx.cfg])) ht hroom
  have hp1 : t1.pos = .after .r1 := hret1.pos
  obtain ⟨hgo1, hx⟩ := hx.own hp1 (exec_bgcal_firstWritten hp1 (congrArg Ret.ok hret1.ret))
  obtain ⟨t2, hwrite2, hx, hret2⟩ := hx.write (o := bgcalCall s.cfg .r2) rfl rfl rfl (hx.build rfl rfl) ht hroom
  have hp2 : t2.pos = .after .r2 := hret2.pos
  obtain ⟨hgo2, hx⟩ := hx.own hp2 (exec_bgcal_secondWritten hp2 (congrArg Ret.ok hret2.ret))
  exact ⟨_, ((hwrite1.append hgo1).append hwrite2).append hgo2, hx, rfl⟩

/-- `BGCAL`'s wait and its read of the acknowledgment register, by the function `CAL_ACK_READ_FN` names. -/
theorem bgcal_waitsAndReads (hx : Executing .bgcal w frames ms s u) (hp : u.pos = .waitBegin) (slave fn : Byte) (v : Half)
    (ht : SourceTimes s.cfg) (hroom : FifoRoom s.cfg 7) :
    ∃ t, Runs (waitMoves s.cfg.tCalWait ++ opMoves s.cfg (readReply slave fn v)) u t ∧
      Executing .bgcal w (frames ++ [builtFrame s.cfg.slaveAddr
        (if s.cfg.calAckReadFn = 0x03#8 then .readHolding else .readInput) s.cfg.regCalAck 0x0001#16])
        (ms + s.cfg.tCalWait + modeTime s.cfg 95 5) s t ∧
      t.pos = .after .r3 ∧ t.ret3 = ⟨true, .none, v⟩ := by
  obtain ⟨t1, hwait, hx, hp1, -, -⟩ := hx.wait (n := s.cfg.tCalWait) (q := .op .r3 .build)
    (by rw [ht.calWait]; decide) hp (exec_bgcal_waitBegin hp)
    ((exec_bgcal_waitEnd rfl).trans (by rw [← hx.cfg]; rfl))
  have hack := congrArg some (bgcalCall_acknowledgment s.cfg)
  obtain ⟨t2, hread, hx, hret⟩ := hx.read (o := ⟨if s.cfg.calAckReadFn = 0x03#8 then .readHolding else .readInput,
    s.cfg.regCalAck, 0x0001#16, .r3⟩) slave fn v hack (ite_eq_or_eq ..).symm hp1 (hx.build hack hp1) ht hroom
  exact ⟨t2, hwait.append hread, hx, hret.pos, hret.ret⟩

end

/-- A value read that is the sentinel or has the bit clear acknowledges nothing. -/
theorem calOutcome_notAcknowledged {m v : Half} (hv : v = 0xFFFF#16 ∨ v &&& m = 0) :
    calAcknowledged m ⟨true, .none, v⟩ = false ∧ calErr m ⟨true, .none, v⟩ = .notAcknowledged := by
  by_cases hs : v = sentinel
  · exact calOutcome_readSentinel hs rfl
  · exact calOutcome_bitClear hs (hv.resolve_left hs)

/-- Settles O60: acceptance, `CLEAR()`, the two writes, the wait, the acknowledgment read, and the completion, whose
outcome is that of the value read. -/
theorem idealBgcal : Obligations.IdealBgcal := by
  unfold Obligations.IdealBgcal
  intro s slave fn v ht hroom hq hb hrestart hmask hm
  have hx := Executing.accepted (w := 0x16000000#32) (i := .bgcal) (by rfl) hq
  obtain ⟨hclear, hx⟩ := hx.clear rfl hrestart rfl (exec_bgcal_start rfl)
  obtain ⟨t, hwrites, hx, hp⟩ := bgcal_writes hx rfl ht hroom
  obtain ⟨t', hack, hx, hp', h3⟩ := bgcal_waitsAndReads hx hp slave fn v ht fun d hd => Nat.le_of_succ_le (hroom d hd)
  obtain ⟨hdone, he⟩ := hx.complete hp' (exec_bgcal_acknowledgment hp')
  rw [hx.cfg, hmask, h3] at hdone he
  rw [ht.calWait, Nat.zero_add, modeTime_add, modeTime_add_const, modeTime_add] at he
  have hrun := (Runs.command _ hb).append (((hclear.append hwrites).append hack).append hdone)
  simp only [List.append_assoc, List.singleton_append] at hrun
  refine ⟨State.setInputs [] _, hrun.all (hm.trans (by simp only [List.append_assoc])), he.seq, fun hv hbit => ?_,
    fun hv => ?_, he.txlog, he.now⟩
  · obtain ⟨hok, herr⟩ := calOutcome_bitSet (r := ⟨true, .none, v⟩) hv hbit
    exact ⟨he.result.trans (by rw [hok]; rfl), he.status.trans (by rw [hok, herr]; rfl)⟩
  · obtain ⟨hok, herr⟩ := calOutcome_notAcknowledged hv
    exact ⟨he.result.trans (by rw [hok]; rfl), he.status.trans (by rw [hok, herr]; rfl)⟩

end Sys2Proof.Machine
end
